-- ==== Sys2Proof/Word.lean ====
section
/-! DEFINITION. The word types of the BFX block. -/

namespace Sys2Proof

/-- A register of the block: 64 bits (spec/00_scope.md R13). -/
abbrev Word := BitVec 64

/-- A byte of BUF, of the reader cache, of a ROM or of the source (spec/00_scope.md R14). -/
abbrev Byte := BitVec 8

/-- A command word (spec/30_encoding.md R90). -/
abbrev CmdWord := BitVec 32

end Sys2Proof
end

