-- ==== Sys2Proof/Config.lean ====
section
/-! DEFINITION. What an instantiation of the block fixes (spec/00_scope.md R6 to R12), the two ROMs' types of
contents, and the free values of the model. -/

namespace Sys2Proof

/-- A bit order that a position map can use (spec/20_memory.md R64). The spec's third value, Unknown, is
`none : Option BitOrder` wherever a value may be Unknown (spec/10_state.md R31). -/
inductive BitOrder
  | mostSignificant
  | leastSignificant
  deriving DecidableEq, Repr

/-- The probed byte numbering (spec/00_scope.md R10); Unknown is `none : Option ByteOrder`. -/
inductive ByteOrder
  | big
  | little
  | middleBig
  | middleLittle
  deriving DecidableEq, Repr

/-- WORD_BYTES is 4 or 8 (spec/00_scope.md R11). -/
inductive WordBytes
  | four
  | eight
  deriving DecidableEq, Repr

/-- The named parameters that the spec leaves OPEN (spec/92_eei_decisions.md, first table). They are constant
from reset and the host reads them in SYSORD, BUFSZ and CACHEMAX. -/
structure Params where
  /-- SYS_BIT_ORDER, R9; `none` is Unknown. -/
  sysBitOrder : Option BitOrder
  /-- SYS_BYTE_ORDER, R10; `none` is Unknown. -/
  sysByteOrder : Option ByteOrder
  /-- BUF_BYTES, R6. -/
  bufBytes : Nat
  /-- CACHE_MAX_BYTES, R7. -/
  cacheMax : Nat
  /-- WORD_BYTES, R11. -/
  wordBytes : WordBytes
  /-- ACCEPT_INDEX8, R12. -/
  acceptIndex8 : Bool
  deriving DecidableEq, Repr

/-- The legal values of the parameters (spec/00_scope.md R6, R7). -/
abbrev Params.legal (p : Params) : Prop :=
  1 ≤ p.bufBytes ∧ p.bufBytes ≤ 2 ^ 32 ∧ 32 ≤ p.cacheMax ∧ p.cacheMax ≤ 2 ^ 32 - 1

/-- SYS_BIT_ORDER or SYS_BYTE_ORDER is Unknown (spec/10_state.md R46). -/
def Params.orderUnknown (p : Params) : Bool :=
  p.sysBitOrder.isNone || p.sysByteOrder.isNone

/-- The instantiation of the test vectors (spec/95_test_vectors.md, conventions). DESIGN CHOICE, notes/assumptions/1.md:
`State.reset` uses it; every statement of the model holds for any parameters. -/
def Params.vectors : Params where
  sysBitOrder := some .mostSignificant
  sysByteOrder := some .little
  bufBytes := 64
  cacheMax := 64
  wordBytes := .eight
  acceptIndex8 := false

/-- How a host access to a BUF byte that the running command uses turns out (spec/20_memory.md R81). -/
inductive RaceOutcome
  /-- The command prevails: a read gives the old byte; a byte that both write ends with the command's value. -/
  | early
  /-- The access acts on the byte as it stands. -/
  | now
  /-- The host prevails: a read gives the new byte; the byte ends with the value that the host writes. -/
  | late
  deriving DecidableEq, Repr, Inhabited

namespace Config

/-- FREE VALUE, notes/assumptions/7.md. How the n-th racing host access to a BUF byte turns out (spec/20_memory.md R81,
spec/93_implementation_defined.md I4). -/
opaque raceOutcome : Nat → RaceOutcome

/-- FREE VALUE, notes/assumptions/4.md. What RDSRC reads when SRC_POS does not fit in 64 bits
(spec/10_state.md R38, spec/00_scope.md R15: no rule says). -/
opaque rdsrcWide : Nat → Word

/-- FREE VALUE, notes/assumptions/8.md. Whether a reset drops the CMD writes that the interface holds
(spec/70_reset_and_hazards.md R340, R350: no rule says). -/
opaque resetDropsHeld : Nat → Bool

end Config

end Sys2Proof
end

