-- ==== Sys2Proof/Machine/State.lean ====
section
/-! DEFINITION. The state of the block, of its host interface and of its source port, as plain data. -/

namespace Sys2Proof.Machine

/-- Why the MODEL stops with a fault. The block's own faults (FCODE) are completions of commands, next states
(spec/60_exceptions.md R307), and never stop the machine. -/
inductive Fault
  /-- Raised by the step that consumes a source answer outside the contract of its request (more bytes than were asked
  for, or an answer of another kind; spec/20_memory.md R71 to R74): the spec gives the block no behaviour for it.
  Safe: the model stops. -/
  | sourceContract
  deriving DecidableEq, Repr

/-- Why the model refuses a step. -/
inductive Refusal
  /-- Raised by an arm of exec for an instruction without a meaning. Safe. No arm raises it. -/
  | notModelled (mnemonic : String)
  /-- Raised by a host access to a register number above 15 (spec/93_implementation_defined.md I12: refuse). Safe. -/
  | noSuchRegister (reg : Nat)
  /-- Raised by a host access to a byte at or above BUF_BYTES (spec/20_memory.md R62: a model refuses it). Safe. -/
  | outsideBuf (addr : Nat)
  deriving DecidableEq, Repr

/-- The completion codes (spec/60_exceptions.md R300). -/
inductive FCode
  | ok
  | configuration
  | range
  | endOfData
  /-- Reserved and never raised (R304). -/
  | sinkWrite
  | illegalCommand
  deriving DecidableEq, Repr

/-- How a source read may answer (spec/20_memory.md R71, R72). -/
inductive ReadMode
  | blocking
  | poll
  deriving DecidableEq, Repr

/-- A request on the source port (spec/00_scope.md R19, spec/20_memory.md R71 to R75). -/
inductive SrcRequest
  | read (n : Nat) (mode : ReadMode)
  | position
  | length
  | seek (q : Nat)
  | close
  deriving DecidableEq, Repr

/-- An answer of the source: the bytes read (none: end of source, or nothing ready), a position or length or NONE,
OK or FAIL (spec/20_memory.md R71 to R74). SrcClose has no answer (R75). -/
inductive SrcAnswer
  | bytes (bs : List Byte)
  | position (p : Option Nat)
  | length (l : Option Nat)
  | seek (ok : Bool)
  deriving DecidableEq, Repr

/-- The source port: no request outstanding; a request waiting for its answer; a request with the answer that the
running step consumes (spec/20_memory.md R71: at most one request outstanding). -/
inductive Port
  | idle
  | waiting (req : SrcRequest)
  | answered (req : SrcRequest) (ans : SrcAnswer)
  deriving DecidableEq, Repr

/-- One host access (spec/10_state.md R39, spec/20_memory.md R62). -/
inductive HostAccess
  | writeReg (reg : Nat) (v : Word)
  | readReg (reg : Nat)
  | writeByte (addr : Nat) (b : Byte)
  | readByte (addr : Nat)
  deriving DecidableEq, Repr

/-- A racing host access to a BUF byte whose outcome shows when the running command ends (spec/20_memory.md R81). -/
inductive RacedAccess
  /-- A read that gives the new value of the byte. -/
  | read (addr : Nat)
  /-- A write of `b`; where `yields`, the command's value of the byte prevails if the command has written it. -/
  | write (addr : Nat) (b : Byte) (yields : Bool)
  deriving DecidableEq, Repr

/-- What the host interface answers a host read with. -/
inductive HostReply
  | reg (reg : Nat) (v : Word)
  | byte (addr : Nat) (b : Byte)
  deriving DecidableEq, Repr

/-- BUF as (address, byte) pairs in canonical form: addresses strictly rising, no byte equal to what an unlisted
address reads as (Machine/Memory.lean). -/
abbrev Memory := List Host.Cell

/-- One turn of an agent (spec/10_state.md R20, spec/70_reset_and_hazards.md R340, R358). -/
inductive Input
  /-- The turn of the block and of its host interface. -/
  | run
  /-- The host makes an access. -/
  | host (a : HostAccess)
  /-- The source answers the `request`-th request sent to it. -/
  | answer (request : Nat) (a : SrcAnswer)
  /-- Reset, after which BUF holds `contents` (spec/70_reset_and_hazards.md R341: any values). -/
  | reset (contents : List Host.Cell)
  deriving DecidableEq, Repr

/-- The state of an open reader (spec/10_state.md R40, R41). `cache` is C[0..CLEN), so CLEN is its length. -/
structure Reader where
  own : Bool
  order : BitOrder
  cap : Nat
  cache : List Byte
  byteIdx : Nat
  bitIdx : Nat
  srcPos : Nat
  deriving DecidableEq, Repr

/-- The whole state. INVENTORY.md lists the rule of every field. -/
structure State where
  params : Params
  cmd : CmdWord
  busy : Bool
  cfgf : Bool
  fcode : FCode
  opa : Word
  opb : Word
  opc : Word
  res : Word
  foff : Word
  fcnt : Word
  favail : Word
  buf : Memory
  reader : Option Reader
  latchA : Word
  latchB : Word
  latchC : Word
  port : Port
  copied : Nat
  before : Memory
  held : List CmdWord
  raced : List RacedAccess
  inputs : List Input
  sent : List SrcRequest
  replies : List HostReply
  draws : Nat
  deriving DecidableEq, Repr

/-- The state when reset ends, with parameters `p` and BUF holding `contents` (spec/70_reset_and_hazards.md R341, R342),
and with no turn scheduled. -/
def State.resetWith (p : Params) (contents : Memory) : State where
  params := p
  cmd := 0
  busy := false
  cfgf := p.orderUnknown
  fcode := .ok
  opa := 0
  opb := 0
  opc := 0
  res := 0
  foff := 0
  fcnt := 0
  favail := 0
  buf := contents
  reader := none
  latchA := 0
  latchB := 0
  latchC := 0
  port := .idle
  copied := 0
  before := contents
  held := []
  raced := []
  inputs := []
  sent := []
  replies := []
  draws := 0

/-- The machine right after power-on reset. DESIGN CHOICE, notes/assumptions/1.md and 2.md: the instantiation of the test
vectors, and no byte of BUF listed. -/
def State.reset : State :=
  State.resetWith Params.vectors []

end Sys2Proof.Machine
end

