-- ==== Sys2Proof/Machine/Memory.lean ====
section
/-! DEFINITION. BUF: one canonical list of (address, byte) pairs (spec/20_memory.md R60, R61). -/

namespace Sys2Proof.Machine

/-- What an unlisted byte of BUF reads as. The spec leaves BUF's contents after reset open
(spec/70_reset_and_hazards.md R341). DESIGN CHOICE, notes/assumptions/2.md. Unsafe for `State.reset` alone; the reset input and
`State.resetWith` take any contents. -/
def Memory.unlisted : Byte := 0

/-- MemRead(a) (spec/20_memory.md R61). -/
def Memory.read : Memory → Nat → Byte
  | [], _ => Memory.unlisted
  | (x, b) :: m, a => if x = a then b else Memory.read m a

/-- `m` without an entry for `a`. -/
def Memory.erase : Memory → Nat → Memory
  | [], _ => []
  | (x, b) :: m, a => if x = a then Memory.erase m a else (x, b) :: Memory.erase m a

/-- `m` with an entry for `a` put at its place. -/
def Memory.insert : Memory → Nat → Byte → Memory
  | [], a, v => [(a, v)]
  | (x, b) :: m, a, v => if a < x then (a, v) :: (x, b) :: m else (x, b) :: Memory.insert m a v

/-- MemWrite(a, v) (spec/20_memory.md R61). Writing what an unlisted byte reads as removes the entry. -/
def Memory.write (m : Memory) (a : Nat) (v : Byte) : Memory :=
  if v = Memory.unlisted then m.erase a else (m.erase a).insert a v

/-- The addresses rise strictly, and all of them are at least `lo`. -/
def Memory.risesFrom : Nat → Memory → Bool
  | _, [] => true
  | lo, (x, b) :: m => decide (lo ≤ x) && decide (b ≠ Memory.unlisted) && Memory.risesFrom (x + 1) m

/-- The canonical form. -/
def Memory.wf (m : Memory) : Bool :=
  Memory.risesFrom 0 m

/-- Every listed address is below `size`. -/
def Memory.within (size : Nat) (m : Memory) : Bool :=
  m.all fun c => decide (c.1 < size)

/-- The canonical memory of `size` bytes that `cells` describe, the first entry for an address winning. -/
def Memory.ofCells (size : Nat) : List Host.Cell → Memory
  | [] => []
  | (a, v) :: cells => if a < size then (Memory.ofCells size cells).write a v else Memory.ofCells size cells

end Sys2Proof.Machine
end

