-- ==== Sys2Proof/Machine/Flags.lean ====
section
/-! DEFINITION. The status bits and the register codes. The block has no condition codes: STATUS.BUSY, STATUS.CFGF and
STATUS.FCODE are its only status bits (spec/10_state.md R48). -/

namespace Sys2Proof

/-- The BitOrder code, 0 for Unknown (spec/10_state.md R31). -/
def BitOrder.code : Option BitOrder → BitVec 2
  | none => 0
  | some .mostSignificant => 1
  | some .leastSignificant => 2

/-- The ByteOrder code, 0 for Unknown (spec/10_state.md R32). -/
def ByteOrder.code : Option ByteOrder → BitVec 3
  | none => 0
  | some .big => 1
  | some .little => 2
  | some .middleBig => 3
  | some .middleLittle => 4

/-- WORD_BYTES as a number (spec/00_scope.md R11). -/
def WordBytes.toNat : WordBytes → Nat
  | .four => 4
  | .eight => 8

namespace Machine

/-- The value of STATUS.FCODE (spec/60_exceptions.md R300). -/
def FCode.code : FCode → BitVec 4
  | .ok => 0
  | .configuration => 1
  | .range => 2
  | .endOfData => 3
  | .sinkWrite => 4
  | .illegalCommand => 5

/-- STATUS (spec/10_state.md R24): BUSY bit 0, CFGF bit 1, FCODE bits 7:4, every other bit 0. -/
def statusWord (s : State) : Word :=
  0#56 ++ s.fcode.code ++ 0#2 ++ BitVec.ofBool s.cfgf ++ BitVec.ofBool s.busy

/-- SYSORD (spec/10_state.md R30): BitOrder 1:0, ByteOrder 4:2, WORD_BYTES 15:8, ACCEPT_INDEX8 16. -/
def sysordWord (s : State) : Word :=
  0#47 ++ BitVec.ofBool s.params.acceptIndex8 ++ BitVec.ofNat 8 s.params.wordBytes.toNat ++ 0#3
    ++ ByteOrder.code s.params.sysByteOrder ++ BitOrder.code s.params.sysBitOrder

/-- RDCTL (spec/10_state.md R35): OPEN bit 0, OWN bit 1, RORDER bits 3:2. -/
def rdctlWord (s : State) : Word :=
  match s.reader with
  | none => 0
  | some r => 0#60 ++ BitOrder.code (some r.order) ++ BitVec.ofBool r.own ++ 1#1

/-- RDCUR (spec/10_state.md R36): BIT_IDX bits 2:0, BYTE_IDX bits 63:32. -/
def rdcurWord (s : State) : Word :=
  match s.reader with
  | none => 0
  | some r => BitVec.ofNat 32 r.byteIdx ++ 0#29 ++ BitVec.ofNat 3 r.bitIdx

/-- RDWIN (spec/10_state.md R37): CLEN bits 31:0, CAP bits 63:32. -/
def rdwinWord (s : State) : Word :=
  match s.reader with
  | none => 0
  | some r => BitVec.ofNat 32 r.cap ++ BitVec.ofNat 32 r.cache.length

/-- RDSRC (spec/10_state.md R38): SRC_POS. Where SRC_POS does not fit in 64 bits the spec states no value
(notes/assumptions/4.md): the free value `Config.rdsrcWide`. -/
def rdsrcWord (s : State) : Word :=
  match s.reader with
  | none => 0
  | some r => if r.srcPos < 2 ^ 64 then BitVec.ofNat 64 r.srcPos else Config.rdsrcWide r.srcPos

/-- The value a host read of a register returns (spec/10_state.md R22 to R38), `none` for a number above 15. -/
def State.readReg (s : State) : Nat → Option Word
  | 0 => some (s.cmd.setWidth 64)
  | 1 => some (statusWord s)
  | 2 => some s.opa
  | 3 => some s.opb
  | 4 => some s.opc
  | 5 => some s.res
  | 6 => some s.foff
  | 7 => some s.fcnt
  | 8 => some s.favail
  | 9 => some (sysordWord s)
  | 10 => some (BitVec.ofNat 64 s.params.bufBytes)
  | 11 => some (BitVec.ofNat 64 s.params.cacheMax)
  | 12 => some (rdctlWord s)
  | 13 => some (rdcurWord s)
  | 14 => some (rdwinWord s)
  | 15 => some (rdsrcWord s)
  | _ => none

end Machine

end Sys2Proof
end

