-- ==== Sys2Proof/Machine/BitMap.lean ====
section
/-! DEFINITION. Bit positions, bit orders and fields (spec/20_memory.md R64, R65). A byte array that is only read is a
function from its index. -/

namespace Sys2Proof

/-- The physical bit that in-byte index `i` names (spec/20_memory.md R64). -/
def BitOrder.phys : BitOrder → Nat → Nat
  | .mostSignificant, i => 7 - i
  | .leastSignificant, i => i

/-- The other order (spec/43_reader.md R231). -/
def BitOrder.opposite : BitOrder → BitOrder
  | .mostSignificant => .leastSignificant
  | .leastSignificant => .mostSignificant

namespace Machine

/-- bitget_O(M, p) (spec/20_memory.md R64). -/
def bitGet (o : BitOrder) (bytes : Nat → Byte) (p : Nat) : Bool :=
  (bytes (p / 8)).getLsbD (o.phys (p % 8))

/-- `b` with physical bit `i` set to `v`. -/
def byteWithBit (b : Byte) (i : Nat) (v : Bool) : Byte :=
  (b &&& ~~~(1#8 <<< i)) ||| ((BitVec.ofBool v).setWidth 8 <<< i)

/-- bitput_O(M, p, v) (spec/20_memory.md R64). -/
def Memory.bitPut (o : BitOrder) (m : Memory) (p : Nat) (v : Bool) : Memory :=
  m.write (p / 8) (byteWithBit (m.read (p / 8)) (o.phys (p % 8)) v)

/-- Puts bit `k` of a sequence at position p + k, for k = 0, 1, …, n - 1 in this order. -/
def Memory.putBits (o : BitOrder) (p : Nat) (bit : Nat → Bool) : Nat → Memory → Memory
  | 0, m => m
  | n + 1, m => (Memory.putBits o p bit n m).bitPut o (p + n) (bit n)

/-- readField_O(M, p, n) as a number (spec/20_memory.md R65): under MostSignificant the first bit read is the most
significant, under LeastSignificant the least. -/
def readField (o : BitOrder) (bytes : Nat → Byte) (p : Nat) : Nat → Nat
  | 0 => 0
  | n + 1 =>
    match o with
    | .mostSignificant => 2 * readField o bytes p n + (bitGet o bytes (p + n)).toNat
    | .leastSignificant => readField o bytes p n + (bitGet o bytes (p + n)).toNat * 2 ^ n

/-- Which bit of `v` writeField_O stores at position p + k (spec/20_memory.md R65). -/
def fieldBit (o : BitOrder) (n : Nat) (v : Word) (k : Nat) : Bool :=
  match o with
  | .mostSignificant => v.getLsbD (n - 1 - k)
  | .leastSignificant => v.getLsbD k

/-- writeField_O(M, p, n, v) (spec/20_memory.md R65). -/
def Memory.writeField (o : BitOrder) (m : Memory) (p n : Nat) (v : Word) : Memory :=
  Memory.putBits o p (fieldBit o n v) n m

/-- Copies the n bits of `src` from position s to position d (spec/41_bitfield.md R172, spec/43_reader.md R249). -/
def Memory.copyBits (o : BitOrder) (src : Nat → Byte) (s : Nat) (m : Memory) (d n : Nat) : Memory :=
  Memory.putBits o d (fun k => bitGet o src (s + k)) n m

end Machine

end Sys2Proof
end

