-- ==== Sys2Proof/Machine/Operands.lean ====
section
/-! DEFINITION. The operand forms of the commands (spec/30_encoding.md R93 to R98): the latched OPA, OPB, OPC read as
unsigned or signed numbers, byte slices of them, and the effective bit order. -/

namespace Sys2Proof.Machine

/-- u(OPA), the latched value (spec/00_scope.md R15, R16). -/
def State.uA (s : State) : Nat := s.latchA.toNat

/-- s(OPA), the latched value as a signed number; RD.SEEK alone reads it so (spec/30_encoding.md R98). -/
def State.sA (s : State) : Int := s.latchA.toInt

/-- u(OPB). -/
def State.uB (s : State) : Nat := s.latchB.toNat

/-- u(OPC). -/
def State.uC (s : State) : Nat := s.latchC.toNat

/-- v[8i+7 : 8i], byte `i` of a register value (spec/00_scope.md R14). -/
def byteOf (v : Word) (i : Nat) : Byte := v.extractLsb' (8 * i) 8

/-- The number of bits of BUF, 8*BUF_BYTES. -/
def State.bufBits (s : State) : Nat := 8 * s.params.bufBytes

/-- availbuf(p): the bits from position p to the end of BUF (spec/20_memory.md R67). -/
def State.availBuf (s : State) (p : Nat) : Nat :=
  if p < s.bufBits then s.bufBits - p else 0

/-- BUF as a byte array. -/
def State.bufByte (s : State) : Nat → Byte := s.buf.read

/-- The largest legal index of the single-bit commands (spec/41_bitfield.md R160, spec/00_scope.md R12). -/
def State.maxIndex (s : State) : Nat := if s.params.acceptIndex8 then 8 else 7

/-- The order a reader command with an R field uses (spec/43_reader.md R231). -/
def effectiveOrder (o : BitOrder) (rev : Bool) : BitOrder := if rev then o.opposite else o

end Sys2Proof.Machine
end

