-- ==== Sys2Proof/Machine/Ops.lean ====
section
/-! DEFINITION. The operations every meaning is made of: completing a command, raising a fault, waiting for the source. -/

namespace Sys2Proof.Machine

/-- The outcome of a step of this machine. -/
abbrev Result := Host.Outcome State Fault Refusal

/-- complete() (spec/00_scope.md R16, spec/60_exceptions.md R307): FCODE <- 0 and BUSY <- 0. No request is outstanding and
no copy is in progress after it. -/
def State.complete (s : State) : State :=
  { s with busy := false, fcode := .ok, port := .idle, copied := 0 }

/-- RES <- v ; complete() (spec/10_state.md R28). -/
def State.completeWith (s : State) (v : Word) : State :=
  { s.complete with res := v }

/-- TAKING A FAULT: raise F(foff, fcnt, favail) (spec/00_scope.md R18, spec/60_exceptions.md R307). It writes FCODE, FOFF,
FCNT and FAVAIL (mod 2^64) and clears BUSY; nothing else of the spec's state changes. There is no handler and no return
from a fault: the host goes on with its next command (R309, R310). -/
def State.raise (s : State) (f : FCode) (foff fcnt favail : Nat) : State :=
  { s with
    busy := false, fcode := f, port := .idle, copied := 0
    foff := BitVec.ofNat 64 foff, fcnt := BitVec.ofNat 64 fcnt, favail := BitVec.ofNat 64 favail }

/-- ConfigurationFault (spec/60_exceptions.md R301). -/
def State.raiseConfiguration (s : State) : State :=
  s.raise .configuration 0 s.cmd.toNat 0

/-- IllegalCommandFault (spec/60_exceptions.md R305). -/
def State.raiseIllegal (s : State) : State :=
  s.raise .illegalCommand 0 s.cmd.toNat 0

/-- While CFGF = 1 every command completes with ConfigurationFault and changes nothing else
(spec/60_exceptions.md R301). -/
@[inline] def State.unlessConfigFault (s : State) (body : State) : State :=
  if s.cfgf then s.raiseConfiguration else body

/-- Sends a request on the source port; the command waits, BUSY, for its answer
(spec/20_memory.md R71, spec/70_reset_and_hazards.md R351, R358). -/
def State.await (s : State) (req : SrcRequest) : State :=
  { s with port := .waiting req, sent := req :: s.sent }

/-- The state with BUF replaced. -/
def State.withBuf (s : State) (m : Memory) : State := { s with buf := m }

/-- The state with the open reader replaced. -/
def State.withReader (s : State) (r : Reader) : State := { s with reader := some r }

/-- The acceptance of a command word (spec/10_state.md R23, spec/70_reset_and_hazards.md R350 to R352): CMD holds the word,
OPA, OPB and OPC are latched, BUSY <- 1. The command has not started: no request is outstanding, and BUF as it stands is
what a racing access takes as old (spec/20_memory.md R81). -/
def State.accept (s : State) (w : CmdWord) : State :=
  { s with
    cmd := w, busy := true, port := .idle, before := s.buf
    latchA := s.opa, latchB := s.opb, latchC := s.opc }

/-- The start of a buffer command over n bits at position p: nothing to check for n = 0, else RangeFault unless
[p, p + n) lies inside BUF (spec/20_memory.md R67). -/
@[inline] def State.ifInBuf (s : State) (p n : Nat) (body : State) : State :=
  if s.bufBits < p + n then s.raise .range p n (s.availBuf p) else body

end Sys2Proof.Machine
end

