-- ==== Sys2Proof/Machine/BitField.lean ====
section
/-! DEFINITION. The single-bit, bit-field and bit-copy commands (spec/41_bitfield.md). -/

namespace Sys2Proof.Machine

/-- The address check and the access of a single-bit command whose index `i` is legal: `body` gets the order and the bit
position, `skip` is the completion for index 8, which names no bit (spec/41_bitfield.md R160, R166). With SYS_BIT_ORDER
Unknown there is no position map: that is the configuration fault (spec/10_state.md R46). -/
def State.atBit (s : State) (i : Nat) (skip : State) (body : BitOrder → Nat → State) : State :=
  if s.params.bufBytes ≤ s.uB then s.raise .range (8 * s.uB) 8 (s.availBuf (8 * s.uB))
  else if i = 8 then skip
  else
    match s.params.sysBitOrder with
    | none => s.raiseConfiguration
    | some o => body o (8 * s.uB + i)

/-- The index check of the single-bit commands, made before any other (spec/41_bitfield.md R160). -/
@[inline] def State.ifIndex (s : State) (i : Nat) (body : State) : State :=
  if s.maxIndex < i then s.raise .range (8 * s.uB) i s.maxIndex else body

/-- SETBIT, CLRBIT and TGLBIT: the bit becomes `f` of what it was (spec/41_bitfield.md R162 to R164). -/
def State.changeBit (s : State) (i : Nat) (f : Bool → Bool) : State :=
  s.ifIndex i <| s.atBit i s.complete fun o p =>
    (s.withBuf (s.buf.bitPut o p (f (bitGet o s.bufByte p)))).complete

/-- A truth value as RES holds it: 0 or 1 (spec/10_state.md R48). -/
def boolWord (b : Bool) : Word := (BitVec.ofBool b).setWidth 64

/-- GETBIT (spec/41_bitfield.md R161). -/
def execGetbit (cnt : BitVec 7) (s : State) : Result :=
  .next <| s.unlessConfigFault <| s.ifIndex cnt.toNat <|
    s.atBit cnt.toNat (s.completeWith 0) fun o p => s.completeWith (boolWord (bitGet o s.bufByte p))

/-- SETBIT (spec/41_bitfield.md R162). -/
def execSetbit (cnt : BitVec 7) (s : State) : Result :=
  .next (s.unlessConfigFault (s.changeBit cnt.toNat fun _ => true))

/-- CLRBIT (spec/41_bitfield.md R163). -/
def execClrbit (cnt : BitVec 7) (s : State) : Result :=
  .next (s.unlessConfigFault (s.changeBit cnt.toNat fun _ => false))

/-- TGLBIT (spec/41_bitfield.md R164). -/
def execTglbit (cnt : BitVec 7) (s : State) : Result :=
  .next (s.unlessConfigFault (s.changeBit cnt.toNat not))

/-- XCHBIT: the index, then the operand, then the address (spec/41_bitfield.md R165, spec/60_exceptions.md R312). -/
def execXchbit (cnt : BitVec 7) (s : State) : Result :=
  .next <| s.unlessConfigFault <| s.ifIndex cnt.toNat <|
    if 1 < s.uA then s.raise .range 0 s.uA 1
    else
      s.atBit cnt.toNat (s.completeWith 0) fun o p =>
        (s.withBuf (s.buf.bitPut o p (decide (s.uA = 1)))).completeWith (boolWord (bitGet o s.bufByte p))

/-- RDBITS under order `o` (spec/41_bitfield.md R167): n above 64 faults, n = 0 reads nothing and checks nothing. -/
def State.readBits (s : State) (o : BitOrder) (n : Nat) : State :=
  if 64 < n then s.raise .range s.uB n (s.availBuf s.uB)
  else if n = 0 then s.completeWith 0
  else s.ifInBuf s.uB n (s.completeWith (BitVec.ofNat 64 (readField o s.bufByte s.uB n)))

/-- WRBITS under order `o` (spec/41_bitfield.md R169). -/
def State.writeBits (s : State) (o : BitOrder) (n : Nat) : State :=
  if 64 < n then s.raise .range s.uB n (s.availBuf s.uB)
  else if n = 0 then s.complete
  else s.ifInBuf s.uB n (s.withBuf (s.buf.writeField o s.uB n s.latchA)).complete

/-- COPYB under order `o` (spec/41_bitfield.md R172): every bit is read from BUF as it was before the command. -/
def State.copyBlock (s : State) (o : BitOrder) : State :=
  if s.uA = 0 then s.complete
  else
    s.ifInBuf s.uB s.uA <| s.ifInBuf s.uC s.uA
      (s.withBuf (s.buf.copyBits o s.bufByte s.uB s.uC s.uA)).complete

/-- RDBITS.M (spec/41_bitfield.md R167). -/
def execRdbitsM (cnt : BitVec 7) (s : State) : Result :=
  .next (s.unlessConfigFault (s.readBits .mostSignificant cnt.toNat))

/-- RDBITS.L (spec/41_bitfield.md R168). -/
def execRdbitsL (cnt : BitVec 7) (s : State) : Result :=
  .next (s.unlessConfigFault (s.readBits .leastSignificant cnt.toNat))

/-- WRBITS.M (spec/41_bitfield.md R169). -/
def execWrbitsM (cnt : BitVec 7) (s : State) : Result :=
  .next (s.unlessConfigFault (s.writeBits .mostSignificant cnt.toNat))

/-- WRBITS.L (spec/41_bitfield.md R170). -/
def execWrbitsL (cnt : BitVec 7) (s : State) : Result :=
  .next (s.unlessConfigFault (s.writeBits .leastSignificant cnt.toNat))

/-- COPYB.M (spec/41_bitfield.md R172). -/
def execCopybM (s : State) : Result :=
  .next (s.unlessConfigFault (s.copyBlock .mostSignificant))

/-- COPYB.L (spec/41_bitfield.md R173). -/
def execCopybL (s : State) : Result :=
  .next (s.unlessConfigFault (s.copyBlock .leastSignificant))

end Sys2Proof.Machine
end

