-- ==== Sys2Proof/Machine/Integer.lean ====
section
/-! DEFINITION. The integer, unit-conversion and no-operation commands (spec/42_integer.md). SYS_BYTE_ORDER enters none of
them (R200). -/

namespace Sys2Proof.Machine

/-- The address of the i-th byte combined of an integer of `size` bytes at `a`: from the first byte up with R = 0, from the
last down with R = 1 (spec/42_integer.md R201, R202). -/
def intAddr (rev : Bool) (a size i : Nat) : Nat :=
  if rev then a + size - 1 - i else a + i

/-- The loop of RDINT: v <- v | (byte << 8*i) for i = 0, …, k - 1 (spec/42_integer.md R201). -/
def assemble (byte : Nat → Byte) : Nat → Nat
  | 0 => 0
  | k + 1 => assemble byte k ||| (byte k).toNat <<< (8 * k)

/-- The loop of WRINT: byte i of `v` goes to `addr i`, for i = 0, …, k - 1 (spec/42_integer.md R202). -/
def Memory.storeBytes (addr : Nat → Nat) (v : Word) : Nat → Memory → Memory
  | 0, m => m
  | k + 1, m => (Memory.storeBytes addr v k m).write (addr k) (byteOf v k)

/-- The result of RDINT: sext_{8*size} or zext_{8*size} (spec/42_integer.md R201, spec/00_scope.md R15). -/
def extendInt (sgn : Bool) (size v : Nat) : Word :=
  if sgn then (BitVec.ofNat (8 * size) v).signExtend 64 else BitVec.ofNat 64 v

/-- The size and bounds checks of RDINT and WRINT; size 0 is `empty` at any offset (spec/42_integer.md R201, R202). -/
@[inline] def State.intCommand (s : State) (size : Nat) (empty body : State) : State :=
  if 8 < size then s.raise .range (8 * s.uB) (8 * size) (s.availBuf (8 * s.uB))
  else if size = 0 then empty
  else s.ifInBuf (8 * s.uB) (8 * size) body

/-- RDINT (spec/42_integer.md R201). -/
def execRdint (cnt : BitVec 7) (rev sgn : Bool) (s : State) : Result :=
  .next <| s.unlessConfigFault <| s.intCommand cnt.toNat (s.completeWith 0) <|
    s.completeWith
      (extendInt sgn cnt.toNat (assemble (fun i => s.bufByte (intAddr rev s.uB cnt.toNat i)) cnt.toNat))

/-- WRINT (spec/42_integer.md R202). -/
def execWrint (cnt : BitVec 7) (rev : Bool) (s : State) : Result :=
  .next <| s.unlessConfigFault <| s.intCommand cnt.toNat s.complete <|
    (s.withBuf (s.buf.storeBytes (intAddr rev s.uB cnt.toNat) s.latchA cnt.toNat)).complete

/-- ceil(x / k) (spec/00_scope.md R14). -/
def ceilDiv (x k : Nat) : Nat := (x + k - 1) / k

/-- A checked product of OPA (spec/42_integer.md R204, R206): RangeFault where it does not fit in 64 bits. -/
def State.scaleCommand (s : State) (k : Nat) : State :=
  if 2 ^ 64 - 1 < s.uA * k then s.raise .range 0 s.uA ((2 ^ 64 - 1) / k)
  else s.completeWith (BitVec.ofNat 64 (s.uA * k))

/-- B2BY (spec/42_integer.md R203). -/
def execB2by (s : State) : Result :=
  .next (s.unlessConfigFault (s.completeWith (BitVec.ofNat 64 (ceilDiv s.uA 8))))

/-- BY2B (spec/42_integer.md R204). -/
def execBy2b (s : State) : Result :=
  .next (s.unlessConfigFault (s.scaleCommand 8))

/-- BY2W (spec/42_integer.md R205). -/
def execBy2w (s : State) : Result :=
  .next (s.unlessConfigFault (s.completeWith (BitVec.ofNat 64 (ceilDiv s.uA s.params.wordBytes.toNat))))

/-- W2BY (spec/42_integer.md R206). -/
def execW2by (s : State) : Result :=
  .next (s.unlessConfigFault (s.scaleCommand s.params.wordBytes.toNat))

/-- NOP (spec/42_integer.md R207). -/
def execNop (s : State) : Result :=
  .next (s.unlessConfigFault s.complete)

end Sys2Proof.Machine
end

