-- ==== Sys2Proof/Machine/Window.lean ====
section
/-! DEFINITION. The reader's window over its source: derived quantities and the shared procedures
(spec/10_state.md R43, R44, spec/43_reader.md R232 to R238). -/

namespace Sys2Proof.Machine

/-- CLEN (spec/10_state.md R40). -/
def Reader.clen (r : Reader) : Nat := r.cache.length

/-- C[j]; no rule reads j at or above CLEN (spec/10_state.md R40). -/
def Reader.byteAt (r : Reader) (j : Nat) : Byte := r.cache.getD j 0

/-- W0, the source position of C[0] (spec/10_state.md R43). -/
def Reader.w0 (r : Reader) : Nat := r.srcPos - r.clen

/-- ABS, the stream bit position of the cursor (spec/10_state.md R43). -/
def Reader.abs (r : Reader) : Nat := 8 * (r.w0 + r.byteIdx) + r.bitIdx

/-- AVAIL, the unread bits in the cache (spec/10_state.md R43). -/
def Reader.avail (r : Reader) : Nat :=
  if r.byteIdx < r.clen then 8 * (r.clen - r.byteIdx) - r.bitIdx else 0

/-- The phases of the reader (spec/10_state.md R44). -/
inductive Phase
  | empty
  | filled
  | partiallyConsumed
  deriving DecidableEq, Repr

/-- The phase, derived from the state (spec/10_state.md R44). -/
def Reader.phase (r : Reader) : Phase :=
  if r.avail = 0 then .empty
  else if r.byteIdx = 0 ∧ r.bitIdx = 0 then .filled
  else .partiallyConsumed

/-- The cursor as a bit position of the cache. -/
def Reader.cursor (r : Reader) : Nat := 8 * r.byteIdx + r.bitIdx

/-- The bytes from C[BYTE_IDX] on that hold the next `n` bits, ceil((BIT_IDX + n) / 8) (spec/43_reader.md R232). -/
def Reader.need (r : Reader) (n : Nat) : Nat := (r.bitIdx + n + 7) / 8

/-- Growth to exactly the need (spec/43_reader.md R233). -/
def Reader.grow (r : Reader) (n : Nat) : Reader :=
  if r.cap < r.need n then { r with cap := r.need n } else r

/-- recycle() (spec/43_reader.md R234). -/
def Reader.recycle (r : Reader) : Reader :=
  { r with cache := r.cache.drop r.byteIdx, byteIdx := 0 }

/-- The bytes of an answer appended to the cache (spec/43_reader.md R232, R242). -/
def Reader.absorb (r : Reader) (bs : List Byte) : Reader :=
  { r with cache := r.cache ++ bs, srcPos := r.srcPos + bs.length }

/-- The next `n` bits are in the cache (spec/43_reader.md R232). -/
def Reader.holds (r : Reader) (n : Nat) : Bool := decide (r.need n ≤ r.clen - r.byteIdx)

/-- What ensure reaches without the source: the bits are cached, or the next request asks for `count` bytes. -/
inductive Ensured
  | ready (r : Reader)
  | request (r : Reader) (count : Nat)
  deriving DecidableEq, Repr

/-- The loop test of ensure: each request is for the whole free space (spec/43_reader.md R232, R235). -/
def Reader.topUp (r : Reader) (n : Nat) : Ensured :=
  if r.holds n then .ready r else .request r (r.cap - r.clen)

/-- ensure(n) up to its first request (spec/43_reader.md R232): growth, then nothing where the bits are cached, else
recycling where the free space does not reach, then the top-up. -/
def Reader.ensure (r : Reader) (n : Nat) : Ensured :=
  let g := r.grow n
  if g.holds n then .ready g
  else if g.cap < g.byteIdx + g.need n then g.recycle.topUp n
  else g.topUp n

/-- field(n, E) (spec/43_reader.md R237). -/
def Reader.field (r : Reader) (o : BitOrder) (n : Nat) : Nat := readField o r.byteAt r.cursor n

/-- advance(n) (spec/43_reader.md R238). -/
def Reader.advance (r : Reader) (n : Nat) : Reader :=
  { r with byteIdx := r.byteIdx + (r.bitIdx + n) / 8, bitIdx := (r.bitIdx + n) % 8 }

/-- A seek to stream bit `t` inside the window (spec/43_reader.md R247). -/
def Reader.moveTo (r : Reader) (t : Nat) : Reader :=
  { r with byteIdx := t / 8 - r.w0, bitIdx := t % 8 }

/-- A seek to stream bit `t` that the source has accepted: the cache is dropped (spec/43_reader.md R247). -/
def Reader.jumpTo (r : Reader) (t : Nat) : Reader :=
  { r with cache := [], byteIdx := 0, bitIdx := t % 8, srcPos := t / 8 }

/-- The stream bit `t` lies in the window, its end included (spec/43_reader.md R247). -/
def Reader.inWindow (r : Reader) (t : Nat) : Bool := decide (8 * r.w0 ≤ t ∧ t ≤ 8 * r.srcPos)

end Sys2Proof.Machine
end

