-- ==== Sys2Proof/Machine/Reader.lean ====
section
/-! DEFINITION. The commands of the cached bit-reader (spec/43_reader.md). A command that needs the source sends its request
and waits (spec/70_reset_and_hazards.md R358): its meaning is run again, with the answer on the port, by the step that consumes the
answer. A meaning run while the request has no answer changes nothing. -/

namespace Sys2Proof.Machine

/-- Every reader command but RD.OPEN and RD.CLOSE is illegal while no reader is open (spec/43_reader.md R239). -/
def State.ifOpen (s : State) (body : Reader → State) : State :=
  match s.reader with
  | none => s.raiseIllegal
  | some r => body r

/-- Goes on with `k` where the bits are cached, else sends the BLOCKING request (spec/43_reader.md R232, R235). -/
def State.orAsk (s : State) (e : Ensured) (k : Reader → State) : State :=
  match e with
  | .ready r => k r
  | .request r n => (s.withReader r).await (.read n .blocking)

/-- ensure(n, fcnt) and then `k` (spec/43_reader.md R232): from the start, or from the answer of its last request. End of
source raises EndOfDataFault in `s`; what was grown, recycled and pulled before stays (spec/60_exceptions.md R311). -/
def State.afterEnsure (s : State) (r : Reader) (n fcnt : Nat) (k : Reader → State) : State :=
  match s.port with
  | .idle => s.orAsk (r.ensure n) k
  | .answered (.read _ .blocking) (.bytes bs) =>
    if bs.isEmpty then s.raise .endOfData r.abs fcnt r.avail
    else s.orAsk ((r.absorb bs).topUp n) k
  | _ => s

/-- RD.OPEN (spec/43_reader.md R240). ORD = 3 has no command (spec/30_encoding.md R96); ORD = 0 is SYS_BIT_ORDER, which is
known where CFGF = 0 (spec/10_state.md R46). -/
def openOrder (p : Params) (ord : BitVec 2) : Option BitOrder :=
  if ord = 0 then p.sysBitOrder
  else if ord = 1 then some .mostSignificant
  else some .leastSignificant

/-- The reader that RD.OPEN creates: SRC_POS is the source's position, 0 for NONE (spec/43_reader.md R240). -/
def Reader.fresh (own : Bool) (o : BitOrder) (cap : Nat) (q : Option Nat) : Reader where
  own := own
  order := o
  cap := cap
  cache := []
  byteIdx := 0
  bitIdx := 0
  srcPos := q.getD 0

/-- RD.OPEN (spec/43_reader.md R240; the checks in the order of spec/60_exceptions.md R312). It sends SrcPosition on the one
source port, after an RD.CLOSE that sent SrcClose too: the model's choice, since spec/20_memory.md R75 has no further request go
to a closed source (notes/assumptions/22.md). -/
def execRdOpen (ord : BitVec 2) (own : Bool) (s : State) : Result :=
  .next <| s.unlessConfigFault <|
    if ord = 3 ∨ s.reader.isSome then s.raiseIllegal
    else if s.params.cacheMax < s.uA then s.raise .range 0 s.uA s.params.cacheMax
    else
      match openOrder s.params ord with
      | none => s.raiseConfiguration
      | some o =>
        match s.port with
        | .idle => s.await .position
        | .answered .position (.position q) => (s.withReader (Reader.fresh own o s.uA q)).complete
        | _ => s

/-- RD.CLOSE (spec/43_reader.md R241): SrcClose has no answer to wait for (spec/20_memory.md R75). -/
def execRdClose (s : State) : Result :=
  .next <| s.unlessConfigFault <|
    match s.reader with
    | none => s.complete
    | some r => { s.complete with reader := none, sent := if r.own then .close :: s.sent else s.sent }

/-- RD.FILL (spec/43_reader.md R242): one POLL request for the free space after recycling, none where the cache is full. -/
def execRdFill (s : State) : Result :=
  .next <| s.unlessConfigFault <| s.ifOpen fun r =>
    match s.port with
    | .idle =>
      let c := if 0 < r.byteIdx then r.recycle else r
      if 0 < c.cap - c.clen then (s.withReader c).await (.read (c.cap - c.clen) .poll)
      else (s.withReader c).completeWith (BitVec.ofNat 64 c.avail)
    | .answered (.read _ .poll) (.bytes bs) =>
      (s.withReader (r.absorb bs)).completeWith (BitVec.ofNat 64 (r.absorb bs).avail)
    | _ => s

/-- RD.AVAIL (spec/43_reader.md R243). -/
def execRdAvail (s : State) : Result :=
  .next <| s.unlessConfigFault <| s.ifOpen fun r => s.completeWith (BitVec.ofNat 64 r.avail)

/-- The result of RD.REMAIN: all ones for a source without a length, else the bits from the cursor to the end, at least 0
and at most 2^64 - 1 (spec/43_reader.md R244). -/
def remaining (r : Reader) (l : Option Nat) : Word :=
  match l with
  | none => BitVec.ofNat 64 (2 ^ 64 - 1)
  | some l => BitVec.ofNat 64 (min (2 ^ 64 - 1) (8 * l - r.abs))

/-- RD.REMAIN (spec/43_reader.md R244). -/
def execRdRemain (s : State) : Result :=
  .next <| s.unlessConfigFault <| s.ifOpen fun r =>
    match s.port with
    | .idle => s.await .length
    | .answered .length (.length l) => s.completeWith (remaining r l)
    | _ => s

/-- RD.PEEK and RD.READ up to the result: RangeFault above 64, 0 without any access for n = 0, else ensure, the field under
the effective order, and `move` of the reader (spec/43_reader.md R245, R246). -/
def State.readerField (s : State) (n : Nat) (rev : Bool) (move : Reader → Reader) : State :=
  s.ifOpen fun r =>
    if 64 < n then s.raise .range r.abs n r.avail
    else if n = 0 then s.completeWith 0
    else
      s.afterEnsure r n n fun c =>
        (s.withReader (move c)).completeWith (BitVec.ofNat 64 (c.field (effectiveOrder c.order rev) n))

/-- RD.PEEK (spec/43_reader.md R245). -/
def execRdPeek (cnt : BitVec 7) (rev : Bool) (s : State) : Result :=
  .next (s.unlessConfigFault (s.readerField cnt.toNat rev id))

/-- RD.READ (spec/43_reader.md R246). -/
def execRdRead (cnt : BitVec 7) (rev : Bool) (s : State) : Result :=
  .next (s.unlessConfigFault (s.readerField cnt.toNat rev fun c => c.advance cnt.toNat))

/-- The target of RD.SEEK, ABS + s(OPA) (spec/43_reader.md R247). -/
def State.seekTarget (s : State) (r : Reader) : Int := (r.abs : Int) + s.sA

/-- RD.SEEK (spec/43_reader.md R247). -/
def execRdSeek (s : State) : Result :=
  .next <| s.unlessConfigFault <| s.ifOpen fun r =>
    let t := s.seekTarget r
    if t < 0 ∨ 2 ^ 64 - 1 < t / 8 then s.raise .range r.abs s.uA r.avail
    else if r.inWindow t.toNat then (s.withReader (r.moveTo t.toNat)).complete
    else
      match s.port with
      | .idle => s.await (.seek (t.toNat / 8))
      | .answered (.seek _) (.seek ok) =>
        if ok then (s.withReader (r.jumpTo t.toNat)).complete else s.raise .range r.abs s.uA r.avail
      | _ => s

/-- RD.ALIGN (spec/43_reader.md R248). -/
def execRdAlign (s : State) : Result :=
  .next <| s.unlessConfigFault <| s.ifOpen fun r =>
    if r.bitIdx = 0 then s.complete
    else
      s.afterEnsure r (8 - r.bitIdx) (8 - r.bitIdx) fun c =>
        (s.withReader (c.advance (8 - r.bitIdx))).complete

/-- The size of the next chunk of a copy of n bits (spec/43_reader.md R249). -/
def State.chunk (s : State) (n : Nat) : Nat := min 64 (n - s.copied)

/-- One chunk of RD.COPYOUT, its bits cached in `r`: m bits from the cursor to BUF position d + done, and the cursor and
`done` moved past them (spec/43_reader.md R249). -/
def State.copyChunk (s : State) (r : Reader) (d m : Nat) : State :=
  { s with
    buf := s.buf.copyBits r.order r.byteAt r.cursor (d + s.copied) m
    reader := some (r.advance m)
    copied := s.copied + m }

/-- The loop of RD.COPYOUT over its remaining chunks, the first argument their number (spec/43_reader.md R249). -/
def State.copyChunks (n d : Nat) : Nat → Reader → State → State
  | 0, _, s => s.completeWith (BitVec.ofNat 64 n)
  | chunks + 1, r, s =>
    s.orAsk (r.ensure (s.chunk n)) fun c =>
      State.copyChunks n d chunks (c.advance (s.chunk n)) (s.copyChunk c d (s.chunk n))

/-- RD.COPYOUT (spec/43_reader.md R249): on end of source RES <- done before the fault is raised. -/
def execRdCopyout (s : State) : Result :=
  .next <| s.unlessConfigFault <| s.ifOpen fun r =>
    if s.uA = 0 then s.completeWith 0
    else
      s.ifInBuf s.uB s.uA <|
        match s.port with
        | .idle => State.copyChunks s.uA s.uB ((s.uA + 63) / 64) r { s with copied := 0 }
        | .answered (.read _ .blocking) (.bytes bs) =>
          if bs.isEmpty then
            State.raise { s with res := BitVec.ofNat 64 s.copied } .endOfData r.abs (s.uA - s.copied) r.avail
          else
            s.orAsk ((r.absorb bs).topUp (s.chunk s.uA)) fun c =>
              State.copyChunks s.uA s.uB ((s.uA - s.copied - s.chunk s.uA + 63) / 64) (c.advance (s.chunk s.uA))
                (s.copyChunk c s.uB (s.chunk s.uA))
        | _ => s

end Sys2Proof.Machine
end

