-- ==== Sys2Proof/Syntax.lean ====
section
/-! DEFINITION. The commands of the block, one constructor per row of spec/opcode_table.json. -/

namespace Sys2Proof

/-- A command with its fields (spec/30_encoding.md R91, R99). `cnt` is CNT, `rev` is R, `sgn` is S, `ord` is ORD,
`own` is OWN. -/
inductive Instr
  | nop
  | brevB
  | popcB
  | brevS
  | brevI
  | brevL
  | bswpS
  | bswpI
  | bswpL
  | getbit (cnt : BitVec 7)
  | setbit (cnt : BitVec 7)
  | clrbit (cnt : BitVec 7)
  | tglbit (cnt : BitVec 7)
  | xchbit (cnt : BitVec 7)
  | rdbitsM (cnt : BitVec 7)
  | rdbitsL (cnt : BitVec 7)
  | wrbitsM (cnt : BitVec 7)
  | wrbitsL (cnt : BitVec 7)
  | copybM
  | copybL
  | rdint (cnt : BitVec 7) (rev sgn : Bool)
  | wrint (cnt : BitVec 7) (rev : Bool)
  | b2by
  | by2b
  | by2w
  | w2by
  | rdOpen (ord : BitVec 2) (own : Bool)
  | rdClose
  | rdFill
  | rdAvail
  | rdRemain
  | rdPeek (cnt : BitVec 7) (rev : Bool)
  | rdRead (cnt : BitVec 7) (rev : Bool)
  | rdSeek
  | rdAlign
  | rdCopyout
  deriving DecidableEq, Repr

end Sys2Proof
end

