-- ==== Sys2Proof/Machine/Dispatch.lean ====
section
/-! DEFINITION. One arm per command: its meaning. -/

namespace Sys2Proof.Machine

def exec (i : Instr) (s : State) : Host.Outcome State Fault Refusal :=
  match i with
  | .nop => Sys2Proof.Machine.execNop s
  | .brevB => Sys2Proof.Machine.execBrevB s
  | .popcB => Sys2Proof.Machine.execPopcB s
  | .brevS => Sys2Proof.Machine.execBrevS s
  | .brevI => Sys2Proof.Machine.execBrevI s
  | .brevL => Sys2Proof.Machine.execBrevL s
  | .bswpS => Sys2Proof.Machine.execBswpS s
  | .bswpI => Sys2Proof.Machine.execBswpI s
  | .bswpL => Sys2Proof.Machine.execBswpL s
  | .getbit cnt => Sys2Proof.Machine.execGetbit cnt s
  | .setbit cnt => Sys2Proof.Machine.execSetbit cnt s
  | .clrbit cnt => Sys2Proof.Machine.execClrbit cnt s
  | .tglbit cnt => Sys2Proof.Machine.execTglbit cnt s
  | .xchbit cnt => Sys2Proof.Machine.execXchbit cnt s
  | .rdbitsM cnt => Sys2Proof.Machine.execRdbitsM cnt s
  | .rdbitsL cnt => Sys2Proof.Machine.execRdbitsL cnt s
  | .wrbitsM cnt => Sys2Proof.Machine.execWrbitsM cnt s
  | .wrbitsL cnt => Sys2Proof.Machine.execWrbitsL cnt s
  | .copybM => Sys2Proof.Machine.execCopybM s
  | .copybL => Sys2Proof.Machine.execCopybL s
  | .rdint cnt rev sgn => Sys2Proof.Machine.execRdint cnt rev sgn s
  | .wrint cnt rev => Sys2Proof.Machine.execWrint cnt rev s
  | .b2by => Sys2Proof.Machine.execB2by s
  | .by2b => Sys2Proof.Machine.execBy2b s
  | .by2w => Sys2Proof.Machine.execBy2w s
  | .w2by => Sys2Proof.Machine.execW2by s
  | .rdOpen ord own => Sys2Proof.Machine.execRdOpen ord own s
  | .rdClose => Sys2Proof.Machine.execRdClose s
  | .rdFill => Sys2Proof.Machine.execRdFill s
  | .rdAvail => Sys2Proof.Machine.execRdAvail s
  | .rdRemain => Sys2Proof.Machine.execRdRemain s
  | .rdPeek cnt rev => Sys2Proof.Machine.execRdPeek cnt rev s
  | .rdRead cnt rev => Sys2Proof.Machine.execRdRead cnt rev s
  | .rdSeek => Sys2Proof.Machine.execRdSeek s
  | .rdAlign => Sys2Proof.Machine.execRdAlign s
  | .rdCopyout => Sys2Proof.Machine.execRdCopyout s

end Sys2Proof.Machine
end

