-- ==== Sys2Proof/WellFormed.lean ====
section
/-! DEFINITION. Which commands have an encoding. -/

namespace Sys2Proof

/-- The one reserved field value of the format: ORD = 3 (spec/30_encoding.md R96, R100). Every CNT value is encodable;
one outside the legal range of its opcode raises RangeFault when it runs (R93), so it is well formed. -/
def Instr.wellFormed : Instr → Bool
  | .rdOpen ord _ => ord != 3
  | .nop | .brevB | .popcB | .brevS | .brevI | .brevL | .bswpS | .bswpI | .bswpL => true
  | .getbit _ | .setbit _ | .clrbit _ | .tglbit _ | .xchbit _ => true
  | .rdbitsM _ | .rdbitsL _ | .wrbitsM _ | .wrbitsL _ | .copybM | .copybL => true
  | .rdint _ _ _ | .wrint _ _ | .b2by | .by2b | .by2w | .w2by => true
  | .rdClose | .rdFill | .rdAvail | .rdRemain | .rdPeek _ _ | .rdRead _ _ => true
  | .rdSeek | .rdAlign | .rdCopyout => true

end Sys2Proof
end

