-- ==== Sys2Proof/Decode.lean ====
section
/-! DEFINITION. The command decoder, total on 32-bit words, and the encoder (spec/30_encoding.md R90 to R103). -/

namespace Sys2Proof

/-- Why a word is no command; each is an IllegalCommandFault of the block (spec/30_encoding.md R92, R96, R100),
in the order of spec/60_exceptions.md R312. -/
inductive DecodeError
  | undefinedOp
  | unusedField
  | reservedOrd
  deriving DecidableEq, Repr

/-- The fields of a command word (spec/30_encoding.md R91). -/
structure Fields where
  op : BitVec 8
  cnt : BitVec 7
  rev : Bool
  sgn : Bool
  ord : BitVec 2
  own : Bool
  reserved : BitVec 12
  deriving DecidableEq, Repr

/-- The fields of `w`, at the bits R91 gives them. -/
def Fields.ofWord (w : CmdWord) : Fields where
  op := w.extractLsb' 0 8
  cnt := w.extractLsb' 8 7
  rev := w.getLsbD 15
  sgn := w.getLsbD 16
  ord := w.extractLsb' 17 2
  own := w.getLsbD 19
  reserved := w.extractLsb' 20 12

/-- The word whose fields are `f` (spec/30_encoding.md R91, R103). -/
def Fields.toWord (f : Fields) : CmdWord :=
  f.reserved ++ BitVec.ofBool f.own ++ f.ord ++ BitVec.ofBool f.sgn ++ BitVec.ofBool f.rev ++ f.cnt ++ f.op

/-- No bit is set outside OP (format Z). -/
def Fields.onlyOp (f : Fields) : Bool :=
  f.cnt == 0 && !f.rev && !f.sgn && f.ord == 0 && !f.own && f.reserved == 0

/-- No bit is set outside OP and CNT (format C). -/
def Fields.onlyCnt (f : Fields) : Bool :=
  !f.rev && !f.sgn && f.ord == 0 && !f.own && f.reserved == 0

/-- No bit is set outside OP, CNT and R (format CR). -/
def Fields.onlyCntRev (f : Fields) : Bool :=
  !f.sgn && f.ord == 0 && !f.own && f.reserved == 0

/-- No bit is set outside OP, CNT, R and S (format CRS). -/
def Fields.onlyCntRevSgn (f : Fields) : Bool :=
  f.ord == 0 && !f.own && f.reserved == 0

/-- No bit is set outside OP, ORD and OWN (format OW). -/
def Fields.onlyOrdOwn (f : Fields) : Bool :=
  f.cnt == 0 && !f.rev && !f.sgn && f.reserved == 0

/-- `i`, or the rejection of a word with a non-zero bit in a field its opcode does not use (R92). -/
def Instr.ifClean (clean : Bool) (i : Instr) : Except DecodeError Instr :=
  if clean then .ok i else .error .unusedField

/-- RD.OPEN: an unused field first, then ORD = 3 (spec/60_exceptions.md R312). -/
def Fields.decodeOpen (f : Fields) : Except DecodeError Instr :=
  if f.onlyOrdOwn then
    if f.ord = 3 then .error .reservedOrd else .ok (.rdOpen f.ord f.own)
  else .error .unusedField

/-- The opcode map (spec/30_encoding.md R99); every other OP is reserved (R100). -/
def Fields.decode (f : Fields) : Except DecodeError Instr :=
  match f.op.toNat with
  | 0x00 => Instr.nop.ifClean f.onlyOp
  | 0x01 => Instr.brevB.ifClean f.onlyOp
  | 0x02 => Instr.popcB.ifClean f.onlyOp
  | 0x03 => Instr.brevS.ifClean f.onlyOp
  | 0x04 => Instr.brevI.ifClean f.onlyOp
  | 0x05 => Instr.brevL.ifClean f.onlyOp
  | 0x06 => Instr.bswpS.ifClean f.onlyOp
  | 0x07 => Instr.bswpI.ifClean f.onlyOp
  | 0x08 => Instr.bswpL.ifClean f.onlyOp
  | 0x10 => (Instr.getbit f.cnt).ifClean f.onlyCnt
  | 0x11 => (Instr.setbit f.cnt).ifClean f.onlyCnt
  | 0x12 => (Instr.clrbit f.cnt).ifClean f.onlyCnt
  | 0x13 => (Instr.tglbit f.cnt).ifClean f.onlyCnt
  | 0x14 => (Instr.xchbit f.cnt).ifClean f.onlyCnt
  | 0x20 => (Instr.rdbitsM f.cnt).ifClean f.onlyCnt
  | 0x21 => (Instr.rdbitsL f.cnt).ifClean f.onlyCnt
  | 0x22 => (Instr.wrbitsM f.cnt).ifClean f.onlyCnt
  | 0x23 => (Instr.wrbitsL f.cnt).ifClean f.onlyCnt
  | 0x24 => Instr.copybM.ifClean f.onlyOp
  | 0x25 => Instr.copybL.ifClean f.onlyOp
  | 0x30 => (Instr.rdint f.cnt f.rev f.sgn).ifClean f.onlyCntRevSgn
  | 0x31 => (Instr.wrint f.cnt f.rev).ifClean f.onlyCntRev
  | 0x38 => Instr.b2by.ifClean f.onlyOp
  | 0x39 => Instr.by2b.ifClean f.onlyOp
  | 0x3A => Instr.by2w.ifClean f.onlyOp
  | 0x3B => Instr.w2by.ifClean f.onlyOp
  | 0x80 => f.decodeOpen
  | 0x81 => Instr.rdClose.ifClean f.onlyOp
  | 0x82 => Instr.rdFill.ifClean f.onlyOp
  | 0x83 => Instr.rdAvail.ifClean f.onlyOp
  | 0x84 => Instr.rdRemain.ifClean f.onlyOp
  | 0x85 => (Instr.rdPeek f.cnt f.rev).ifClean f.onlyCntRev
  | 0x86 => (Instr.rdRead f.cnt f.rev).ifClean f.onlyCntRev
  | 0x87 => Instr.rdSeek.ifClean f.onlyOp
  | 0x88 => Instr.rdAlign.ifClean f.onlyOp
  | 0x89 => Instr.rdCopyout.ifClean f.onlyOp
  | _ => .error .undefinedOp

/-- The decoder: every 32-bit value is one command or is rejected by name (spec/30_encoding.md R90, R92). -/
def decode (w : CmdWord) : Except DecodeError Instr :=
  (Fields.ofWord w).decode

/-- The OP number of a command (spec/30_encoding.md R99). -/
def Instr.opcode : Instr → BitVec 8
  | .nop => 0x00
  | .brevB => 0x01
  | .popcB => 0x02
  | .brevS => 0x03
  | .brevI => 0x04
  | .brevL => 0x05
  | .bswpS => 0x06
  | .bswpI => 0x07
  | .bswpL => 0x08
  | .getbit _ => 0x10
  | .setbit _ => 0x11
  | .clrbit _ => 0x12
  | .tglbit _ => 0x13
  | .xchbit _ => 0x14
  | .rdbitsM _ => 0x20
  | .rdbitsL _ => 0x21
  | .wrbitsM _ => 0x22
  | .wrbitsL _ => 0x23
  | .copybM => 0x24
  | .copybL => 0x25
  | .rdint _ _ _ => 0x30
  | .wrint _ _ => 0x31
  | .b2by => 0x38
  | .by2b => 0x39
  | .by2w => 0x3A
  | .w2by => 0x3B
  | .rdOpen _ _ => 0x80
  | .rdClose => 0x81
  | .rdFill => 0x82
  | .rdAvail => 0x83
  | .rdRemain => 0x84
  | .rdPeek _ _ => 0x85
  | .rdRead _ _ => 0x86
  | .rdSeek => 0x87
  | .rdAlign => 0x88
  | .rdCopyout => 0x89

/-- The mask of a command's row: the bits its opcode fixes (spec/30_encoding.md R99). -/
def Instr.mask : Instr → CmdWord
  | .getbit _ | .setbit _ | .clrbit _ | .tglbit _ | .xchbit _ => 0xFFFF80FF
  | .rdbitsM _ | .rdbitsL _ | .wrbitsM _ | .wrbitsL _ => 0xFFFF80FF
  | .rdint _ _ _ => 0xFFFE00FF
  | .wrint _ _ | .rdPeek _ _ | .rdRead _ _ => 0xFFFF00FF
  | .rdOpen _ _ => 0xFFF1FFFF
  | .nop | .brevB | .popcB | .brevS | .brevI | .brevL | .bswpS | .bswpI | .bswpL => 0xFFFFFFFF
  | .copybM | .copybL | .b2by | .by2b | .by2w | .w2by => 0xFFFFFFFF
  | .rdClose | .rdFill | .rdAvail | .rdRemain | .rdSeek | .rdAlign | .rdCopyout => 0xFFFFFFFF

/-- CNT of a command, 0 where the opcode does not use it (spec/30_encoding.md R92, R99). -/
def Instr.cntField : Instr → BitVec 7
  | .getbit c | .setbit c | .clrbit c | .tglbit c | .xchbit c => c
  | .rdbitsM c | .rdbitsL c | .wrbitsM c | .wrbitsL c => c
  | .rdint c _ _ | .wrint c _ | .rdPeek c _ | .rdRead c _ => c
  | .nop | .brevB | .popcB | .brevS | .brevI | .brevL | .bswpS | .bswpI | .bswpL => 0
  | .copybM | .copybL | .b2by | .by2b | .by2w | .w2by => 0
  | .rdOpen _ _ | .rdClose | .rdFill | .rdAvail | .rdRemain | .rdSeek | .rdAlign | .rdCopyout => 0

/-- R of a command, 0 where the opcode does not use it. -/
def Instr.revField : Instr → Bool
  | .rdint _ r _ | .wrint _ r | .rdPeek _ r | .rdRead _ r => r
  | .getbit _ | .setbit _ | .clrbit _ | .tglbit _ | .xchbit _ => false
  | .rdbitsM _ | .rdbitsL _ | .wrbitsM _ | .wrbitsL _ => false
  | .nop | .brevB | .popcB | .brevS | .brevI | .brevL | .bswpS | .bswpI | .bswpL => false
  | .copybM | .copybL | .b2by | .by2b | .by2w | .w2by => false
  | .rdOpen _ _ | .rdClose | .rdFill | .rdAvail | .rdRemain | .rdSeek | .rdAlign | .rdCopyout => false

/-- The fields of a command; R99 says which it uses, the others are 0 (R92). -/
def Instr.fields (i : Instr) : Fields where
  op := i.opcode
  cnt := i.cntField
  rev := i.revField
  sgn := match i with | .rdint _ _ s => s | _ => false
  ord := match i with | .rdOpen o _ => o | _ => 0
  own := match i with | .rdOpen _ w => w | _ => false
  reserved := 0

/-- The encoding of a command (spec/30_encoding.md R103). -/
def encode (i : Instr) : CmdWord :=
  i.fields.toWord

/-- The instruction that the decoder reads from the table's word `w` of `nbits` bits. A command is one 32-bit word
written whole to CMD (spec/30_encoding.md R90), so there is no byte order to apply. -/
def decodeTableWord (nbits w : Nat) : Option Instr :=
  match decode (BitVec.ofNat 32 (w % 2 ^ nbits)) with
  | .ok i => some i
  | .error _ => none

end Sys2Proof
end

