-- ==== Sys2Proof/Machine/HostPort.lean ====
section
/-! DEFINITION. The host interface: register and BUF accesses, the CMD handshake, and the race of a host access with the
running command (spec/10_state.md R22 to R39, spec/20_memory.md R62, R81, spec/70_reset_and_hazards.md R350 to R354). -/

namespace Sys2Proof.Machine

/-- The BUF bit ranges (start, count) that the operands of command `i` name in `s`, where its index, count, size and operand
are legal (spec/20_memory.md R68). For RD.COPYOUT it is the whole destination, by the model's choice also where the source ends
before it is filled (DESIGN CHOICE, notes/assumptions/23.md). -/
def namedRanges (i : Instr) (s : State) : List (Nat × Nat) :=
  match i with
  | .getbit c | .setbit c | .clrbit c | .tglbit c => if c.toNat ≤ 7 then [(8 * s.uB, 8)] else []
  | .xchbit c => if s.uA ≤ 1 ∧ c.toNat ≤ 7 then [(8 * s.uB, 8)] else []
  | .rdbitsM c | .rdbitsL c | .wrbitsM c | .wrbitsL c => if c.toNat ≤ 64 then [(s.uB, c.toNat)] else []
  | .copybM | .copybL => [(s.uB, s.uA), (s.uC, s.uA)]
  | .rdint c _ _ | .wrint c _ => if c.toNat ≤ 8 then [(8 * s.uB, 8 * c.toNat)] else []
  | .rdCopyout => if s.reader.isSome then [(s.uB, s.uA)] else []
  | .nop | .brevB | .popcB | .brevS | .brevI | .brevL | .bswpS | .bswpI | .bswpL => []
  | .b2by | .by2b | .by2w | .w2by => []
  | .rdOpen _ _ | .rdClose | .rdFill | .rdAvail | .rdRemain | .rdPeek _ _ | .rdRead _ _ | .rdSeek | .rdAlign => []

/-- The BUF bit ranges that command `i`, started in `s`, reads or writes; none where one of them is not inside BUF, since it
then faults (spec/20_memory.md R67, R68). -/
def bufRanges (i : Instr) (s : State) : List (Nat × Nat) :=
  if (namedRanges i s).all (fun r => decide (r.1 + r.2 ≤ s.bufBits)) then namedRanges i s else []

/-- Byte `a` holds a bit of the range. -/
def inRange (a : Nat) (r : Nat × Nat) : Bool :=
  decide (0 < r.2 ∧ r.1 < 8 * a + 8 ∧ 8 * a < r.1 + r.2)

/-- The running command reads or writes BUF byte `a` (spec/20_memory.md R81). No rule says whether a byte of RD.COPYOUT's
destination that is never copied, because the source ends first, is one of them: here it is (DESIGN CHOICE,
notes/assumptions/23.md). -/
def State.uses (s : State) (a : Nat) : Bool :=
  s.busy && !s.cfgf &&
    match decode s.cmd with
    | .ok i => (bufRanges i s).any (inRange a)
    | .error _ => false

/-- The BUF byte that an access goes to. -/
def HostAccess.bufAddr : HostAccess → Option Nat
  | .writeByte a _ => some a
  | .readByte a => some a
  | .writeReg _ _ => none
  | .readReg _ => none

/-- The BUF byte that a racing access goes to. -/
def RacedAccess.addr : RacedAccess → Nat
  | .read x => x
  | .write x _ _ => x

/-- The access goes to a BUF byte that the running command uses (spec/70_reset_and_hazards.md R354). -/
def State.races (s : State) (a : HostAccess) : Bool :=
  match a.bufAddr with
  | none => false
  | some x => s.uses x

/-- A host write of a register other than CMD: OPA, OPB and OPC take the value, the read-only registers ignore it
(spec/10_state.md R22, R39). -/
def State.writeReg (s : State) (reg : Nat) (v : Word) : State :=
  match reg with
  | 2 => { s with opa := v }
  | 3 => { s with opb := v }
  | 4 => { s with opc := v }
  | _ => s

/-- What a host access does when the interface performs it. A write of CMD is the acceptance of its low 32 bits
(spec/10_state.md R23); a register number above 15 or a byte outside BUF is refused (spec/93_implementation_defined.md I12). -/
def State.perform (s : State) (a : HostAccess) : Result :=
  match a with
  | .writeReg reg v =>
    if 15 < reg then .refused (.noSuchRegister reg)
    else if reg = 0 then .next (s.accept (v.setWidth 32))
    else .next (s.writeReg reg v)
  | .readReg reg =>
    match s.readReg reg with
    | none => .refused (.noSuchRegister reg)
    | some v => .next { s with replies := .reg reg v :: s.replies }
  | .writeByte x b =>
    if x < s.params.bufBytes then .next (s.withBuf (s.buf.write x b)) else .refused (.outsideBuf x)
  | .readByte x =>
    if x < s.params.bufBytes then .next { s with replies := .byte x (s.buf.read x) :: s.replies }
    else .refused (.outsideBuf x)

/-- The interface holds the write of a command word, behind those it holds already. -/
def State.hold (s : State) (w : CmdWord) : State := { s with held := s.held ++ [w] }

/-- The outcome of a racing access is left to the end of the running command. -/
def State.defer (s : State) (a : RacedAccess) : State := { s with raced := s.raced ++ [a] }

/-- A first part of RD.COPYOUT has been copied, and it ends inside byte `x`: the byte holds neither its old nor its new value
(spec/43_reader.md R249, spec/20_memory.md R81). -/
def State.torn (s : State) (x : Nat) : Bool :=
  decide (0 < s.copied ∧ 8 * x < s.uB + s.copied ∧ s.uB + s.copied < 8 * x + 8)

/-- A racing access with outcome `o` (spec/20_memory.md R81, notes/assumptions/7.md). A read gives the old byte at once, the
byte as it stands, or the new byte once the command has ended. A write acts at once, on the byte as it stands, or when the
command has ended: then the byte ends with the command's value, or with the host's. A torn byte leaves both to the end. -/
def State.race (s : State) (o : RaceOutcome) (a : HostAccess) : Result :=
  match a with
  | .readByte x =>
    match o with
    | .early => .next { s with replies := .byte x (s.before.read x) :: s.replies }
    | .now => if s.torn x then .next (s.defer (.read x)) else s.perform a
    | .late => .next (s.defer (.read x))
  | .writeByte x b =>
    match o with
    | .early => .next (s.defer (.write x b true))
    | .now =>
      if s.torn x then .next (s.defer (.write x b false))
      else State.perform { s with before := s.before.write x b } a
    | .late => .next (s.defer (.write x b false))
  | .writeReg _ _ => s.perform a
  | .readReg _ => s.perform a

/-- The turn of a host access. A command word is held while BUSY = 1, and behind one that is held (R350); a racing BUF
access turns out by a free choice (R354); every other access is performed at once, whether BUSY = 1 or a command word is held
(R314, R352, R353; notes/assumptions/10.md). -/
def State.hostTurn (s : State) (a : HostAccess) : Result :=
  match a with
  | .writeReg 0 v => if s.busy || !s.held.isEmpty then .next (s.hold (v.setWidth 32)) else s.perform a
  | _ =>
    if s.races a then State.race { s with draws := s.draws + 1 } (Config.raceOutcome s.draws) a
    else s.perform a

/-- The BUF bit ranges that command `i`, started in `s` and ended in `t`, has written: its destination where it ended OK, and
the bits that RD.COPYOUT has copied, which RES counts (spec/60_exceptions.md R311, spec/43_reader.md R249). -/
def writtenRanges (i : Instr) (s t : State) : List (Nat × Nat) :=
  match i with
  | .rdCopyout => if t.fcode = .ok ∨ t.fcode = .endOfData then [(s.uB, t.res.toNat)] else []
  | .setbit _ | .clrbit _ | .tglbit _ | .xchbit _ | .wrbitsM _ | .wrbitsL _ | .wrint _ _ =>
    if t.fcode = .ok then bufRanges i s else []
  | .copybM | .copybL => if t.fcode = .ok then [(s.uC, s.uA)] else []
  | .nop | .brevB | .popcB | .brevS | .brevI | .brevL | .bswpS | .bswpI | .bswpL => []
  | .getbit _ | .rdbitsM _ | .rdbitsL _ | .rdint _ _ _ | .b2by | .by2b | .by2w | .w2by => []
  | .rdOpen _ _ | .rdClose | .rdFill | .rdAvail | .rdRemain | .rdPeek _ _ | .rdRead _ _ | .rdSeek | .rdAlign => []

/-- The command that ran in `s` and ended in `t` has written BUF byte `x`. -/
def State.wrote (s t : State) (x : Nat) : Bool :=
  match decode s.cmd with
  | .ok i => (writtenRanges i s t).any (inRange x)
  | .error _ => false

/-- What a racing access that was left to the end of the command does then. -/
def State.settleOne (wrote : Nat → Bool) (s : State) : RacedAccess → State
  | .read x => { s with replies := .byte x (s.buf.read x) :: s.replies }
  | .write x b yields => if yields && wrote x then s else s.withBuf (s.buf.write x b)

/-- The racing accesses that were left to the end of the command, in the order they were made. -/
def State.settle (wrote : Nat → Bool) (s : State) : State :=
  s.raced.foldl (State.settleOne wrote) { s with raced := [] }

/-- The rest of the step in which the command of `s` made the step to `t`: once the command has ended, the racing accesses
left to its end turn out, so that BUF holds its final values when BUSY = 0 (spec/20_memory.md R76, R81). -/
def State.finish (s : State) : Result → Result
  | .next t => .next (if t.busy then t else t.settle (s.wrote t))
  | .fault f => .fault f
  | .refused r => .refused r

end Sys2Proof.Machine
end

