-- ==== Sys2Proof/Machine/Sequencer.lean ====
section
/-! DEFINITION. The turns of the block, of its source port and of reset (spec/70_reset_and_hazards.md R340, R358,
spec/60_exceptions.md R312). -/

namespace Sys2Proof.Machine

/-- One atomic step of the command in CMD: ConfigurationFault before any decode, IllegalCommandFault from decoding, else the
meaning of the command (spec/60_exceptions.md R301, R305, R312). -/
def State.commandStep (s : State) : Result :=
  if s.cfgf then .next s.raiseConfiguration
  else
    match decode s.cmd with
    | .error _ => .next s.raiseIllegal
    | .ok i => exec i s

/-- One atomic step of the command, with what its ending settles of the racing host accesses. -/
def State.runCommand (s : State) : Result := s.finish s.commandStep

/-- The block's own turn while BUSY = 1: an accepted command runs; one whose request is not answered makes no step
(spec/60_exceptions.md R315, spec/93_implementation_defined.md I13: stuck until the answer or reset). -/
def State.blockTurn (s : State) : Result :=
  match s.port with
  | .waiting _ => .next s
  | .idle => s.runCommand
  | .answered _ _ => s.runCommand

/-- The turn of the block and its interface: the running command, else the acceptance of the first held command word, else
nothing (spec/70_reset_and_hazards.md R344, R350). -/
def State.ownTurn (s : State) : Result :=
  if s.busy then s.blockTurn
  else
    match s.held with
    | [] => .next s
    | w :: rest => .next (State.accept { s with held := rest } w)

/-- The answers that the contract of a request allows (spec/20_memory.md R71 to R74). -/
def SrcRequest.allows : SrcRequest → SrcAnswer → Bool
  | .read n _, .bytes bs => decide (bs.length ≤ n)
  | .position, .position _ => true
  | .length, .length _ => true
  | .seek _, .seek _ => true
  | _, _ => false

/-- The turn of a source answer to the `request`-th request. It is consumed in one step, which also runs the command up to its
next request or its completion (spec/70_reset_and_hazards.md R358). The answer to a request that reset has abandoned is ignored
(R340); so, by the model's choice, is an answer to a request never sent or answered already (notes/assumptions/20.md). -/
def State.answerTurn (s : State) (request : Nat) (a : SrcAnswer) : Result :=
  match s.port with
  | .waiting req =>
    if request ≠ s.sent.length then .next s
    else if req.allows a then State.runCommand { s with port := .answered req a }
    else .fault .sourceContract
  | .idle => .next s
  | .answered _ _ => .next s

/-- Reset (spec/70_reset_and_hazards.md R340 to R342): every field of the block takes its reset value, whatever ran is
abandoned, nothing is sent, and BUF holds `contents`. The turns to come and the record of what was sent and replied are not the
block's and stay. By the model's choice a reset is one turn, in which no host access falls (notes/assumptions/21.md), and the
racing accesses left to the end of the command are abandoned with it; whether the interface drops the command words it holds is
free (notes/assumptions/8.md). -/
def State.resetTurn (s : State) (contents : List Host.Cell) : State :=
  { State.resetWith s.params (Memory.ofCells s.params.bufBytes contents) with
    held :=
      match s.held with
      | [] => []
      | h :: t => if Config.resetDropsHeld s.draws then [] else h :: t
    inputs := s.inputs
    sent := s.sent
    replies := s.replies
    draws := s.draws + 1 }

/-- The state without its first scheduled turn. -/
def State.popInput (s : State) : State := { s with inputs := s.inputs.tail }

/-- The turn that `s` takes: the first one scheduled, or the block's own where none is. -/
def State.takeTurn (s : State) : Result :=
  match s.inputs with
  | [] => s.ownTurn
  | .run :: _ => s.popInput.ownTurn
  | .host a :: _ => s.popInput.hostTurn a
  | .answer n a :: _ => s.popInput.answerTurn n a
  | .reset contents :: _ => .next (s.popInput.resetTurn contents)

/-- The state in which the command word `w` has been accepted and the block's turn is next. -/
def State.loadCommand (s : State) (w : CmdWord) : State :=
  { s.accept w with inputs := .run :: s.inputs }

end Sys2Proof.Machine
end

