-- ==== Sys2Proof/Machine/Step.lean ====
section
/-! DEFINITION. The step of the machine. -/

namespace Sys2Proof.Machine

/-- One step: one turn of one agent (Machine/Sequencer.lean). -/
def step (s : State) : Host.Outcome State Fault Refusal :=
  s.takeTurn

/-- `s` with the command word accepted, as a host write of CMD leaves it, and the block's turn next: the block fetches
nothing, its next command is the word in CMD (spec/10_state.md R23, R47). -/
def State.withFetchWord (s : State) (nbits w : Nat) : State :=
  s.loadCommand (BitVec.ofNat 32 (w % 2 ^ nbits))

end Sys2Proof.Machine
end

