-- ==== Sys2Proof/Machine/Assembler.lean ====
section
/-! DEFINITION. The spelling of the commands and the pseudo-instructions (spec/30_encoding.md R101, R104 to R118). -/

namespace Sys2Proof

namespace Machine

/-- `.R` of a spelling (spec/30_encoding.md R101). -/
def spellRev (rev : Bool) : String := if rev then ".R" else ""

/-- The CNT operand of a spelling, in decimal. -/
def spellCnt (cnt : BitVec 7) : String := " " ++ toString cnt.toNat

/-- ORD and OWN of RD.OPEN's spelling; ORD = 3 has none (spec/30_encoding.md R96). -/
def spellOpen (ord : BitVec 2) (own : Bool) : String :=
  (if ord = 0 then " SYS" else if ord = 1 then " MS" else if ord = 2 then " LS" else " ?")
    ++ (if own then ", 1" else ", 0")

/-- The spelling of a command (spec/30_encoding.md R101). -/
def spell : Instr → String
  | .nop => "NOP"
  | .brevB => "BREV.B"
  | .popcB => "POPC.B"
  | .brevS => "BREV.S"
  | .brevI => "BREV.I"
  | .brevL => "BREV.L"
  | .bswpS => "BSWP.S"
  | .bswpI => "BSWP.I"
  | .bswpL => "BSWP.L"
  | .getbit c => "GETBIT" ++ spellCnt c
  | .setbit c => "SETBIT" ++ spellCnt c
  | .clrbit c => "CLRBIT" ++ spellCnt c
  | .tglbit c => "TGLBIT" ++ spellCnt c
  | .xchbit c => "XCHBIT" ++ spellCnt c
  | .rdbitsM c => "RDBITS.M" ++ spellCnt c
  | .rdbitsL c => "RDBITS.L" ++ spellCnt c
  | .wrbitsM c => "WRBITS.M" ++ spellCnt c
  | .wrbitsL c => "WRBITS.L" ++ spellCnt c
  | .copybM => "COPYB.M"
  | .copybL => "COPYB.L"
  | .rdint c r s => "RDINT" ++ (if s then ".S" else "") ++ spellRev r ++ spellCnt c
  | .wrint c r => "WRINT" ++ spellRev r ++ spellCnt c
  | .b2by => "B2BY"
  | .by2b => "BY2B"
  | .by2w => "BY2W"
  | .w2by => "W2BY"
  | .rdOpen o w => "RD.OPEN" ++ spellOpen o w
  | .rdClose => "RD.CLOSE"
  | .rdFill => "RD.FILL"
  | .rdAvail => "RD.AVAIL"
  | .rdRemain => "RD.REMAIN"
  | .rdPeek c r => "RD.PEEK" ++ spellRev r ++ spellCnt c
  | .rdRead c r => "RD.READ" ++ spellRev r ++ spellCnt c
  | .rdSeek => "RD.SEEK"
  | .rdAlign => "RD.ALIGN"
  | .rdCopyout => "RD.COPYOUT"

/-- The widths of the fixed-width accessors (spec/30_encoding.md R105, R107 to R109). -/
inductive FixedWidth
  | w8
  | w16
  | w24
  | w32
  | w64
  deriving DecidableEq, Repr

/-- A fixed width in bytes. -/
def FixedWidth.bytes : FixedWidth → BitVec 7
  | .w8 => 1
  | .w16 => 2
  | .w24 => 3
  | .w32 => 4
  | .w64 => 8

/-- A fixed width in bits. -/
def FixedWidth.bits (w : FixedWidth) : BitVec 7 := 8 * w.bytes

/-- The pseudo-instructions (spec/30_encoding.md R104 to R111, R118). -/
inductive Pseudo
  | readBit (rev : Bool)
  | readBits (n : BitVec 7) (rev : Bool)
  | readFixed (w : FixedWidth) (rev : Bool)
  | peekBit (rev : Bool)
  | peekBits (n : BitVec 7) (rev : Bool)
  | peekFixed (w : FixedWidth) (rev : Bool)
  | rdu (w : FixedWidth) (rev : Bool)
  | rds (w : FixedWidth) (rev : Bool)
  | wru (w : FixedWidth) (rev : Bool)
  | reverseByte
  | popcount8
  | skip (n : Word)
  | rewind (n : Word)
  | openDef
  deriving DecidableEq, Repr

/-- The command that a pseudo-instruction expands to. -/
def Pseudo.command : Pseudo → Instr
  | .readBit r => .rdRead 1 r
  | .readBits n r => .rdRead n r
  | .readFixed w r => .rdRead w.bits r
  | .peekBit r => .rdPeek 1 r
  | .peekBits n r => .rdPeek n r
  | .peekFixed w r => .rdPeek w.bits r
  | .rdu w r => .rdint w.bytes r false
  | .rds w r => .rdint w.bytes r true
  | .wru w r => .wrint w.bytes r
  | .reverseByte => .brevB
  | .popcount8 => .popcB
  | .skip _ => .rdSeek
  | .rewind _ => .rdSeek
  | .openDef => .rdOpen 0 false

/-- The host's write of OPA before the command, where the expansion has one (spec/30_encoding.md R111, R118). -/
def Pseudo.operand : Pseudo → Option Word
  | .skip n => some n
  | .rewind n => some (-n)
  | .openDef => some 32
  | .readBit _ | .readBits _ _ | .readFixed _ _ | .peekBit _ | .peekBits _ _ | .peekFixed _ _ => none
  | .rdu _ _ | .rds _ _ | .wru _ _ | .reverseByte | .popcount8 => none

/-- The host accesses that a pseudo-instruction expands to. -/
def Pseudo.expand (p : Pseudo) : List HostAccess :=
  (match p.operand with
    | none => []
    | some v => [.writeReg 2 v])
    ++ [.writeReg 0 ((encode p.command).setWidth 64)]

end Machine

end Sys2Proof
end

