-- ==== Sys2Proof/Safety.lean ====
section
/-! DEFINITION. The terms that statements use: how a command ends, what a result is bit by bit, which state a command
may touch; and what the spec promises of every state of a run: the reader invariants, the port discipline, the window law. -/

namespace Sys2Proof.Machine

/-- `s` after a command that ends OK, but for the command's own effects: FCODE = 0, BUSY = 0 (spec/00_scope.md R16,
spec/60_exceptions.md R307). -/
abbrev State.endedOk (s : State) : State :=
  { s with busy := false, fcode := .ok, port := .idle, copied := 0 }

/-- `s` after a command that ends OK with the result `v` in RES (spec/10_state.md R28). -/
abbrev State.endedWith (s : State) (v : Word) : State :=
  { s with busy := false, fcode := .ok, port := .idle, copied := 0, res := v }

/-- `s` after a command that raised `f` and changed nothing else (spec/00_scope.md R18, spec/60_exceptions.md R311). -/
abbrev State.faulted (s : State) (f : FCode) (foff fcnt favail : Nat) : State :=
  { s with
    busy := false, fcode := f, port := .idle, copied := 0
    foff := BitVec.ofNat 64 foff, fcnt := BitVec.ofNat 64 fcnt, favail := BitVec.ofNat 64 favail }

/-- `s` once the running command has sent `req` and waits for its answer (spec/70_reset_and_hazards.md R351, R358). -/
abbrev State.asking (s : State) (req : SrcRequest) : State :=
  { s with port := .waiting req, sent := req :: s.sent }

/-- availbuf(p): 8*BUF_BYTES - p, and 0 (as the subtraction of naturals gives) from the end of BUF on
(spec/60_exceptions.md R302). -/
abbrev State.roomAt (s : State) (p : Nat) : Nat := 8 * s.params.bufBytes - p

/-- Bit k of `r` is bit n - 1 - k of `v` for k < n, and 0 above (spec/40_lut.md R139 to R141). -/
def ReversedBits (n : Nat) (v r : Word) : Prop :=
  ∀ k, r.getLsbD k = (decide (k < n) && v.getLsbD (n - 1 - k))

/-- Byte i of `r` is byte n - 1 - i of `v` for i < n, and 0 above (spec/40_lut.md R142 to R144). -/
def SwappedBytes (n : Nat) (v r : Word) : Prop :=
  ∀ k, r.getLsbD k = (decide (k < 8 * n) && v.getLsbD (8 * (n - 1 - k / 8) + k % 8))

/-- `r` is the n-bit number whose bits in stream order are bit 0, bit 1, …: the first is the most significant under
MostSignificant, the least under LeastSignificant (spec/20_memory.md R65, spec/43_reader.md R237). -/
def FieldValue (o : BitOrder) (n : Nat) (bit : Nat → Bool) (r : Word) : Prop :=
  ∀ k, r.getLsbD k =
    (decide (k < n) && bit (match o with | .mostSignificant => n - 1 - k | .leastSignificant => k))

/-- In `m` the bits p, …, p + n - 1 are bit 0, …, bit (n - 1), every other bit is that of `old`, and every byte that holds
none of them is that of `old`. -/
def BitsReplaced (o : BitOrder) (p n : Nat) (bit : Nat → Bool) (old m : Memory) : Prop :=
  (∀ q, bitGet o m.read q = if p ≤ q ∧ q < p + n then bit (q - p) else bitGet o old.read q)
    ∧ ∀ a, 8 * a + 8 ≤ p ∨ p + n ≤ 8 * a → m.read a = old.read a

/-- The command belongs to the reader (spec/30_encoding.md R99, OP 0x80 to 0x89). -/
def isReaderCommand : Instr → Bool
  | .rdOpen _ _ | .rdClose | .rdFill | .rdAvail | .rdRemain => true
  | .rdPeek _ _ | .rdRead _ _ | .rdSeek | .rdAlign | .rdCopyout => true
  | .nop | .brevB | .popcB | .brevS | .brevI | .brevL | .bswpS | .bswpI | .bswpL => false
  | .getbit _ | .setbit _ | .clrbit _ | .tglbit _ | .xchbit _ => false
  | .rdbitsM _ | .rdbitsL _ | .wrbitsM _ | .wrbitsL _ | .copybM | .copybL => false
  | .rdint _ _ _ | .wrint _ _ | .b2by | .by2b | .by2w | .w2by => false

/-- The commands that write BUF (spec/20_memory.md R60). -/
def writesBuf : Instr → Bool
  | .setbit _ | .clrbit _ | .tglbit _ | .xchbit _ | .wrbitsM _ | .wrbitsL _ => true
  | .copybM | .copybL | .wrint _ _ | .rdCopyout => true
  | .nop | .brevB | .popcB | .brevS | .brevI | .brevL | .bswpS | .bswpI | .bswpL => false
  | .getbit _ | .rdbitsM _ | .rdbitsL _ | .rdint _ _ _ | .b2by | .by2b | .by2w | .w2by => false
  | .rdOpen _ _ | .rdClose | .rdFill | .rdAvail | .rdRemain => false
  | .rdPeek _ _ | .rdRead _ _ | .rdSeek | .rdAlign => false

/-- The commands that write RES (spec/30_encoding.md R98). -/
def hasResult : Instr → Bool
  | .brevB | .popcB | .brevS | .brevI | .brevL | .bswpS | .bswpI | .bswpL => true
  | .getbit _ | .xchbit _ | .rdbitsM _ | .rdbitsL _ | .rdint _ _ _ => true
  | .b2by | .by2b | .by2w | .w2by => true
  | .rdFill | .rdAvail | .rdRemain | .rdPeek _ _ | .rdRead _ _ | .rdCopyout => true
  | .nop | .setbit _ | .clrbit _ | .tglbit _ | .wrbitsM _ | .wrbitsL _ | .copybM | .copybL => false
  | .wrint _ _ | .rdOpen _ _ | .rdClose | .rdSeek | .rdAlign => false

/-- The commands that read OPA (spec/30_encoding.md R98). -/
def usesOpa : Instr → Bool
  | .brevB | .popcB | .brevS | .brevI | .brevL | .bswpS | .bswpI | .bswpL => true
  | .xchbit _ | .wrbitsM _ | .wrbitsL _ | .copybM | .copybL | .wrint _ _ => true
  | .b2by | .by2b | .by2w | .w2by | .rdOpen _ _ | .rdSeek | .rdCopyout => true
  | .nop | .getbit _ | .setbit _ | .clrbit _ | .tglbit _ | .rdbitsM _ | .rdbitsL _ | .rdint _ _ _ => false
  | .rdClose | .rdFill | .rdAvail | .rdRemain | .rdPeek _ _ | .rdRead _ _ | .rdAlign => false

/-- The commands that read OPB (spec/30_encoding.md R98). -/
def usesOpb : Instr → Bool
  | .getbit _ | .setbit _ | .clrbit _ | .tglbit _ | .xchbit _ => true
  | .rdbitsM _ | .rdbitsL _ | .wrbitsM _ | .wrbitsL _ | .copybM | .copybL => true
  | .rdint _ _ _ | .wrint _ _ | .rdCopyout => true
  | .nop | .brevB | .popcB | .brevS | .brevI | .brevL | .bswpS | .bswpI | .bswpL => false
  | .b2by | .by2b | .by2w | .w2by | .rdOpen _ _ | .rdClose | .rdFill | .rdAvail | .rdRemain => false
  | .rdPeek _ _ | .rdRead _ _ | .rdSeek | .rdAlign => false

/-- The commands that read OPC (spec/30_encoding.md R98): COPYB alone. -/
def usesOpc (i : Instr) : Bool := i == .copybM || i == .copybL

/-- How many bits a command makes sure are cached before it goes on, in the state `r` of the reader: the n of its
ensure(n, n), none where it calls no ensure (spec/43_reader.md R245, R246, R248). -/
def ensuredBits (i : Instr) (r : Reader) : Option Nat :=
  match i with
  | .rdPeek cnt _ => if 1 ≤ cnt.toNat ∧ cnt.toNat ≤ 64 then some cnt.toNat else none
  | .rdRead cnt _ => if 1 ≤ cnt.toNat ∧ cnt.toNat ≤ 64 then some cnt.toNat else none
  | .rdAlign => if r.bitIdx = 0 then none else some (8 - r.bitIdx)
  | _ => none

/-- The reader after the bytes `bs` of an answer (spec/43_reader.md R232). -/
abbrev Reader.pulled (r : Reader) (bs : List Byte) : Reader :=
  { r with cache := r.cache ++ bs, srcPos := r.srcPos + bs.length }

/-- The reader with its cursor `n` bits further (spec/43_reader.md R238). -/
abbrev Reader.moved (r : Reader) (n : Nat) : Reader :=
  { r with byteIdx := r.byteIdx + (r.bitIdx + n) / 8, bitIdx := (r.bitIdx + n) % 8 }

/-- The invariants of an open reader (spec/10_state.md R42). -/
abbrev Reader.ok (p : Params) (r : Reader) : Prop :=
  r.bitIdx ≤ 7 ∧ r.byteIdx ≤ r.clen ∧ r.clen ≤ r.cap ∧ r.cap ≤ p.cacheMax
    ∧ (r.byteIdx = r.clen → 0 < r.clen → r.bitIdx = 0) ∧ r.clen ≤ r.srcPos

/-- The reader `c` is `r` made ready for n bits that it does not hold (spec/43_reader.md R232 to R235): grown to exactly the
need and recycled where that does not fit behind the cursor, with the cursor and the unread bits where they were in the stream,
and with free space to ask for. -/
def EnsuredFor (p : Params) (n : Nat) (r c : Reader) : Prop :=
  c.ok p ∧ c.cap = max r.cap ((r.bitIdx + n + 7) / 8) ∧ 1 ≤ c.cap - c.cache.length
    ∧ (if r.byteIdx + (r.bitIdx + n + 7) / 8 ≤ c.cap then c.cache = r.cache ∧ c.byteIdx = r.byteIdx
        else c.cache = r.cache.drop r.byteIdx ∧ c.byteIdx = 0)
    ∧ c.bitIdx = r.bitIdx ∧ c.srcPos = r.srcPos ∧ c.own = r.own ∧ c.order = r.order
    ∧ c.abs = r.abs ∧ c.avail = r.avail

/-- The open reader, if any, keeps its invariants. -/
def State.readerOk (s : State) : Prop := ∀ r, s.reader = some r → r.ok s.params

/-- The kind of request that a command may wait for (spec/43_reader.md R232, R240, R242, R244, R247). -/
def awaits (i : Instr) (req : SrcRequest) : Bool :=
  match req with
  | .read _ .blocking =>
    match i with
    | .rdPeek _ _ | .rdRead _ _ | .rdAlign | .rdCopyout => true
    | _ => false
  | .read _ .poll => i == .rdFill
  | .position =>
    match i with
    | .rdOpen _ _ => true
    | _ => false
  | .length => i == .rdRemain
  | .seek _ => i == .rdSeek
  | .close => false

/-- The free space of the cache, CAP - CLEN; 0 with no reader. -/
def State.freeSpace (s : State) : Nat :=
  match s.reader with
  | none => 0
  | some r => r.cap - r.clen

/-- An outstanding request is one that the running command sends, and a read asks for no more than the free space of the
cache (spec/20_memory.md R71, spec/43_reader.md R235). No answer stays on the port after the step that consumes it. -/
def State.portOk (s : State) : Prop :=
  match s.port with
  | .idle => True
  | .waiting req =>
    s.busy = true ∧ (∃ i, decode s.cmd = .ok i ∧ awaits i req = true)
      ∧ (match req with
        | .read n _ => s.reader.isSome = true ∧ n ≤ s.freeSpace
        | _ => True)
  | .answered _ _ => False

/-- What every state of a run satisfies, whatever the turns. -/
structure Inv (s : State) : Prop where
  /-- The parameters are legal (spec/00_scope.md R6, R7). -/
  params : s.params.legal
  /-- CFGF is 1 exactly when an order is Unknown (spec/10_state.md R46). -/
  cfgf : s.cfgf = s.params.orderUnknown
  /-- BUF is in its canonical form. -/
  bufWf : s.buf.wf = true
  /-- BUF holds no byte at or above BUF_BYTES (spec/20_memory.md R60). -/
  bufWithin : s.buf.within s.params.bufBytes = true
  /-- What racing accesses take as the old bytes is in canonical form. -/
  beforeWf : s.before.wf = true
  /-- The reader keeps R42 (spec/10_state.md). -/
  reader : s.readerOk
  /-- At most one request, of the running command (spec/20_memory.md R71). -/
  port : s.portOk
  /-- BUSY = 0 means that nothing runs (spec/10_state.md R24, spec/70_reset_and_hazards.md R351). -/
  quiet : s.busy = false → s.port = .idle ∧ s.copied = 0
  /-- The accesses left to the end of the running command go to bytes that it uses (spec/20_memory.md R81); so there are none
  while BUSY = 0 and while CFGF = 1. -/
  raced : ∀ a ∈ s.raced, s.uses a.addr = true
  /-- FCODE = 4 is never produced (spec/60_exceptions.md R304). -/
  noSink : s.fcode ≠ .sinkWrite
  /-- FCODE = 1 is produced only while CFGF = 1 (spec/60_exceptions.md R301). -/
  configOnly : s.fcode = .configuration → s.cfgf = true

/-- The cache is a window of the source bytes `S` (spec/43_reader.md R236 (a)). -/
def State.windowOf (S : Nat → Byte) (s : State) : Prop :=
  ∀ r, s.reader = some r → ∀ j, j < r.clen → r.byteAt j = S (r.w0 + j)

/-- If the next turn answers a read, its bytes are those of the source `S` at SRC_POS, the source's position
(spec/20_memory.md R71, R72). -/
def State.answersFrom (S : Nat → Byte) (s : State) : Prop :=
  match s.inputs with
  | .answer _ (.bytes bs) :: _ =>
    ∀ r, s.reader = some r → ∀ j, j < bs.length → bs.getD j 0 = S (r.srcPos + j)
  | _ => True

end Sys2Proof.Machine
end

