-- ==== Sys2Proof/Certificates/Slice0/Obligations.lean ====
section
/-! DEFINITION. The statements for the provers. The terms they use stand in Sys2Proof/Safety.lean; each says which rules of
spec/ it formalises. -/

section

open Sys2Proof Sys2Proof.Machine

/-! ### Commands and their words -/

/-- spec/30_encoding.md R91, R93 to R97, R99: no bit of a command is lost by encoding and decoding it. -/
def Obligations.DecodeOfEncode : Prop :=
  ∀ i : Instr, i.wellFormed = true → decode (encode i) = .ok i

/-- spec/30_encoding.md R90, R92: a word that decodes is the encoding of its command, so no two words are one command, and
what decodes is well formed. -/
def Obligations.EncodeOfDecode : Prop :=
  ∀ (w : CmdWord) (i : Instr), decode w = .ok i → i.wellFormed = true ∧ encode i = w

/-- spec/30_encoding.md R103, with its worked examples. -/
def Obligations.EncodingFormula : Prop :=
  (∀ i : Instr, encode i =
    i.opcode.setWidth 32 ||| i.cntField.setWidth 32 <<< 8 ||| (BitVec.ofBool i.revField).setWidth 32 <<< 15
      ||| (BitVec.ofBool (match i with | .rdint _ _ sgn => sgn | _ => false)).setWidth 32 <<< 16
      ||| (match i with | .rdOpen ord _ => ord | _ => 0 : BitVec 2).setWidth 32 <<< 17
      ||| (BitVec.ofBool (match i with | .rdOpen _ own => own | _ => false)).setWidth 32 <<< 19)
  ∧ encode (.rdRead 32 false) = 0x00002086 ∧ encode (.rdRead 32 true) = 0x0000A086
  ∧ encode (.rdbitsM 12) = 0x00000C20 ∧ encode (.rdint 4 true true) = 0x00018430
  ∧ encode (.rdOpen 2 true) = 0x000C0080 ∧ encode (.getbit 3) = 0x00000310

/-- spec/30_encoding.md R99 (the match and mask of its 36 rows), R92, R96, R100: a word is a command exactly when one row
matches it and it is not RD.OPEN with ORD = 3. -/
def Obligations.CommandWords : Prop :=
  ∀ w : CmdWord, (∃ i, decode w = .ok i) ↔
    ((w ∈ ([0x00, 0x01, 0x02, 0x03, 0x04, 0x05, 0x06, 0x07, 0x08, 0x24, 0x25, 0x38, 0x39, 0x3A, 0x3B,
        0x81, 0x82, 0x83, 0x84, 0x87, 0x88, 0x89] : List CmdWord))
      ∨ (w &&& 0xFFFF80FF ∈ ([0x10, 0x11, 0x12, 0x13, 0x14, 0x20, 0x21, 0x22, 0x23] : List CmdWord))
      ∨ (w &&& 0xFFFE00FF = 0x30) ∨ (w &&& 0xFFFF00FF ∈ ([0x31, 0x85, 0x86] : List CmdWord))
      ∨ (w &&& 0xFFF1FFFF = 0x80 ∧ w.extractLsb' 17 2 ≠ 3))

/-- Words written out from the encodings of spec/30_encoding.md R91 and R99, one of each format, and two that are rejected. -/
def Obligations.WrittenWords : Prop :=
  decode 0b00000000000000000000000000100100 = .ok .copybM
  ∧ decode 0b00000000000000000000110000100000 = .ok (.rdbitsM 12)
  ∧ decode 0b00000000000000011000010000110000 = .ok (.rdint 4 true true)
  ∧ decode 0b00000000000000001010000010000101 = .ok (.rdPeek 32 true)
  ∧ decode 0b00000000000011000000000010000000 = .ok (.rdOpen 2 true)
  ∧ decode 0b00000000000001100000000010000000 = .error .reservedOrd
  ∧ decode 0b00000000000100000000000000000000 = .error .unusedField

/-- spec/30_encoding.md R104 to R111 and R118: every pseudo-instruction with the word of its expansion, and the host step of
RD.SKIP, RD.REWIND and RD.OPEN.DEF. -/
def Obligations.PseudoInstructions : Prop :=
  encode (Pseudo.readBit false).command = 0x186 ∧ encode (Pseudo.readBit true).command = 0x8186
  ∧ (∀ n, (Pseudo.readBits n false).command = .rdRead n false ∧ (Pseudo.readBits n true).command = .rdRead n true)
  ∧ ([FixedWidth.w8, .w16, .w24, .w32, .w64].map fun w => encode (Pseudo.readFixed w false).command)
      = [0x886, 0x1086, 0x1886, 0x2086, 0x4086]
  ∧ ([FixedWidth.w8, .w16, .w24, .w32, .w64].map fun w => encode (Pseudo.readFixed w true).command)
      = [0x8886, 0x9086, 0x9886, 0xA086, 0xC086]
  ∧ encode (Pseudo.peekBit false).command = 0x185 ∧ encode (Pseudo.peekBit true).command = 0x8185
  ∧ (∀ n, (Pseudo.peekBits n false).command = .rdPeek n false ∧ (Pseudo.peekBits n true).command = .rdPeek n true)
  ∧ ([FixedWidth.w8, .w16, .w24, .w32, .w64].map fun w => encode (Pseudo.peekFixed w false).command)
      = [0x885, 0x1085, 0x1885, 0x2085, 0x4085]
  ∧ ([FixedWidth.w8, .w16, .w24, .w32, .w64].map fun w => encode (Pseudo.peekFixed w true).command)
      = [0x8885, 0x9085, 0x9885, 0xA085, 0xC085]
  ∧ ([FixedWidth.w8, .w16, .w24, .w32, .w64].map fun w => encode (Pseudo.rdu w false).command)
      = [0x130, 0x230, 0x330, 0x430, 0x830]
  ∧ (∀ w, encode (Pseudo.rdu w true).command = encode (Pseudo.rdu w false).command + 0x8000
      ∧ encode (Pseudo.rds w false).command = encode (Pseudo.rdu w false).command + 0x10000
      ∧ encode (Pseudo.rds w true).command = encode (Pseudo.rdu w false).command + 0x18000
      ∧ encode (Pseudo.wru w true).command = encode (Pseudo.wru w false).command + 0x8000)
  ∧ ([FixedWidth.w8, .w16, .w24, .w32, .w64].map fun w => encode (Pseudo.wru w false).command)
      = [0x131, 0x231, 0x331, 0x431, 0x831]
  ∧ Pseudo.reverseByte.command = .brevB ∧ Pseudo.popcount8.command = .popcB
  ∧ (∀ n, (Pseudo.skip n).expand = [.writeReg 2 n, .writeReg 0 0x87]
      ∧ (Pseudo.rewind n).expand = [.writeReg 2 (-n), .writeReg 0 0x87])
  ∧ Pseudo.openDef.expand = [.writeReg 2 32, .writeReg 0 0x80]

/-- A step runs the decoded command (spec/10_state.md R23, spec/70_reset_and_hazards.md R351, R358): the block's own turn at a
command whose word decodes is its meaning; so is the turn that consumes the answer to its request, with that answer on the port; and
so is the first step after `withFetchWord`, with the operands latched. `finish` adds to the step in which the command ends what
the racing host accesses left to its end do then (BufRaces); it adds nothing where there are none, and nothing to a step after which
the command waits. That acceptance is a step of its own, before the step that runs the command, is the model's choice
(notes/assumptions/9.md). -/
def Obligations.StepRunsDecoded : Prop :=
  (∀ (s : State) (i : Instr) (rest : List Input), s.inputs = .run :: rest → s.busy = true → s.port = .idle →
    s.cfgf = false → decode s.cmd = .ok i →
    step s = State.finish { s with inputs := rest } (exec i { s with inputs := rest }))
  ∧ (∀ (s : State) (i : Instr), s.inputs = [] → s.busy = true → s.port = .idle →
    s.cfgf = false → decode s.cmd = .ok i → step s = s.finish (exec i s))
  ∧ (∀ (s : State) (i : Instr) (rest : List Input) (req : SrcRequest) (a : SrcAnswer),
    s.inputs = .answer s.sent.length a :: rest → s.port = .waiting req → req.allows a = true →
    s.cfgf = false → decode s.cmd = .ok i →
    let u := { s with inputs := rest, port := .answered req a }
    step s = u.finish (exec i u))
  ∧ (∀ (s : State) (i : Instr) (w : CmdWord), s.cfgf = false → decode w = .ok i →
    let u := { s with
      cmd := w, busy := true, port := .idle, before := s.buf, latchA := s.opa, latchB := s.opb, latchC := s.opc }
    step (s.withFetchWord 32 w.toNat) = u.finish (exec i u))
  ∧ ∀ (s t : State) (i : Instr), exec i s = .next t → s.raced = [] ∨ t.busy = true → s.finish (exec i s) = .next t

/-! ### Tables, reversal and population count -/

/-- spec/40_lut.md R137, R139, R140, R141 (encoding, RangeFault, result; nothing else changes). -/
def Obligations.BitReversals : Prop :=
  (decode 0x01 = .ok .brevB ∧ decode 0x03 = .ok .brevS ∧ decode 0x04 = .ok .brevI ∧ decode 0x05 = .ok .brevL)
  ∧ (∀ c n, (c, n) ∈ [(Instr.brevB, 8), (Instr.brevS, 16), (Instr.brevI, 32)] → ∀ s : State, s.cfgf = false →
      (2 ^ n - 1 < s.latchA.toNat → exec c s = .next (s.faulted .range 0 s.latchA.toNat (2 ^ n - 1)))
      ∧ (s.latchA.toNat ≤ 2 ^ n - 1 → ∃ r, ReversedBits n s.latchA r ∧ exec c s = .next (s.endedWith r)))
  ∧ ∀ s : State, s.cfgf = false → ∃ r, ReversedBits 64 s.latchA r ∧ exec .brevL s = .next (s.endedWith r)

/-- spec/40_lut.md R138 (encoding, RangeFault, result; nothing else changes). -/
def Obligations.PopulationCount : Prop :=
  decode 0x02 = .ok .popcB
  ∧ ∀ s : State, s.cfgf = false →
      (0xFF < s.latchA.toNat → exec .popcB s = .next (s.faulted .range 0 s.latchA.toNat 0xFF))
      ∧ (s.latchA.toNat ≤ 0xFF →
          exec .popcB s = .next (s.endedWith
            (BitVec.ofNat 64 ((List.range 8).filter fun k => s.latchA.getLsbD k).length)))

/-- spec/40_lut.md R142, R143, R144 (encoding, RangeFault, result; nothing else changes). -/
def Obligations.ByteSwaps : Prop :=
  (decode 0x06 = .ok .bswpS ∧ decode 0x07 = .ok .bswpI ∧ decode 0x08 = .ok .bswpL)
  ∧ (∀ c n, (c, n) ∈ [(Instr.bswpS, 2), (Instr.bswpI, 4)] → ∀ s : State, s.cfgf = false →
      (2 ^ (8 * n) - 1 < s.latchA.toNat →
        exec c s = .next (s.faulted .range 0 s.latchA.toNat (2 ^ (8 * n) - 1)))
      ∧ (s.latchA.toNat ≤ 2 ^ (8 * n) - 1 → ∃ r, SwappedBytes n s.latchA r ∧ exec c s = .next (s.endedWith r)))
  ∧ ∀ s : State, s.cfgf = false → ∃ r, SwappedBytes 8 s.latchA r ∧ exec .bswpL s = .next (s.endedWith r)

/-- spec/40_lut.md R130 to R134: the entries of the two ROMs, their recurrences and their invariants. -/
def Obligations.TableContents : Prop :=
  (∀ (v : Byte) (k : Fin 8), (rev v).getLsbD k = v.getLsbD (7 - k))
  ∧ rev 0 = 0 ∧ (∀ v : Byte, v ≠ 0 → rev v = rev (v >>> 1) >>> 1 ||| (v &&& 1) <<< 7)
  ∧ (∀ v : Byte, rev v = v ↔
      v ∈ ([0x00, 0x18, 0x24, 0x3C, 0x42, 0x5A, 0x66, 0x7E, 0x81, 0x99, 0xA5, 0xBD, 0xC3, 0xDB, 0xE7, 0xFF] : List Byte))
  ∧ (∀ v : Byte, (pop v).toNat = ((List.range 8).filter fun k => v.getLsbD k).length)
  ∧ pop 0 = 0 ∧ (∀ v : Byte, v ≠ 0 → pop v = pop (v >>> 1) + (v &&& 1))
  ∧ ∀ v : Byte, rev (rev v) = v ∧ pop v = pop (rev v) ∧ pop v + pop (rev v) = 2 * pop v

/-- spec/40_lut.md R145: a reversal applied to its own result gives the operand back; a bit reversal is the byte reversal of
the value whose bytes are each replaced by their entry of REV; reversing a byte keeps its population count. -/
def Obligations.TableCommandLaws : Prop :=
  (∀ c n, (c, n) ∈ [(Instr.brevB, 8), (Instr.brevS, 16), (Instr.brevI, 32), (Instr.brevL, 64), (Instr.bswpS, 16),
      (Instr.bswpI, 32), (Instr.bswpL, 64)] → ∀ s : State, s.cfgf = false → s.latchA.toNat < 2 ^ n →
      ∃ t u, exec c s = .next t ∧ exec c { t with latchA := t.res } = .next u ∧ u.fcode = .ok ∧ u.res = s.latchA)
  ∧ (∀ c d n, (c, d, n) ∈ [(Instr.brevS, Instr.bswpS, 16), (.brevI, .bswpI, 32), (.brevL, .bswpL, 64)] →
      ∀ (s : State) (v : Word), s.cfgf = false → s.latchA.toNat < 2 ^ n → v.toNat < 2 ^ n →
      (∀ j, 8 * j < n → v.extractLsb' (8 * j) 8 = rev (s.latchA.extractLsb' (8 * j) 8)) →
      ∃ t u, exec c s = .next t ∧ exec d { s with latchA := v } = .next u ∧ t.fcode = .ok ∧ u.res = t.res)
  ∧ ∀ s : State, s.cfgf = false → s.latchA.toNat ≤ 0xFF →
      ∃ t u v, exec .brevB s = .next t ∧ exec .popcB { s with latchA := t.res } = .next u ∧ exec .popcB s = .next v
        ∧ v.fcode = .ok ∧ u.res = v.res

/-! ### Bits and fields of BUF -/

/-- spec/20_memory.md R64 (the position map of both orders, bitget and bitput) and spec/43_reader.md R231 (the opposite
order). -/
def Obligations.PositionMap : Prop :=
  (∀ (M : Nat → Byte) (p : Nat),
    bitGet .mostSignificant M p = (M (p / 8)).getLsbD (7 - p % 8)
    ∧ bitGet .leastSignificant M p = (M (p / 8)).getLsbD (p % 8))
  ∧ (∀ (o : BitOrder) (m : Memory) (p : Nat) (v : Bool), BitsReplaced o p 1 (fun _ => v) m (m.bitPut o p v))
  ∧ BitOrder.mostSignificant.opposite = .leastSignificant ∧ BitOrder.leastSignificant.opposite = .mostSignificant

/-- spec/20_memory.md R65: readField and writeField, bit by bit, for every order, position, count up to 64 and value. -/
def Obligations.FieldPrimitives : Prop :=
  ∀ (o : BitOrder) (p n : Nat), n ≤ 64 →
    (∀ M : Nat → Byte, readField o M p n < 2 ^ n
      ∧ FieldValue o n (fun j => bitGet o M (p + j)) (BitVec.ofNat 64 (readField o M p n)))
    ∧ ∀ (m : Memory) (v : Word),
      BitsReplaced o p n
        (fun j => v.getLsbD (match o with | .mostSignificant => n - 1 - j | .leastSignificant => j)) m
        (m.writeField o p n v)

/-- spec/41_bitfield.md R160, R161, R166: GETBIT (encoding, checks in their order, result; nothing else changes). -/
def Obligations.GetbitResult : Prop :=
  (∀ n : BitVec 7, decode (0x10 ||| n.setWidth 32 <<< 8) = .ok (.getbit n))
  ∧ ∀ (s : State) (n : BitVec 7) (o : BitOrder), s.cfgf = false → s.params.sysBitOrder = some o →
    let imax := if s.params.acceptIndex8 then 8 else 7
    let a := s.latchB.toNat
    (imax < n.toNat → exec (.getbit n) s = .next (s.faulted .range (8 * a) n.toNat imax))
    ∧ (n.toNat ≤ imax → s.params.bufBytes ≤ a →
        exec (.getbit n) s = .next (s.faulted .range (8 * a) 8 (s.roomAt (8 * a))))
    ∧ (n.toNat = 8 → n.toNat ≤ imax → a < s.params.bufBytes → exec (.getbit n) s = .next (s.endedWith 0))
    ∧ (n.toNat ≤ 7 → a < s.params.bufBytes →
        exec (.getbit n) s = .next (s.endedWith (if bitGet o s.buf.read (8 * a + n.toNat) then 1 else 0)))

/-- spec/41_bitfield.md R160, R162, R163, R164, R166: SETBIT, CLRBIT and TGLBIT (encoding, checks in their order, the one
bit of BUF that changes; nothing else changes). -/
def Obligations.SetClearToggle : Prop :=
  (∀ n : BitVec 7, decode (0x11 ||| n.setWidth 32 <<< 8) = .ok (.setbit n)
    ∧ decode (0x12 ||| n.setWidth 32 <<< 8) = .ok (.clrbit n) ∧ decode (0x13 ||| n.setWidth 32 <<< 8) = .ok (.tglbit n))
  ∧ ∀ (c : BitVec 7 → Instr) (f : Bool → Bool),
    (c, f) ∈ [(Instr.setbit, fun _ => true), (Instr.clrbit, fun _ => false), (Instr.tglbit, fun b => !b)] →
    ∀ (s : State) (n : BitVec 7) (o : BitOrder), s.cfgf = false → s.params.sysBitOrder = some o →
    let imax := if s.params.acceptIndex8 then 8 else 7
    let a := s.latchB.toNat
    (imax < n.toNat → exec (c n) s = .next (s.faulted .range (8 * a) n.toNat imax))
    ∧ (n.toNat ≤ imax → s.params.bufBytes ≤ a →
        exec (c n) s = .next (s.faulted .range (8 * a) 8 (s.roomAt (8 * a))))
    ∧ (n.toNat = 8 → n.toNat ≤ imax → a < s.params.bufBytes → exec (c n) s = .next s.endedOk)
    ∧ (n.toNat ≤ 7 → a < s.params.bufBytes →
        ∃ m, BitsReplaced o (8 * a + n.toNat) 1 (fun _ => f (bitGet o s.buf.read (8 * a + n.toNat))) s.buf m
          ∧ exec (c n) s = .next { s.endedOk with buf := m })

/-- spec/41_bitfield.md R165, R166: XCHBIT (encoding; the index, then the operand, then the address; the old bit in RES and
the one bit of BUF that changes; nothing else changes). -/
def Obligations.ExchangeBit : Prop :=
  (∀ n : BitVec 7, decode (0x14 ||| n.setWidth 32 <<< 8) = .ok (.xchbit n))
  ∧ ∀ (s : State) (n : BitVec 7) (o : BitOrder), s.cfgf = false → s.params.sysBitOrder = some o →
    let imax := if s.params.acceptIndex8 then 8 else 7
    let a := s.latchB.toNat
    (imax < n.toNat → exec (.xchbit n) s = .next (s.faulted .range (8 * a) n.toNat imax))
    ∧ (n.toNat ≤ imax → 1 < s.latchA.toNat → exec (.xchbit n) s = .next (s.faulted .range 0 s.latchA.toNat 1))
    ∧ (n.toNat ≤ imax → s.latchA.toNat ≤ 1 → s.params.bufBytes ≤ a →
        exec (.xchbit n) s = .next (s.faulted .range (8 * a) 8 (s.roomAt (8 * a))))
    ∧ (n.toNat = 8 → n.toNat ≤ imax → s.latchA.toNat ≤ 1 → a < s.params.bufBytes →
        exec (.xchbit n) s = .next (s.endedWith 0))
    ∧ (n.toNat ≤ 7 → s.latchA.toNat ≤ 1 → a < s.params.bufBytes →
        ∃ m, BitsReplaced o (8 * a + n.toNat) 1 (fun _ => decide (s.latchA.toNat = 1)) s.buf m
          ∧ exec (.xchbit n) s = .next
              { s.endedWith (if bitGet o s.buf.read (8 * a + n.toNat) then 1 else 0) with buf := m })

/-- spec/41_bitfield.md R167, R168: RDBITS (encoding, checks, result bit by bit; nothing else changes). -/
def Obligations.FieldReads : Prop :=
  (∀ n : BitVec 7, decode (0x20 ||| n.setWidth 32 <<< 8) = .ok (.rdbitsM n)
    ∧ decode (0x21 ||| n.setWidth 32 <<< 8) = .ok (.rdbitsL n))
  ∧ ∀ (c : BitVec 7 → Instr) (o : BitOrder),
    (c, o) ∈ [(Instr.rdbitsM, BitOrder.mostSignificant), (Instr.rdbitsL, .leastSignificant)] →
    ∀ (s : State) (n : BitVec 7), s.cfgf = false →
    let p := s.latchB.toNat
    (64 < n.toNat ∨ (1 ≤ n.toNat ∧ 8 * s.params.bufBytes < p + n.toNat) →
      exec (c n) s = .next (s.faulted .range p n.toNat (s.roomAt p)))
    ∧ (n.toNat = 0 → exec (c n) s = .next (s.endedWith 0))
    ∧ (1 ≤ n.toNat → n.toNat ≤ 64 → p + n.toNat ≤ 8 * s.params.bufBytes →
        ∃ r, FieldValue o n.toNat (fun j => bitGet o s.buf.read (p + j)) r ∧ exec (c n) s = .next (s.endedWith r))

/-- spec/41_bitfield.md R169, R170: WRBITS (encoding, checks, the n bits of BUF that change; nothing else changes). -/
def Obligations.FieldWrites : Prop :=
  (∀ n : BitVec 7, decode (0x22 ||| n.setWidth 32 <<< 8) = .ok (.wrbitsM n)
    ∧ decode (0x23 ||| n.setWidth 32 <<< 8) = .ok (.wrbitsL n))
  ∧ ∀ (c : BitVec 7 → Instr) (o : BitOrder),
    (c, o) ∈ [(Instr.wrbitsM, BitOrder.mostSignificant), (Instr.wrbitsL, .leastSignificant)] →
    ∀ (s : State) (n : BitVec 7), s.cfgf = false →
    let p := s.latchB.toNat
    (64 < n.toNat ∨ (1 ≤ n.toNat ∧ 8 * s.params.bufBytes < p + n.toNat) →
      exec (c n) s = .next (s.faulted .range p n.toNat (s.roomAt p)))
    ∧ (n.toNat = 0 → exec (c n) s = .next s.endedOk)
    ∧ (1 ≤ n.toNat → n.toNat ≤ 64 → p + n.toNat ≤ 8 * s.params.bufBytes →
        ∃ m, BitsReplaced o p n.toNat
            (fun j => s.latchA.getLsbD (match o with | .mostSignificant => n.toNat - 1 - j | .leastSignificant => j)) s.buf m
          ∧ exec (c n) s = .next { s.endedOk with buf := m })

/-- spec/41_bitfield.md R171: (a) round trip, (b) frame, (c) byte-aligned fields of the two orders are byte reversals of each
other, (d) a byte-aligned field of 8 bits is the byte. -/
def Obligations.FieldLaws : Prop :=
  (∀ (rd wr : BitVec 7 → Instr) (o : BitOrder),
    (rd, wr, o) ∈ [(Instr.rdbitsM, Instr.wrbitsM, BitOrder.mostSignificant), (Instr.rdbitsL, Instr.wrbitsL, .leastSignificant)] →
    ∀ (s : State) (n : BitVec 7), s.cfgf = false → n.toNat ≤ 64 → s.latchB.toNat + n.toNat ≤ 8 * s.params.bufBytes →
    ∃ t u, exec (wr n) s = .next t ∧ exec (rd n) t = .next u ∧ u.fcode = .ok
      ∧ u.res.toNat = s.latchA.toNat % 2 ^ n.toNat
      ∧ ∀ q, q < s.latchB.toNat ∨ s.latchB.toNat + n.toNat ≤ q → bitGet o t.buf.read q = bitGet o s.buf.read q)
  ∧ ∀ (s : State) (k : Nat), s.cfgf = false → k ≤ 8 → s.latchB.toNat % 8 = 0 →
    s.latchB.toNat + 8 * k ≤ 8 * s.params.bufBytes →
    ∃ t u, exec (.rdbitsM (BitVec.ofNat 7 (8 * k))) s = .next t ∧ exec (.rdbitsL (BitVec.ofNat 7 (8 * k))) s = .next u
      ∧ t.fcode = .ok ∧ SwappedBytes k u.res t.res
      ∧ (k = 1 → t.res = (s.buf.read (s.latchB.toNat / 8)).setWidth 64 ∧ u.res = t.res)

/-- spec/41_bitfield.md R172, R173: COPYB (encoding, checks, the n bits of BUF that change, each to what its source bit was
before the command; nothing else changes). The remark of R172 on equal bit phases is no clause of it (notes/assumptions/15.md). -/
def Obligations.BitCopies : Prop :=
  (decode 0x24 = .ok .copybM ∧ decode 0x25 = .ok .copybL)
  ∧ ∀ (c : Instr) (o : BitOrder), (c, o) ∈ [(Instr.copybM, BitOrder.mostSignificant), (Instr.copybL, .leastSignificant)] →
    ∀ s : State, s.cfgf = false →
    let n := s.latchA.toNat
    let p := s.latchB.toNat
    let d := s.latchC.toNat
    (n = 0 → exec c s = .next s.endedOk)
    ∧ (1 ≤ n → 8 * s.params.bufBytes < p + n → exec c s = .next (s.faulted .range p n (s.roomAt p)))
    ∧ (1 ≤ n → p + n ≤ 8 * s.params.bufBytes → 8 * s.params.bufBytes < d + n →
        exec c s = .next (s.faulted .range d n (s.roomAt d)))
    ∧ (1 ≤ n → p + n ≤ 8 * s.params.bufBytes → d + n ≤ 8 * s.params.bufBytes →
        ∃ m, BitsReplaced o d n (fun j => bitGet o s.buf.read (p + j)) s.buf m
          ∧ exec c s = .next { s.endedOk with buf := m })

/-! ### Integers, unit conversions, no operation -/

/-- spec/42_integer.md R201: RDINT (encoding, checks, the bytes of the result from the least significant up, its extension;
nothing else changes). -/
def Obligations.IntegerReads : Prop :=
  (∀ (n : BitVec 7) (r g : Bool),
    decode (0x30 ||| n.setWidth 32 <<< 8 ||| (BitVec.ofBool r).setWidth 32 <<< 15 ||| (BitVec.ofBool g).setWidth 32 <<< 16)
      = .ok (.rdint n r g))
  ∧ ∀ (s : State) (n : BitVec 7) (r g : Bool), s.cfgf = false →
    let a := s.latchB.toNat
    let byte := fun i => s.buf.read (if r then a + n.toNat - 1 - i else a + i)
    (8 < n.toNat ∨ (1 ≤ n.toNat ∧ s.params.bufBytes < a + n.toNat) →
      exec (.rdint n r g) s = .next (s.faulted .range (8 * a) (8 * n.toNat) (s.roomAt (8 * a))))
    ∧ (n.toNat = 0 → exec (.rdint n r g) s = .next (s.endedWith 0))
    ∧ (1 ≤ n.toNat → n.toNat ≤ 8 → a + n.toNat ≤ s.params.bufBytes →
        ∃ v : Word, (∀ k, k < 64 → v.getLsbD k =
            if k < 8 * n.toNat then (byte (k / 8)).getLsbD (k % 8) else (g && (byte (n.toNat - 1)).getLsbD 7))
          ∧ exec (.rdint n r g) s = .next (s.endedWith v))

/-- spec/42_integer.md R202: WRINT (encoding, checks, the bytes of BUF that change; nothing else changes). -/
def Obligations.IntegerWrites : Prop :=
  (∀ (n : BitVec 7) (r : Bool),
    decode (0x31 ||| n.setWidth 32 <<< 8 ||| (BitVec.ofBool r).setWidth 32 <<< 15) = .ok (.wrint n r)
    ∧ decode (0x10031 ||| n.setWidth 32 <<< 8 ||| (BitVec.ofBool r).setWidth 32 <<< 15) = .error .unusedField)
  ∧ ∀ (s : State) (n : BitVec 7) (r : Bool), s.cfgf = false →
    let a := s.latchB.toNat
    (8 < n.toNat ∨ (1 ≤ n.toNat ∧ s.params.bufBytes < a + n.toNat) →
      exec (.wrint n r) s = .next (s.faulted .range (8 * a) (8 * n.toNat) (s.roomAt (8 * a))))
    ∧ (n.toNat = 0 → exec (.wrint n r) s = .next s.endedOk)
    ∧ (1 ≤ n.toNat → n.toNat ≤ 8 → a + n.toNat ≤ s.params.bufBytes →
        ∃ m : Memory, (∀ x, m.read x =
            if a ≤ x ∧ x < a + n.toNat then
              s.latchA.extractLsb' (8 * (if r then a + n.toNat - 1 - x else x - a)) 8
            else s.buf.read x)
          ∧ exec (.wrint n r) s = .next { s.endedOk with buf := m })

/-- spec/42_integer.md R208: (a) reading back with the same R gives the low bytes of the value, (b) with the other R their
byte reversal, (c) which for 2, 4 and 8 bytes is what BSWP gives. -/
def Obligations.IntegerLaws : Prop :=
  (∀ (s : State) (n : BitVec 7) (r : Bool), s.cfgf = false → n.toNat ≤ 8 →
    s.latchB.toNat + n.toNat ≤ s.params.bufBytes →
    ∃ t u v, exec (.wrint n r) s = .next t ∧ exec (.rdint n r false) t = .next u ∧ exec (.rdint n (!r) false) t = .next v
      ∧ u.fcode = .ok ∧ u.res.toNat = s.latchA.toNat % 2 ^ (8 * n.toNat)
      ∧ v.fcode = .ok ∧ SwappedBytes n.toNat u.res v.res)
  ∧ ∀ (n : BitVec 7) (c : Instr), (n, c) ∈ [((2 : BitVec 7), Instr.bswpS), (4, .bswpI), (8, .bswpL)] →
    ∀ (s : State) (r : Bool), s.cfgf = false → s.latchB.toNat + n.toNat ≤ s.params.bufBytes →
    ∃ t v w, exec (.wrint n r) s = .next t ∧ exec (.rdint n (!r) false) t = .next v
      ∧ exec c { s with latchA := BitVec.ofNat 64 (s.latchA.toNat % 2 ^ (8 * n.toNat)) } = .next w
      ∧ w.fcode = .ok ∧ v.res = w.res

/-- spec/20_memory.md R66: a byte-aligned field of whole bytes reads them as a big-endian number under MostSignificant and as
a little-endian number under LeastSignificant, which is what RDINT reads with R = 1 and with R = 0. All four reads end OK. -/
def Obligations.AlignedFieldsAreIntegers : Prop :=
  ∀ (s : State) (k a : Nat), s.cfgf = false → k ≤ 8 → a + k ≤ s.params.bufBytes → 8 * a < 2 ^ 64 →
    ∃ t u v w,
      exec (.rdbitsM (BitVec.ofNat 7 (8 * k))) { s with latchB := BitVec.ofNat 64 (8 * a) } = .next t
      ∧ exec (.rdint (BitVec.ofNat 7 k) true false) { s with latchB := BitVec.ofNat 64 a } = .next u
      ∧ exec (.rdbitsL (BitVec.ofNat 7 (8 * k))) { s with latchB := BitVec.ofNat 64 (8 * a) } = .next v
      ∧ exec (.rdint (BitVec.ofNat 7 k) false false) { s with latchB := BitVec.ofNat 64 a } = .next w
      ∧ t.fcode = .ok ∧ u.fcode = .ok ∧ t.res = u.res ∧ v.fcode = .ok ∧ w.fcode = .ok ∧ v.res = w.res

/-- spec/42_integer.md R203 to R206: the unit conversions (encoding, overflow fault, result; nothing else changes). -/
def Obligations.UnitConversions : Prop :=
  (decode 0x38 = .ok .b2by ∧ decode 0x39 = .ok .by2b ∧ decode 0x3A = .ok .by2w ∧ decode 0x3B = .ok .w2by)
  ∧ ∀ s : State, s.cfgf = false →
    let x := s.latchA.toNat
    let wb := match s.params.wordBytes with | .four => 4 | .eight => 8
    (∃ r : Word, x ≤ 8 * r.toNat ∧ 8 * r.toNat < x + 8 ∧ exec .b2by s = .next (s.endedWith r))
    ∧ (∃ r : Word, x ≤ wb * r.toNat ∧ wb * r.toNat < x + wb ∧ exec .by2w s = .next (s.endedWith r))
    ∧ (2 ^ 64 - 1 < 8 * x → exec .by2b s = .next (s.faulted .range 0 x ((2 ^ 64 - 1) / 8)))
    ∧ (8 * x ≤ 2 ^ 64 - 1 → ∃ r : Word, r.toNat = 8 * x ∧ exec .by2b s = .next (s.endedWith r))
    ∧ (2 ^ 64 - 1 < x * wb → exec .w2by s = .next (s.faulted .range 0 x ((2 ^ 64 - 1) / wb)))
    ∧ (x * wb ≤ 2 ^ 64 - 1 → ∃ r : Word, r.toNat = x * wb ∧ exec .w2by s = .next (s.endedWith r))

/-- spec/42_integer.md R207: NOP, its word, and ConfigurationFault while CFGF = 1. -/
def Obligations.NopResult : Prop :=
  decode 0 = .ok .nop ∧ (∀ w : CmdWord, w ≠ 0 → decode w ≠ .ok .nop)
  ∧ (∀ w : CmdWord, w ≠ 0 → w.extractLsb' 0 8 = 0 → decode w = .error .unusedField)
  ∧ ∀ s : State, (s.cfgf = false → exec .nop s = .next s.endedOk)
    ∧ (s.cfgf = true → exec .nop s = .next (s.faulted .configuration 0 s.cmd.toNat 0))

/-! ### The reader -/

/-- spec/10_state.md R43, R44: W0, ABS, AVAIL and the phases; spec/43_reader.md R234, R238: what recycling and an advance do to
the cursor, and that recycling keeps ABS, AVAIL and the unread bytes. -/
def Obligations.ReaderArithmetic : Prop :=
  ∀ (p : Params) (r : Reader), r.ok p →
    r.w0 + r.cache.length = r.srcPos ∧ r.abs = 8 * (r.w0 + r.byteIdx) + r.bitIdx
    ∧ (if r.byteIdx < r.cache.length then r.avail + r.bitIdx = 8 * (r.cache.length - r.byteIdx) else r.avail = 0)
    ∧ (r.phase = .empty ↔ r.avail = 0)
    ∧ (r.phase = .filled ↔ 0 < r.avail ∧ r.byteIdx = 0 ∧ r.bitIdx = 0)
    ∧ (r.phase = .partiallyConsumed ↔ 0 < r.avail ∧ ¬(r.byteIdx = 0 ∧ r.bitIdx = 0))
    ∧ (r.recycle.cache.length = r.cache.length - r.byteIdx ∧ r.recycle.byteIdx = 0 ∧ r.recycle.bitIdx = r.bitIdx
        ∧ r.recycle.cap = r.cap ∧ r.recycle.srcPos = r.srcPos ∧ r.recycle.abs = r.abs ∧ r.recycle.avail = r.avail
        ∧ ∀ j, j < r.cache.length - r.byteIdx → r.recycle.cache[j]? = r.cache[r.byteIdx + j]?)
    ∧ (∀ n, (r.advance n).abs = r.abs + n ∧ (r.advance n).bitIdx < 8 ∧ (r.advance n).cache = r.cache
        ∧ (r.advance n).srcPos = r.srcPos ∧ (r.advance n).cap = r.cap)

/-- spec/43_reader.md R240: RD.OPEN (encoding; illegal while a reader is open; RangeFault; the SrcPosition request; the
reader that its answer opens; nothing else changes). That it asks SrcPosition also where an earlier RD.CLOSE has sent SrcClose, after
which spec/20_memory.md R75 has no further request go to that source, is the model's choice (DESIGN CHOICE,
notes/assumptions/22.md). -/
def Obligations.OpenReader : Prop :=
  (∀ (ord : BitVec 2) (own : Bool),
    decode (0x80 ||| ord.setWidth 32 <<< 17 ||| (BitVec.ofBool own).setWidth 32 <<< 19)
      = if ord = 3 then .error .reservedOrd else .ok (.rdOpen ord own))
  ∧ ∀ (s : State) (ord : BitVec 2) (own : Bool) (o : BitOrder), s.cfgf = false → ord ≠ 3 →
    s.params.sysBitOrder = some o →
    (s.reader.isSome = true → exec (.rdOpen ord own) s = .next (s.faulted .illegalCommand 0 s.cmd.toNat 0))
    ∧ (s.reader = none → s.params.cacheMax < s.latchA.toNat →
        exec (.rdOpen ord own) s = .next (s.faulted .range 0 s.latchA.toNat s.params.cacheMax))
    ∧ (s.reader = none → s.latchA.toNat ≤ s.params.cacheMax → s.port = .idle →
        exec (.rdOpen ord own) s = .next (s.asking .position))
    ∧ ∀ q : Option Nat, s.reader = none → s.latchA.toNat ≤ s.params.cacheMax →
        s.port = .answered .position (.position q) →
        exec (.rdOpen ord own) s = .next { s.endedOk with
          reader := some {
            own := own
            order := if ord = 0 then o else if ord = 1 then .mostSignificant else .leastSignificant
            cap := s.latchA.toNat, cache := [], byteIdx := 0, bitIdx := 0
            srcPos := match q with | none => 0 | some q => q } }

/-- spec/43_reader.md R241: RD.CLOSE (encoding; nothing on a closed reader; SrcClose only for an owned source; every reader
register 0 afterwards; nothing else changes). That the command ends in the step that sends SrcClose, with no answer awaited, is the
model's reading (DEDUCED, notes/assumptions/11.md). -/
def Obligations.CloseReader : Prop :=
  decode 0x81 = .ok .rdClose
  ∧ ∀ s : State, s.cfgf = false →
    (s.reader = none → exec .rdClose s = .next s.endedOk)
    ∧ ∀ r, s.reader = some r →
      ∃ t, exec .rdClose s = .next t
        ∧ t = { s.endedOk with reader := none, sent := if r.own = true then .close :: s.sent else s.sent }
        ∧ t.readReg 12 = some 0 ∧ t.readReg 13 = some 0 ∧ t.readReg 14 = some 0 ∧ t.readReg 15 = some 0

/-- spec/43_reader.md R242: RD.FILL (encoding; recycling; one POLL request for the free space, none where there is none; the
result; nothing else changes). -/
def Obligations.FillReader : Prop :=
  decode 0x82 = .ok .rdFill
  ∧ ∀ (s : State) (r : Reader), s.cfgf = false → s.reader = some r → r.ok s.params →
    let c : Reader := { r with cache := r.cache.drop r.byteIdx, byteIdx := 0 }
    (s.port = .idle → c.cache.length < c.cap →
      exec .rdFill s = .next { s.asking (.read (c.cap - c.cache.length) .poll) with reader := some c })
    ∧ (s.port = .idle → c.cache.length = c.cap →
        exec .rdFill s = .next { s.endedWith (BitVec.ofNat 64 r.avail) with reader := some c })
    ∧ ∀ (n : Nat) (bs : List Byte), s.port = .answered (.read n .poll) (.bytes bs) →
        exec .rdFill s = .next
          { s.endedWith (BitVec.ofNat 64 (r.pulled bs).avail) with reader := some (r.pulled bs) }

/-- spec/43_reader.md R243, R244: RD.AVAIL and RD.REMAIN (encoding, request, result; nothing else changes). -/
def Obligations.AvailAndRemain : Prop :=
  decode 0x83 = .ok .rdAvail ∧ decode 0x84 = .ok .rdRemain
  ∧ ∀ (s : State) (r : Reader), s.cfgf = false → s.reader = some r →
    exec .rdAvail s = .next (s.endedWith (BitVec.ofNat 64 r.avail))
    ∧ (s.port = .idle → exec .rdRemain s = .next (s.asking .length))
    ∧ (s.port = .answered .length (.length none) → exec .rdRemain s = .next (s.endedWith (BitVec.allOnes 64)))
    ∧ ∀ l : Nat, s.port = .answered .length (.length (some l)) →
        exec .rdRemain s = .next (s.endedWith
          (BitVec.ofInt 64 (min (2 ^ 64 - 1) (max 0 (8 * (l : Int) - (r.abs : Int))))))

/-- spec/43_reader.md R245, R246, R231, R237, R238: RD.PEEK and RD.READ where no source request is needed (encoding; RangeFault;
the count 0; the bits from the cursor under the effective order; the cursor; nothing else changes). -/
def Obligations.PeekAndRead : Prop :=
  (∀ (n : BitVec 7) (rv : Bool),
    decode (0x85 ||| n.setWidth 32 <<< 8 ||| (BitVec.ofBool rv).setWidth 32 <<< 15) = .ok (.rdPeek n rv)
    ∧ decode (0x86 ||| n.setWidth 32 <<< 8 ||| (BitVec.ofBool rv).setWidth 32 <<< 15) = .ok (.rdRead n rv))
  ∧ ∀ (s : State) (r : Reader) (n : BitVec 7) (rv : Bool), s.cfgf = false → s.reader = some r → r.ok s.params →
    let e := if rv then r.order.opposite else r.order
    (64 < n.toNat → exec (.rdPeek n rv) s = .next (s.faulted .range r.abs n.toNat r.avail)
      ∧ exec (.rdRead n rv) s = .next (s.faulted .range r.abs n.toNat r.avail))
    ∧ (n.toNat = 0 → exec (.rdPeek n rv) s = .next (s.endedWith 0) ∧ exec (.rdRead n rv) s = .next (s.endedWith 0))
    ∧ (1 ≤ n.toNat → n.toNat ≤ 64 → n.toNat ≤ r.avail → s.port = .idle →
        ∃ v, FieldValue e n.toNat (fun j => bitGet e (fun x => r.cache.getD x 0) (8 * r.byteIdx + r.bitIdx + j)) v
          ∧ exec (.rdPeek n rv) s = .next (s.endedWith v)
          ∧ exec (.rdRead n rv) s = .next { s.endedWith v with reader := some (r.moved n.toNat) })

/-- spec/43_reader.md R232 to R235, R249: a command that ensures n bits and does not find them cached grows the cache to exactly the
need, recycles where the need does not fit behind the cursor, and sends a BLOCKING request for the whole free space, at least one
byte; ABS and AVAIL stay, and nothing else changes. RD.COPYOUT does so for its next chunk of at most 64 bits, after it has copied the
whole chunks that are cached. -/
def Obligations.EnsureAsks : Prop :=
  (∀ (s : State) (r : Reader) (i : Instr) (n : Nat), s.cfgf = false → s.params.legal → s.reader = some r →
    r.ok s.params → s.port = .idle → ensuredBits i r = some n → r.avail < n →
    ∃ c : Reader, EnsuredFor s.params n r c
      ∧ exec i s = .next { s.asking (.read (c.cap - c.cache.length) .blocking) with reader := some c })
  ∧ ∀ (s : State) (r : Reader), s.cfgf = false → s.params.legal → s.reader = some r → r.ok s.params → s.port = .idle →
    let n := s.latchA.toNat
    let d := s.latchB.toNat
    let done := 64 * (r.avail / 64)
    d + n ≤ 8 * s.params.bufBytes → r.avail < n →
    ∃ (c : Reader) (m : Memory), EnsuredFor s.params (min 64 (n - done)) (r.moved done) c
      ∧ BitsReplaced r.order d done
          (fun j => bitGet r.order (fun x => r.cache.getD x 0) (8 * r.byteIdx + r.bitIdx + j)) s.buf m
      ∧ exec .rdCopyout s = .next
          { s.asking (.read (c.cap - c.cache.length) .blocking) with reader := some c, buf := m, copied := done }

/-- spec/43_reader.md R232, R235, R245, R246, R248: the answer of a BLOCKING request, at least one byte, is appended; where
the bits are then cached the command ends with its result and its cursor, else it asks for the free space again. -/
def Obligations.AnswerGoesOn : Prop :=
  ∀ (s : State) (r : Reader) (i : Instr) (n k : Nat) (bs : List Byte), s.cfgf = false → s.reader = some r →
    s.port = .answered (.read k .blocking) (.bytes bs) → bs ≠ [] → ensuredBits i r = some n →
    let c := r.pulled bs
    (8 * (c.cache.length - r.byteIdx) < r.bitIdx + n →
      exec i s = .next { s.asking (.read (c.cap - c.cache.length) .blocking) with reader := some c })
    ∧ (r.bitIdx + n ≤ 8 * (c.cache.length - r.byteIdx) →
        (∀ (m : BitVec 7) (rv : Bool), let e := if rv then r.order.opposite else r.order
          ∃ v, FieldValue e n (fun j => bitGet e (fun x => c.cache.getD x 0) (8 * r.byteIdx + r.bitIdx + j)) v
            ∧ (i = .rdPeek m rv → exec i s = .next { s.endedWith v with reader := some c })
            ∧ (i = .rdRead m rv → exec i s = .next { s.endedWith v with reader := some (c.moved n) }))
        ∧ (i = .rdAlign → exec i s = .next { s.endedOk with reader := some (c.moved n) }))

/-- spec/60_exceptions.md R303: EndOfDataFault is raised exactly where a BLOCKING read of RD.PEEK, RD.READ, RD.ALIGN or
RD.COPYOUT answers end of source; its context; and RES of RD.COPYOUT (spec/43_reader.md R249). -/
def Obligations.EndOfData : Prop :=
  (∀ (s : State) (r : Reader) (i : Instr) (n k : Nat), s.cfgf = false → s.reader = some r →
    s.port = .answered (.read k .blocking) (.bytes []) → ensuredBits i r = some n →
    exec i s = .next (s.faulted .endOfData r.abs n r.avail))
  ∧ (∀ (s : State) (r : Reader) (k : Nat), s.cfgf = false → s.reader = some r →
    s.port = .answered (.read k .blocking) (.bytes []) → 1 ≤ s.latchA.toNat →
    s.latchB.toNat + s.latchA.toNat ≤ 8 * s.params.bufBytes →
    exec .rdCopyout s = .next
      { s.faulted .endOfData r.abs (s.latchA.toNat - s.copied) r.avail with res := BitVec.ofNat 64 s.copied })
  ∧ ∀ (s t : State) (i : Instr), s.busy = true → exec i s = .next t → t.busy = false → t.fcode = .endOfData →
    (∃ k, s.port = .answered (.read k .blocking) (.bytes []))
    ∧ (i = .rdCopyout ∨ ∃ r n, s.reader = some r ∧ ensuredBits i r = some n)

/-- spec/43_reader.md R236 (c), R251 (c): whatever the capacity, the recycling and the sizes of the answers, a completed
RD.PEEK or RD.READ returns the field of the source's own bytes at ABS; RD.PEEK leaves ABS, RD.READ moves it by n. -/
def Obligations.PeekReadSource : Prop :=
  ∀ (S : Nat → Byte) (s t : State) (r : Reader) (n : BitVec 7) (rv : Bool) (i : Instr), s.cfgf = false →
    s.busy = true → s.params.legal → s.reader = some r → r.ok s.params → s.windowOf S →
    (s.port = .idle ∨ ∃ k bs, s.port = .answered (.read k .blocking) (.bytes bs) ∧ bs.length ≤ r.cap - r.cache.length
      ∧ ∀ j, j < bs.length → bs.getD j 0 = S (r.srcPos + j)) →
    i = .rdPeek n rv ∨ i = .rdRead n rv → exec i s = .next t → t.busy = false → t.fcode = .ok →
    let e := if rv then r.order.opposite else r.order
    FieldValue e n.toNat (fun j => bitGet e S (r.abs + j)) t.res
    ∧ ∃ c, t.reader = some c ∧ c.abs = if i = .rdPeek n rv then r.abs else r.abs + n.toNat

/-- spec/43_reader.md R247: RD.SEEK (encoding; RangeFault on a target before byte 0 or beyond 2^64 - 1 bytes; in the window the
cursor alone moves; else SrcSeek, and OK or FAIL; nothing else changes). It follows the pseudocode of R247 for a distance of 0
too (notes/assumptions/14.md). -/
def Obligations.SeekReader : Prop :=
  decode 0x87 = .ok .rdSeek
  ∧ ∀ (s : State) (r : Reader), s.cfgf = false → s.reader = some r →
    (∀ t : Int, t = (r.abs : Int) + s.latchA.toInt → t < 0 ∨ 2 ^ 64 ≤ t / 8 →
      exec .rdSeek s = .next (s.faulted .range r.abs s.latchA.toNat r.avail))
    ∧ ∀ t : Nat, (t : Int) = (r.abs : Int) + s.latchA.toInt → t / 8 < 2 ^ 64 →
      (8 * (r.srcPos - r.cache.length) ≤ t → t ≤ 8 * r.srcPos →
        exec .rdSeek s = .next { s.endedOk with
          reader := some { r with byteIdx := t / 8 - (r.srcPos - r.cache.length), bitIdx := t % 8 } })
      ∧ (t < 8 * (r.srcPos - r.cache.length) ∨ 8 * r.srcPos < t →
        (s.port = .idle → exec .rdSeek s = .next (s.asking (.seek (t / 8))))
        ∧ ∀ q, (s.port = .answered (.seek q) (.seek true) →
            exec .rdSeek s = .next { s.endedOk with
              reader := some { r with cache := [], byteIdx := 0, bitIdx := t % 8, srcPos := t / 8 } })
          ∧ (s.port = .answered (.seek q) (.seek false) →
            exec .rdSeek s = .next (s.faulted .range r.abs s.latchA.toNat r.avail)))

/-- spec/43_reader.md R248: RD.ALIGN (encoding; nothing on a byte boundary; else the cursor at the next byte where the byte
that holds it is cached, with no request; nothing else changes). -/
def Obligations.AlignReader : Prop :=
  decode 0x88 = .ok .rdAlign
  ∧ ∀ (s : State) (r : Reader), s.cfgf = false → s.reader = some r → r.ok s.params →
    (r.bitIdx = 0 → exec .rdAlign s = .next s.endedOk)
    ∧ (1 ≤ r.bitIdx → r.byteIdx < r.cache.length → s.port = .idle →
        exec .rdAlign s = .next { s.endedOk with reader := some { r with byteIdx := r.byteIdx + 1, bitIdx := 0 } })

/-- spec/43_reader.md R249: RD.COPYOUT (encoding; the count 0; RangeFault; a copy whose bits are all cached, with the bits of
BUF that change, RES and the cursor; nothing else changes). -/
def Obligations.CopyoutCached : Prop :=
  decode 0x89 = .ok .rdCopyout
  ∧ ∀ (s : State) (r : Reader), s.cfgf = false → s.reader = some r → r.ok s.params →
    let n := s.latchA.toNat
    let d := s.latchB.toNat
    (n = 0 → exec .rdCopyout s = .next (s.endedWith 0))
    ∧ (1 ≤ n → 8 * s.params.bufBytes < d + n → exec .rdCopyout s = .next (s.faulted .range d n (s.roomAt d)))
    ∧ (1 ≤ n → d + n ≤ 8 * s.params.bufBytes → n ≤ r.avail → s.port = .idle →
        ∃ m, BitsReplaced r.order d n
            (fun j => bitGet r.order (fun x => r.cache.getD x 0) (8 * r.byteIdx + r.bitIdx + j)) s.buf m
          ∧ exec .rdCopyout s = .next
              { s.endedWith (BitVec.ofNat 64 n) with buf := m, reader := some (r.moved n) })

/-- spec/43_reader.md R249, R236 (c), spec/60_exceptions.md R311 (b): every step of RD.COPYOUT puts a further run of the source's
own bits, from ABS on, at the next positions of BUF, and nothing else into BUF; the cursor moves past what was copied; a command
that waits has copied whole chunks; one that ends has copied n bits or met the end of the source, and RES says how many. -/
def Obligations.CopyoutSource : Prop :=
  ∀ (S : Nat → Byte) (s t : State) (r : Reader), s.cfgf = false → s.params.legal → s.busy = true →
    s.reader = some r → r.ok s.params → s.windowOf S →
    let n := s.latchA.toNat
    let d := s.latchB.toNat
    1 ≤ n → d + n ≤ 8 * s.params.bufBytes → s.copied < n → s.copied % 64 = 0 →
    (s.port = .idle ∧ s.copied = 0
      ∨ ∃ k bs, s.port = .answered (.read k .blocking) (.bytes bs) ∧ bs.length ≤ r.cap - r.cache.length
        ∧ ∀ j, j < bs.length → bs.getD j 0 = S (r.srcPos + j)) →
    exec .rdCopyout s = .next t →
    ∃ (c : Reader) (done : Nat), t.reader = some c ∧ s.copied ≤ done ∧ done ≤ n ∧ c.abs = r.abs + (done - s.copied)
      ∧ BitsReplaced r.order (d + s.copied) (done - s.copied) (fun j => bitGet r.order S (r.abs + j)) s.buf t.buf
      ∧ (t.busy = true → t.copied = done ∧ done < n ∧ done % 64 = 0
          ∧ t.port = .waiting (.read (c.cap - c.cache.length) .blocking))
      ∧ (t.busy = false → t.res = BitVec.ofNat 64 done
          ∧ (t.fcode = .ok ∧ done = n ∨ t.fcode = .endOfData ∧ done < n ∧ done % 64 = 0))

/-- spec/43_reader.md R236 (a): every step keeps the cache a window of the source's bytes, for any source, wherever the source
answers with its own bytes. -/
def Obligations.WindowKept : Prop :=
  ∀ (S : Nat → Byte) (s t : State), Inv s → s.windowOf S → s.answersFrom S → step s = .next t → t.windowOf S

/-! ### Every state, every command -/

/-- spec/10_state.md R42, R46, spec/20_memory.md R60, R71, spec/60_exceptions.md R301, R304: what holds of every state of a run is
kept by every step, whatever turn it takes. -/
def Obligations.InvariantKept : Prop :=
  ∀ s t : State, Inv s → step s = .next t → Inv t

/-- The invariant holds when reset ends, for all legal parameters and any contents of BUF (spec/70_reset_and_hazards.md R341), and
at the model's `State.reset` (DESIGN CHOICE, notes/assumptions/1.md and 2.md). -/
def Obligations.InvariantAtReset : Prop :=
  (∀ (p : Params) (m : Memory), p.legal → m.wf = true → m.within p.bufBytes = true → Inv (State.resetWith p m))
  ∧ Inv State.reset

/-- spec/60_exceptions.md R301: while CFGF = 1 every accepted command, whatever its word, completes at once with
ConfigurationFault and changes nothing else (the premise that no racing access is left to its end is part of the invariant: while
CFGF = 1 no byte of BUF is used). -/
def Obligations.ConfigurationFault : Prop :=
  (∀ s : State, s.cfgf = true → s.busy = true → s.port = .idle → s.raced = [] → s.inputs = [] →
    step s = .next (s.faulted .configuration 0 s.cmd.toNat 0))
  ∧ ∀ (s : State) (rest : List Input), s.cfgf = true → s.busy = true → s.port = .idle → s.raced = [] →
    s.inputs = .run :: rest →
    step s = .next (State.faulted { s with inputs := rest } .configuration 0 s.cmd.toNat 0)

/-- spec/60_exceptions.md R305, spec/30_encoding.md R92, R100, spec/43_reader.md R239: a word that is no command, and a reader
command with no reader to act on, complete with IllegalCommandFault and change nothing else, whether the block's turn is
scheduled or not (a word that is no command uses no byte of BUF, so the invariant gives the premise that no racing access is left to
its end). -/
def Obligations.IllegalCommand : Prop :=
  (∀ (s : State) (e : DecodeError), s.cfgf = false → s.busy = true → s.port = .idle → s.raced = [] →
    decode s.cmd = .error e →
    (s.inputs = [] → step s = .next (s.faulted .illegalCommand 0 s.cmd.toNat 0))
    ∧ ∀ rest, s.inputs = .run :: rest →
      step s = .next (State.faulted { s with inputs := rest } .illegalCommand 0 s.cmd.toNat 0))
  ∧ (∀ (s : State) (i : Instr), s.cfgf = false → s.reader = none → isReaderCommand i = true →
    (∀ ord own, i ≠ .rdOpen ord own) → i ≠ .rdClose →
    exec i s = .next (s.faulted .illegalCommand 0 s.cmd.toNat 0))
  ∧ ∀ (s : State) (ord : BitVec 2) (own : Bool), s.cfgf = false → s.reader.isSome = true →
    exec (.rdOpen ord own) s = .next (s.faulted .illegalCommand 0 s.cmd.toNat 0)

/-- spec/60_exceptions.md R307, spec/70_reset_and_hazards.md R351, R353: a started command, in its first step, either ends, or
waits, BUSY, for the answer to one request of its own, with FCODE, the fault context and RES as they were; only reader commands
wait. -/
def Obligations.CommandEndsOrWaits : Prop :=
  ∀ (s : State) (i : Instr), s.busy = true → s.port = .idle →
    ∃ t, exec i s = .next t
      ∧ (t.busy = false ∧ t.port = .idle
          ∨ t.busy = true ∧ isReaderCommand i = true ∧ t.fcode = s.fcode ∧ t.foff = s.foff ∧ t.fcnt = s.fcnt
            ∧ t.favail = s.favail ∧ t.res = s.res
            ∧ ∃ req, t.port = .waiting req ∧ awaits i req = true ∧ t.sent = req :: s.sent)

/-- spec/60_exceptions.md R311, spec/10_state.md R28, R29: the step in which a command raises a fault changes nothing but STATUS and
the fault context (for EndOfDataFault of RD.COPYOUT also RES); a step in which a command ends OK leaves the fault context. -/
def Obligations.FaultChangesNothingElse : Prop :=
  ∀ (s t : State) (i : Instr), s.busy = true → exec i s = .next t → t.busy = false →
    (t.fcode = .ok → t.foff = s.foff ∧ t.fcnt = s.fcnt ∧ t.favail = s.favail)
    ∧ (t.fcode ≠ .ok →
        t = { s with
          busy := false, fcode := t.fcode, port := .idle, copied := 0
          foff := t.foff, fcnt := t.fcnt, favail := t.favail, res := t.res }
        ∧ (¬(i = .rdCopyout ∧ t.fcode = .endOfData) → t.res = s.res))

/-- spec/10_state.md R22, R25 to R27, R30, R33, R34 and R46, spec/00_scope.md R9, R10: no command writes OPA, OPB, OPC, the parameters or CFGF, nor its own
word and latched operands, nor anything of the host interface. -/
def Obligations.HostRegistersKept : Prop :=
  ∀ (s t : State) (i : Instr), exec i s = .next t →
    t.opa = s.opa ∧ t.opb = s.opb ∧ t.opc = s.opc ∧ t.params = s.params ∧ t.cfgf = s.cfgf ∧ t.cmd = s.cmd
    ∧ t.latchA = s.latchA ∧ t.latchB = s.latchB ∧ t.latchC = s.latchC
    ∧ t.before = s.before ∧ t.held = s.held ∧ t.raced = s.raced ∧ t.inputs = s.inputs ∧ t.replies = s.replies
    ∧ t.draws = s.draws

/-- spec/20_memory.md R60, spec/30_encoding.md R98, spec/10_state.md R22, spec/60_exceptions.md R307: only the commands that say so
write BUF; only those with a result write RES; only reader commands touch the reader and the source port. -/
def Obligations.FamilyFrames : Prop :=
  ∀ (s t : State) (i : Instr), exec i s = .next t →
    (writesBuf i = false → ∀ a, t.buf.read a = s.buf.read a)
    ∧ (hasResult i = false → t.res = s.res)
    ∧ (isReaderCommand i = false → t.reader = s.reader ∧ t.sent = s.sent ∧ t.busy = false)

/-- spec/42_integer.md R200: SYS_BYTE_ORDER changes no computation of any command. -/
def Obligations.ByteOrderIrrelevant : Prop :=
  ∀ (s t : State) (i : Instr) (b : Option ByteOrder), exec i s = .next t →
    exec i { s with params := { s.params with sysByteOrder := b } }
      = .next { t with params := { t.params with sysByteOrder := b } }

/-- spec/70_reset_and_hazards.md R352, spec/20_memory.md R79, spec/30_encoding.md R98: what the host writes to OPA, OPB and OPC
while a command runs does not change what the command does; nor does the latched value of an operand that its opcode does not
list. -/
def Obligations.OperandsLatched : Prop :=
  ∀ (s t : State) (i : Instr) (x y z : Word), exec i s = .next t →
    exec i { s with opa := x, opb := y, opc := z } = .next { t with opa := x, opb := y, opc := z }
    ∧ (usesOpa i = false → exec i { s with latchA := x } = .next { t with latchA := x })
    ∧ (usesOpb i = false → exec i { s with latchB := y } = .next { t with latchB := y })
    ∧ (usesOpc i = false → exec i { s with latchC := z } = .next { t with latchC := z })

/-- spec/20_memory.md R81, spec/70_reset_and_hazards.md R354: the bytes that a host access races for are all that matter: a
running command writes no other byte of BUF, and what stands in another byte changes nothing of what it does; and a byte that an
ended command is not taken to have written is as it was before its last step. -/
def Obligations.UntouchedBytes : Prop :=
  ∀ (s t : State) (i : Instr) (x : Nat) (b : Byte), s.cfgf = false → s.busy = true → decode s.cmd = .ok i →
    exec i s = .next t →
    (s.uses x = false →
      t.buf.read x = s.buf.read x
      ∧ ∃ u, exec i { s with buf := s.buf.write x b } = .next u ∧ u = { t with buf := u.buf }
        ∧ ∀ a, u.buf.read a = if a = x then b else t.buf.read a)
    ∧ (t.busy = false → s.wrote t x = false → t.buf.read x = s.buf.read x)

/-! ### Registers, host, reset -/

/-- spec/10_state.md R22 to R24, R30 to R38: what a host read of each register returns, field by field. -/
def Obligations.RegisterReads : Prop :=
  ∀ s : State,
    (∃ v, s.readReg 0 = some v ∧ v = s.cmd.setWidth 64)
    ∧ (∃ v, s.readReg 1 = some v ∧ v.getLsbD 0 = s.busy ∧ v.getLsbD 1 = s.cfgf ∧ v.extractLsb' 2 2 = 0
        ∧ v.extractLsb' 4 4 = (match s.fcode with
            | .ok => 0 | .configuration => 1 | .range => 2 | .endOfData => 3 | .sinkWrite => 4 | .illegalCommand => 5)
        ∧ v.extractLsb' 8 56 = 0)
    ∧ s.readReg 2 = some s.opa ∧ s.readReg 3 = some s.opb ∧ s.readReg 4 = some s.opc ∧ s.readReg 5 = some s.res
    ∧ s.readReg 6 = some s.foff ∧ s.readReg 7 = some s.fcnt ∧ s.readReg 8 = some s.favail
    ∧ (∃ v, s.readReg 9 = some v
        ∧ v.extractLsb' 0 2 = (match s.params.sysBitOrder with
            | none => 0 | some .mostSignificant => 1 | some .leastSignificant => 2)
        ∧ v.extractLsb' 2 3 = (match s.params.sysByteOrder with
            | none => 0 | some .big => 1 | some .little => 2 | some .middleBig => 3 | some .middleLittle => 4)
        ∧ v.extractLsb' 5 3 = 0 ∧ v.extractLsb' 8 8 = (match s.params.wordBytes with | .four => 4 | .eight => 8)
        ∧ v.getLsbD 16 = s.params.acceptIndex8 ∧ v.extractLsb' 17 47 = 0)
    ∧ (s.params.legal → (∃ v, s.readReg 10 = some v ∧ v.toNat = s.params.bufBytes)
        ∧ ∃ v, s.readReg 11 = some v ∧ v.toNat = s.params.cacheMax)
    ∧ (s.reader = none → s.readReg 12 = some 0 ∧ s.readReg 13 = some 0 ∧ s.readReg 14 = some 0 ∧ s.readReg 15 = some 0)
    ∧ (∀ r, s.reader = some r → s.params.legal → r.ok s.params →
        (∃ v, s.readReg 12 = some v ∧ v.getLsbD 0 = true ∧ v.getLsbD 1 = r.own
          ∧ v.extractLsb' 2 2 = (match r.order with | .mostSignificant => 1 | .leastSignificant => 2)
          ∧ v.extractLsb' 4 60 = 0)
        ∧ (∃ v, s.readReg 13 = some v ∧ (v.extractLsb' 0 3).toNat = r.bitIdx ∧ v.extractLsb' 3 29 = 0
          ∧ (v.extractLsb' 32 32).toNat = r.byteIdx)
        ∧ (∃ v, s.readReg 14 = some v ∧ (v.extractLsb' 0 32).toNat = r.cache.length
          ∧ (v.extractLsb' 32 32).toNat = r.cap)
        ∧ (r.srcPos < 2 ^ 64 → ∃ v, s.readReg 15 = some v ∧ v.toNat = r.srcPos))
    ∧ ∀ k, 15 < k → s.readReg k = none

/-- spec/10_state.md R22, R25 to R27, R39, spec/20_memory.md R62, spec/60_exceptions.md R314, spec/70_reset_and_hazards.md R352,
R353: a host access other than a write of CMD and other than to a racing byte acts at once, whether BUSY = 1 and whether a CMD write
is held (notes/assumptions/10.md): register reads and writes, ignored writes, BUF bytes; outside the spaces it is refused
(notes/assumptions/12.md). -/
def Obligations.HostAccesses : Prop :=
  ∀ (s : State) (rest : List Input) (v : Word) (k x : Nat) (b : Byte),
    (s.inputs = .host (.readReg k) :: rest → ∀ y, s.readReg k = some y →
      step s = .next { s with inputs := rest, replies := .reg k y :: s.replies })
    ∧ (s.inputs = .host (.readReg k) :: rest → 15 < k → step s = .refused (.noSuchRegister k))
    ∧ (s.inputs = .host (.writeReg 2 v) :: rest → step s = .next { s with inputs := rest, opa := v })
    ∧ (s.inputs = .host (.writeReg 3 v) :: rest → step s = .next { s with inputs := rest, opb := v })
    ∧ (s.inputs = .host (.writeReg 4 v) :: rest → step s = .next { s with inputs := rest, opc := v })
    ∧ (s.inputs = .host (.writeReg k v) :: rest → k = 1 ∨ (5 ≤ k ∧ k ≤ 15) → step s = .next { s with inputs := rest })
    ∧ (s.inputs = .host (.writeReg k v) :: rest → 15 < k → step s = .refused (.noSuchRegister k))
    ∧ (s.inputs = .host (.readByte x) :: rest → s.busy = false ∨ s.uses x = false → x < s.params.bufBytes →
        step s = .next { s with inputs := rest, replies := .byte x (s.buf.read x) :: s.replies })
    ∧ (s.inputs = .host (.writeByte x b) :: rest → s.busy = false ∨ s.uses x = false → x < s.params.bufBytes →
        ∃ m : Memory, (∀ a, m.read a = if a = x then b else s.buf.read a)
          ∧ step s = .next { s with inputs := rest, buf := m })
    ∧ (s.inputs = .host (.readByte x) :: rest → s.params.bufBytes ≤ x → step s = .refused (.outsideBuf x))
    ∧ (s.inputs = .host (.writeByte x b) :: rest → s.params.bufBytes ≤ x → step s = .refused (.outsideBuf x))

/-- spec/10_state.md R23, spec/70_reset_and_hazards.md R350 to R352: a CMD write is accepted at once while BUSY = 0 and is held, in
order, while BUSY = 1; acceptance latches the operands and sets BUSY; a held write is accepted in the block's turn, scheduled or not, once BUSY = 0. That acceptance is a
step of its own, and that several CMD writes may be held, are the model's choices (notes/assumptions/9.md, 10.md). -/
def Obligations.Handshake : Prop :=
  ∀ (s : State) (rest : List Input) (v : Word),
    (s.inputs = .host (.writeReg 0 v) :: rest → s.busy = false → s.held = [] →
      step s = .next { s with
        inputs := rest, cmd := v.setWidth 32, busy := true, port := .idle, before := s.buf
        latchA := s.opa, latchB := s.opb, latchC := s.opc })
    ∧ (s.inputs = .host (.writeReg 0 v) :: rest → s.busy = true ∨ s.held ≠ [] →
      step s = .next { s with inputs := rest, held := s.held ++ [v.setWidth 32] })
    ∧ ∀ (w : CmdWord) (later : List CmdWord), s.busy = false → s.held = w :: later →
      (s.inputs = .run :: rest →
        step s = .next { s with
          inputs := rest, held := later, cmd := w, busy := true, port := .idle, before := s.buf
          latchA := s.opa, latchB := s.opb, latchC := s.opc })
      ∧ (s.inputs = [] →
        step s = .next { s with
          held := later, cmd := w, busy := true, port := .idle, before := s.buf
          latchA := s.opa, latchB := s.opb, latchC := s.opc })

/-- spec/20_memory.md R76, R81, spec/70_reset_and_hazards.md R354 (the model's form of the race: notes/assumptions/7.md): a read of a
byte that the running command uses gives the old byte, the byte as it stands, or, in the step in which the command ends, the new
byte; a write acts at once, or is left to that step, and there yields to the command where the command has written the byte, or
does not. A byte that RD.COPYOUT has copied only in part is not read or written as it stands. That every byte of RD.COPYOUT's
destination is used, also one that it never copies because the source ends first, is the model's choice (DESIGN CHOICE,
notes/assumptions/23.md). -/
def Obligations.BufRaces : Prop :=
  (∀ (s : State) (rest : List Input) (x : Nat) (b : Byte), s.uses x = true →
    (s.inputs = .host (.readByte x) :: rest →
      step s = .next
          { s with inputs := rest, draws := s.draws + 1, replies := .byte x (s.before.read x) :: s.replies }
      ∨ s.torn x = false ∧ step s = .next
          { s with inputs := rest, draws := s.draws + 1, replies := .byte x (s.buf.read x) :: s.replies }
      ∨ step s = .next { s with inputs := rest, draws := s.draws + 1, raced := s.raced ++ [.read x] })
    ∧ (s.inputs = .host (.writeByte x b) :: rest →
      (∃ yields, step s = .next
          { s with inputs := rest, draws := s.draws + 1, raced := s.raced ++ [.write x b yields] })
      ∨ s.torn x = false ∧ ∃ m m' : Memory, (∀ a, m.read a = if a = x then b else s.buf.read a)
        ∧ (∀ a, m'.read a = if a = x then b else s.before.read a)
        ∧ step s = .next { s with inputs := rest, draws := s.draws + 1, buf := m, before := m' }))
  ∧ ∀ s t : State, t.busy = false →
    (t.raced = [] → s.finish (.next t) = .next t)
    ∧ ∀ (x : Nat) (later : List RacedAccess),
      (t.raced = .read x :: later →
        s.finish (.next t)
          = s.finish (.next { t with raced := later, replies := .byte x (t.buf.read x) :: t.replies }))
      ∧ ∀ (b : Byte) (yields : Bool), t.raced = .write x b yields :: later →
        (yields = true ∧ s.wrote t x = true → s.finish (.next t) = s.finish (.next { t with raced := later }))
        ∧ (yields = false ∨ s.wrote t x = false →
          ∃ m : Memory, (∀ a, m.read a = if a = x then b else t.buf.read a)
            ∧ s.finish (.next t) = s.finish (.next { t with raced := later, buf := m }))

/-- spec/60_exceptions.md R315, spec/70_reset_and_hazards.md R357, R340: a command whose request has no answer stays as it is in
every turn of the block, and the answer to a request that reset has abandoned is ignored. That an answer to any
other request than the outstanding one (never sent, or answered already) is ignored too is the model's choice (DESIGN CHOICE,
notes/assumptions/20.md). -/
def Obligations.WaitingStays : Prop :=
  ∀ (s : State) (req : SrcRequest), s.busy = true → s.port = .waiting req →
    (s.inputs = [] → step s = .next s)
    ∧ (∀ rest, s.inputs = .run :: rest → step s = .next { s with inputs := rest })
    ∧ ∀ k a rest, s.inputs = .answer k a :: rest → k ≠ s.sent.length → step s = .next { s with inputs := rest }

/-- spec/70_reset_and_hazards.md R340 to R342: what a reset leaves, whatever was running: every register at its reset value,
BUF as given (0 where the given contents list no byte: DESIGN CHOICE, notes/assumptions/2.md), nothing sent to the source, and a
later answer to an abandoned request ignored. By the model's choices (DESIGN CHOICE) the whole reset is one step
(notes/assumptions/21.md), an answer to any other request is ignored as well (notes/assumptions/20.md), the racing accesses left to
the end of the command are abandoned with it, and the CMD writes held are dropped or kept (notes/assumptions/8.md). -/
def Obligations.ResetState : Prop :=
  ∀ (s : State) (rest : List Input) (cells : List Host.Cell), s.inputs = .reset cells :: rest →
    ∃ t, step s = .next t ∧ t.inputs = rest ∧ t.params = s.params ∧ t.sent = s.sent
      ∧ t.busy = false ∧ t.fcode = .ok ∧ t.cfgf = (s.params.sysBitOrder.isNone || s.params.sysByteOrder.isNone)
      ∧ t.readReg 1 = some (if s.params.sysBitOrder.isNone || s.params.sysByteOrder.isNone then 2 else 0)
      ∧ (∀ k, k ∈ [0, 2, 3, 4, 5, 6, 7, 8, 12, 13, 14, 15] → t.readReg k = some 0)
      ∧ (∀ k, k ∈ [9, 10, 11] → t.readReg k = s.readReg k)
      ∧ t.reader = none ∧ t.port = .idle ∧ t.raced = [] ∧ (t.held = [] ∨ t.held = s.held)
      ∧ (∀ a, a < s.params.bufBytes → t.buf.read a = ((cells.find? fun c => c.1 == a).map (·.2)).getD 0)
      ∧ ∀ k a more, rest = .answer k a :: more → step t = .next { t with inputs := more }

/-- Where the model stops (spec/20_memory.md R62, R71 to R74, spec/93_implementation_defined.md I12): with a fault only on an
answer outside the contract of its request, with a refusal only in the turn of a host access to no register and no byte of BUF,
which the refusal names. No command and no other turn stops it. The fault is the model's choice (notes/assumptions/12.md). -/
def Obligations.StopsOnlyOutside : Prop :=
  (∀ (s : State) (f : Fault), step s = .fault f →
    ∃ req a rest, s.inputs = .answer s.sent.length a :: rest ∧ s.port = .waiting req ∧ req.allows a = false)
  ∧ ∀ (s : State) (r : Refusal), step s = .refused r →
    ∃ a rest, s.inputs = .host a :: rest
      ∧ ((∃ k v, a = .writeReg k v ∧ 15 < k ∧ r = .noSuchRegister k)
        ∨ (∃ k, a = .readReg k ∧ 15 < k ∧ r = .noSuchRegister k)
        ∨ (∃ x b, a = .writeByte x b ∧ s.params.bufBytes ≤ x ∧ r = .outsideBuf x)
        ∨ ∃ x, a = .readByte x ∧ s.params.bufBytes ≤ x ∧ r = .outsideBuf x)

end
end

