-- ==== Sys2Proof/Laws/State.lean ====
section
/-! SUPPORT. What every named update of the state leaves in every field. -/

namespace Sys2Proof.Machine

@[simp] theorem State.complete_params (s : State) : s.complete.params = s.params := rfl
@[simp] theorem State.complete_cmd (s : State) : s.complete.cmd = s.cmd := rfl
@[simp] theorem State.complete_busy (s : State) : s.complete.busy = false := rfl
@[simp] theorem State.complete_cfgf (s : State) : s.complete.cfgf = s.cfgf := rfl
@[simp] theorem State.complete_fcode (s : State) : s.complete.fcode = .ok := rfl
@[simp] theorem State.complete_opa (s : State) : s.complete.opa = s.opa := rfl
@[simp] theorem State.complete_opb (s : State) : s.complete.opb = s.opb := rfl
@[simp] theorem State.complete_opc (s : State) : s.complete.opc = s.opc := rfl
@[simp] theorem State.complete_res (s : State) : s.complete.res = s.res := rfl
@[simp] theorem State.complete_foff (s : State) : s.complete.foff = s.foff := rfl
@[simp] theorem State.complete_fcnt (s : State) : s.complete.fcnt = s.fcnt := rfl
@[simp] theorem State.complete_favail (s : State) : s.complete.favail = s.favail := rfl
@[simp] theorem State.complete_buf (s : State) : s.complete.buf = s.buf := rfl
@[simp] theorem State.complete_reader (s : State) : s.complete.reader = s.reader := rfl
@[simp] theorem State.complete_latchA (s : State) : s.complete.latchA = s.latchA := rfl
@[simp] theorem State.complete_latchB (s : State) : s.complete.latchB = s.latchB := rfl
@[simp] theorem State.complete_latchC (s : State) : s.complete.latchC = s.latchC := rfl
@[simp] theorem State.complete_port (s : State) : s.complete.port = .idle := rfl
@[simp] theorem State.complete_copied (s : State) : s.complete.copied = 0 := rfl
@[simp] theorem State.complete_before (s : State) : s.complete.before = s.before := rfl
@[simp] theorem State.complete_held (s : State) : s.complete.held = s.held := rfl
@[simp] theorem State.complete_raced (s : State) : s.complete.raced = s.raced := rfl
@[simp] theorem State.complete_inputs (s : State) : s.complete.inputs = s.inputs := rfl
@[simp] theorem State.complete_sent (s : State) : s.complete.sent = s.sent := rfl
@[simp] theorem State.complete_replies (s : State) : s.complete.replies = s.replies := rfl
@[simp] theorem State.complete_draws (s : State) : s.complete.draws = s.draws := rfl

@[simp] theorem State.completeWith_params (s : State) (v : Word) : (s.completeWith v).params = s.params := rfl
@[simp] theorem State.completeWith_cmd (s : State) (v : Word) : (s.completeWith v).cmd = s.cmd := rfl
@[simp] theorem State.completeWith_busy (s : State) (v : Word) : (s.completeWith v).busy = false := rfl
@[simp] theorem State.completeWith_cfgf (s : State) (v : Word) : (s.completeWith v).cfgf = s.cfgf := rfl
@[simp] theorem State.completeWith_fcode (s : State) (v : Word) : (s.completeWith v).fcode = .ok := rfl
@[simp] theorem State.completeWith_opa (s : State) (v : Word) : (s.completeWith v).opa = s.opa := rfl
@[simp] theorem State.completeWith_opb (s : State) (v : Word) : (s.completeWith v).opb = s.opb := rfl
@[simp] theorem State.completeWith_opc (s : State) (v : Word) : (s.completeWith v).opc = s.opc := rfl
@[simp] theorem State.completeWith_res (s : State) (v : Word) : (s.completeWith v).res = v := rfl
@[simp] theorem State.completeWith_foff (s : State) (v : Word) : (s.completeWith v).foff = s.foff := rfl
@[simp] theorem State.completeWith_fcnt (s : State) (v : Word) : (s.completeWith v).fcnt = s.fcnt := rfl
@[simp] theorem State.completeWith_favail (s : State) (v : Word) : (s.completeWith v).favail = s.favail := rfl
@[simp] theorem State.completeWith_buf (s : State) (v : Word) : (s.completeWith v).buf = s.buf := rfl
@[simp] theorem State.completeWith_reader (s : State) (v : Word) : (s.completeWith v).reader = s.reader := rfl
@[simp] theorem State.completeWith_latchA (s : State) (v : Word) : (s.completeWith v).latchA = s.latchA := rfl
@[simp] theorem State.completeWith_latchB (s : State) (v : Word) : (s.completeWith v).latchB = s.latchB := rfl
@[simp] theorem State.completeWith_latchC (s : State) (v : Word) : (s.completeWith v).latchC = s.latchC := rfl
@[simp] theorem State.completeWith_port (s : State) (v : Word) : (s.completeWith v).port = .idle := rfl
@[simp] theorem State.completeWith_copied (s : State) (v : Word) : (s.completeWith v).copied = 0 := rfl
@[simp] theorem State.completeWith_before (s : State) (v : Word) : (s.completeWith v).before = s.before := rfl
@[simp] theorem State.completeWith_held (s : State) (v : Word) : (s.completeWith v).held = s.held := rfl
@[simp] theorem State.completeWith_raced (s : State) (v : Word) : (s.completeWith v).raced = s.raced := rfl
@[simp] theorem State.completeWith_inputs (s : State) (v : Word) : (s.completeWith v).inputs = s.inputs := rfl
@[simp] theorem State.completeWith_sent (s : State) (v : Word) : (s.completeWith v).sent = s.sent := rfl
@[simp] theorem State.completeWith_replies (s : State) (v : Word) : (s.completeWith v).replies = s.replies := rfl
@[simp] theorem State.completeWith_draws (s : State) (v : Word) : (s.completeWith v).draws = s.draws := rfl

@[simp] theorem State.raise_params (s : State) (f : FCode) (a b c : Nat) : (s.raise f a b c).params = s.params := rfl
@[simp] theorem State.raise_cmd (s : State) (f : FCode) (a b c : Nat) : (s.raise f a b c).cmd = s.cmd := rfl
@[simp] theorem State.raise_busy (s : State) (f : FCode) (a b c : Nat) : (s.raise f a b c).busy = false := rfl
@[simp] theorem State.raise_cfgf (s : State) (f : FCode) (a b c : Nat) : (s.raise f a b c).cfgf = s.cfgf := rfl
@[simp] theorem State.raise_fcode (s : State) (f : FCode) (a b c : Nat) : (s.raise f a b c).fcode = f := rfl
@[simp] theorem State.raise_opa (s : State) (f : FCode) (a b c : Nat) : (s.raise f a b c).opa = s.opa := rfl
@[simp] theorem State.raise_opb (s : State) (f : FCode) (a b c : Nat) : (s.raise f a b c).opb = s.opb := rfl
@[simp] theorem State.raise_opc (s : State) (f : FCode) (a b c : Nat) : (s.raise f a b c).opc = s.opc := rfl
@[simp] theorem State.raise_res (s : State) (f : FCode) (a b c : Nat) : (s.raise f a b c).res = s.res := rfl
@[simp] theorem State.raise_foff (s : State) (f : FCode) (a b c : Nat) : (s.raise f a b c).foff = BitVec.ofNat 64 a := rfl
@[simp] theorem State.raise_fcnt (s : State) (f : FCode) (a b c : Nat) : (s.raise f a b c).fcnt = BitVec.ofNat 64 b := rfl
@[simp] theorem State.raise_favail (s : State) (f : FCode) (a b c : Nat) : (s.raise f a b c).favail = BitVec.ofNat 64 c := rfl
@[simp] theorem State.raise_buf (s : State) (f : FCode) (a b c : Nat) : (s.raise f a b c).buf = s.buf := rfl
@[simp] theorem State.raise_reader (s : State) (f : FCode) (a b c : Nat) : (s.raise f a b c).reader = s.reader := rfl
@[simp] theorem State.raise_latchA (s : State) (f : FCode) (a b c : Nat) : (s.raise f a b c).latchA = s.latchA := rfl
@[simp] theorem State.raise_latchB (s : State) (f : FCode) (a b c : Nat) : (s.raise f a b c).latchB = s.latchB := rfl
@[simp] theorem State.raise_latchC (s : State) (f : FCode) (a b c : Nat) : (s.raise f a b c).latchC = s.latchC := rfl
@[simp] theorem State.raise_port (s : State) (f : FCode) (a b c : Nat) : (s.raise f a b c).port = .idle := rfl
@[simp] theorem State.raise_copied (s : State) (f : FCode) (a b c : Nat) : (s.raise f a b c).copied = 0 := rfl
@[simp] theorem State.raise_before (s : State) (f : FCode) (a b c : Nat) : (s.raise f a b c).before = s.before := rfl
@[simp] theorem State.raise_held (s : State) (f : FCode) (a b c : Nat) : (s.raise f a b c).held = s.held := rfl
@[simp] theorem State.raise_raced (s : State) (f : FCode) (a b c : Nat) : (s.raise f a b c).raced = s.raced := rfl
@[simp] theorem State.raise_inputs (s : State) (f : FCode) (a b c : Nat) : (s.raise f a b c).inputs = s.inputs := rfl
@[simp] theorem State.raise_sent (s : State) (f : FCode) (a b c : Nat) : (s.raise f a b c).sent = s.sent := rfl
@[simp] theorem State.raise_replies (s : State) (f : FCode) (a b c : Nat) : (s.raise f a b c).replies = s.replies := rfl
@[simp] theorem State.raise_draws (s : State) (f : FCode) (a b c : Nat) : (s.raise f a b c).draws = s.draws := rfl

@[simp] theorem State.await_params (s : State) (req : SrcRequest) : (s.await req).params = s.params := rfl
@[simp] theorem State.await_cmd (s : State) (req : SrcRequest) : (s.await req).cmd = s.cmd := rfl
@[simp] theorem State.await_busy (s : State) (req : SrcRequest) : (s.await req).busy = s.busy := rfl
@[simp] theorem State.await_cfgf (s : State) (req : SrcRequest) : (s.await req).cfgf = s.cfgf := rfl
@[simp] theorem State.await_fcode (s : State) (req : SrcRequest) : (s.await req).fcode = s.fcode := rfl
@[simp] theorem State.await_opa (s : State) (req : SrcRequest) : (s.await req).opa = s.opa := rfl
@[simp] theorem State.await_opb (s : State) (req : SrcRequest) : (s.await req).opb = s.opb := rfl
@[simp] theorem State.await_opc (s : State) (req : SrcRequest) : (s.await req).opc = s.opc := rfl
@[simp] theorem State.await_res (s : State) (req : SrcRequest) : (s.await req).res = s.res := rfl
@[simp] theorem State.await_foff (s : State) (req : SrcRequest) : (s.await req).foff = s.foff := rfl
@[simp] theorem State.await_fcnt (s : State) (req : SrcRequest) : (s.await req).fcnt = s.fcnt := rfl
@[simp] theorem State.await_favail (s : State) (req : SrcRequest) : (s.await req).favail = s.favail := rfl
@[simp] theorem State.await_buf (s : State) (req : SrcRequest) : (s.await req).buf = s.buf := rfl
@[simp] theorem State.await_reader (s : State) (req : SrcRequest) : (s.await req).reader = s.reader := rfl
@[simp] theorem State.await_latchA (s : State) (req : SrcRequest) : (s.await req).latchA = s.latchA := rfl
@[simp] theorem State.await_latchB (s : State) (req : SrcRequest) : (s.await req).latchB = s.latchB := rfl
@[simp] theorem State.await_latchC (s : State) (req : SrcRequest) : (s.await req).latchC = s.latchC := rfl
@[simp] theorem State.await_port (s : State) (req : SrcRequest) : (s.await req).port = .waiting req := rfl
@[simp] theorem State.await_copied (s : State) (req : SrcRequest) : (s.await req).copied = s.copied := rfl
@[simp] theorem State.await_before (s : State) (req : SrcRequest) : (s.await req).before = s.before := rfl
@[simp] theorem State.await_held (s : State) (req : SrcRequest) : (s.await req).held = s.held := rfl
@[simp] theorem State.await_raced (s : State) (req : SrcRequest) : (s.await req).raced = s.raced := rfl
@[simp] theorem State.await_inputs (s : State) (req : SrcRequest) : (s.await req).inputs = s.inputs := rfl
@[simp] theorem State.await_sent (s : State) (req : SrcRequest) : (s.await req).sent = req :: s.sent := rfl
@[simp] theorem State.await_replies (s : State) (req : SrcRequest) : (s.await req).replies = s.replies := rfl
@[simp] theorem State.await_draws (s : State) (req : SrcRequest) : (s.await req).draws = s.draws := rfl

@[simp] theorem State.withBuf_params (s : State) (m : Memory) : (s.withBuf m).params = s.params := rfl
@[simp] theorem State.withBuf_cmd (s : State) (m : Memory) : (s.withBuf m).cmd = s.cmd := rfl
@[simp] theorem State.withBuf_busy (s : State) (m : Memory) : (s.withBuf m).busy = s.busy := rfl
@[simp] theorem State.withBuf_cfgf (s : State) (m : Memory) : (s.withBuf m).cfgf = s.cfgf := rfl
@[simp] theorem State.withBuf_fcode (s : State) (m : Memory) : (s.withBuf m).fcode = s.fcode := rfl
@[simp] theorem State.withBuf_opa (s : State) (m : Memory) : (s.withBuf m).opa = s.opa := rfl
@[simp] theorem State.withBuf_opb (s : State) (m : Memory) : (s.withBuf m).opb = s.opb := rfl
@[simp] theorem State.withBuf_opc (s : State) (m : Memory) : (s.withBuf m).opc = s.opc := rfl
@[simp] theorem State.withBuf_res (s : State) (m : Memory) : (s.withBuf m).res = s.res := rfl
@[simp] theorem State.withBuf_foff (s : State) (m : Memory) : (s.withBuf m).foff = s.foff := rfl
@[simp] theorem State.withBuf_fcnt (s : State) (m : Memory) : (s.withBuf m).fcnt = s.fcnt := rfl
@[simp] theorem State.withBuf_favail (s : State) (m : Memory) : (s.withBuf m).favail = s.favail := rfl
@[simp] theorem State.withBuf_buf (s : State) (m : Memory) : (s.withBuf m).buf = m := rfl
@[simp] theorem State.withBuf_reader (s : State) (m : Memory) : (s.withBuf m).reader = s.reader := rfl
@[simp] theorem State.withBuf_latchA (s : State) (m : Memory) : (s.withBuf m).latchA = s.latchA := rfl
@[simp] theorem State.withBuf_latchB (s : State) (m : Memory) : (s.withBuf m).latchB = s.latchB := rfl
@[simp] theorem State.withBuf_latchC (s : State) (m : Memory) : (s.withBuf m).latchC = s.latchC := rfl
@[simp] theorem State.withBuf_port (s : State) (m : Memory) : (s.withBuf m).port = s.port := rfl
@[simp] theorem State.withBuf_copied (s : State) (m : Memory) : (s.withBuf m).copied = s.copied := rfl
@[simp] theorem State.withBuf_before (s : State) (m : Memory) : (s.withBuf m).before = s.before := rfl
@[simp] theorem State.withBuf_held (s : State) (m : Memory) : (s.withBuf m).held = s.held := rfl
@[simp] theorem State.withBuf_raced (s : State) (m : Memory) : (s.withBuf m).raced = s.raced := rfl
@[simp] theorem State.withBuf_inputs (s : State) (m : Memory) : (s.withBuf m).inputs = s.inputs := rfl
@[simp] theorem State.withBuf_sent (s : State) (m : Memory) : (s.withBuf m).sent = s.sent := rfl
@[simp] theorem State.withBuf_replies (s : State) (m : Memory) : (s.withBuf m).replies = s.replies := rfl
@[simp] theorem State.withBuf_draws (s : State) (m : Memory) : (s.withBuf m).draws = s.draws := rfl

@[simp] theorem State.withReader_params (s : State) (r : Reader) : (s.withReader r).params = s.params := rfl
@[simp] theorem State.withReader_cmd (s : State) (r : Reader) : (s.withReader r).cmd = s.cmd := rfl
@[simp] theorem State.withReader_busy (s : State) (r : Reader) : (s.withReader r).busy = s.busy := rfl
@[simp] theorem State.withReader_cfgf (s : State) (r : Reader) : (s.withReader r).cfgf = s.cfgf := rfl
@[simp] theorem State.withReader_fcode (s : State) (r : Reader) : (s.withReader r).fcode = s.fcode := rfl
@[simp] theorem State.withReader_opa (s : State) (r : Reader) : (s.withReader r).opa = s.opa := rfl
@[simp] theorem State.withReader_opb (s : State) (r : Reader) : (s.withReader r).opb = s.opb := rfl
@[simp] theorem State.withReader_opc (s : State) (r : Reader) : (s.withReader r).opc = s.opc := rfl
@[simp] theorem State.withReader_res (s : State) (r : Reader) : (s.withReader r).res = s.res := rfl
@[simp] theorem State.withReader_foff (s : State) (r : Reader) : (s.withReader r).foff = s.foff := rfl
@[simp] theorem State.withReader_fcnt (s : State) (r : Reader) : (s.withReader r).fcnt = s.fcnt := rfl
@[simp] theorem State.withReader_favail (s : State) (r : Reader) : (s.withReader r).favail = s.favail := rfl
@[simp] theorem State.withReader_buf (s : State) (r : Reader) : (s.withReader r).buf = s.buf := rfl
@[simp] theorem State.withReader_reader (s : State) (r : Reader) : (s.withReader r).reader = some r := rfl
@[simp] theorem State.withReader_latchA (s : State) (r : Reader) : (s.withReader r).latchA = s.latchA := rfl
@[simp] theorem State.withReader_latchB (s : State) (r : Reader) : (s.withReader r).latchB = s.latchB := rfl
@[simp] theorem State.withReader_latchC (s : State) (r : Reader) : (s.withReader r).latchC = s.latchC := rfl
@[simp] theorem State.withReader_port (s : State) (r : Reader) : (s.withReader r).port = s.port := rfl
@[simp] theorem State.withReader_copied (s : State) (r : Reader) : (s.withReader r).copied = s.copied := rfl
@[simp] theorem State.withReader_before (s : State) (r : Reader) : (s.withReader r).before = s.before := rfl
@[simp] theorem State.withReader_held (s : State) (r : Reader) : (s.withReader r).held = s.held := rfl
@[simp] theorem State.withReader_raced (s : State) (r : Reader) : (s.withReader r).raced = s.raced := rfl
@[simp] theorem State.withReader_inputs (s : State) (r : Reader) : (s.withReader r).inputs = s.inputs := rfl
@[simp] theorem State.withReader_sent (s : State) (r : Reader) : (s.withReader r).sent = s.sent := rfl
@[simp] theorem State.withReader_replies (s : State) (r : Reader) : (s.withReader r).replies = s.replies := rfl
@[simp] theorem State.withReader_draws (s : State) (r : Reader) : (s.withReader r).draws = s.draws := rfl

@[simp] theorem State.accept_params (s : State) (w : CmdWord) : (s.accept w).params = s.params := rfl
@[simp] theorem State.accept_cmd (s : State) (w : CmdWord) : (s.accept w).cmd = w := rfl
@[simp] theorem State.accept_busy (s : State) (w : CmdWord) : (s.accept w).busy = true := rfl
@[simp] theorem State.accept_cfgf (s : State) (w : CmdWord) : (s.accept w).cfgf = s.cfgf := rfl
@[simp] theorem State.accept_fcode (s : State) (w : CmdWord) : (s.accept w).fcode = s.fcode := rfl
@[simp] theorem State.accept_opa (s : State) (w : CmdWord) : (s.accept w).opa = s.opa := rfl
@[simp] theorem State.accept_opb (s : State) (w : CmdWord) : (s.accept w).opb = s.opb := rfl
@[simp] theorem State.accept_opc (s : State) (w : CmdWord) : (s.accept w).opc = s.opc := rfl
@[simp] theorem State.accept_res (s : State) (w : CmdWord) : (s.accept w).res = s.res := rfl
@[simp] theorem State.accept_foff (s : State) (w : CmdWord) : (s.accept w).foff = s.foff := rfl
@[simp] theorem State.accept_fcnt (s : State) (w : CmdWord) : (s.accept w).fcnt = s.fcnt := rfl
@[simp] theorem State.accept_favail (s : State) (w : CmdWord) : (s.accept w).favail = s.favail := rfl
@[simp] theorem State.accept_buf (s : State) (w : CmdWord) : (s.accept w).buf = s.buf := rfl
@[simp] theorem State.accept_reader (s : State) (w : CmdWord) : (s.accept w).reader = s.reader := rfl
@[simp] theorem State.accept_latchA (s : State) (w : CmdWord) : (s.accept w).latchA = s.opa := rfl
@[simp] theorem State.accept_latchB (s : State) (w : CmdWord) : (s.accept w).latchB = s.opb := rfl
@[simp] theorem State.accept_latchC (s : State) (w : CmdWord) : (s.accept w).latchC = s.opc := rfl
@[simp] theorem State.accept_port (s : State) (w : CmdWord) : (s.accept w).port = .idle := rfl
@[simp] theorem State.accept_copied (s : State) (w : CmdWord) : (s.accept w).copied = s.copied := rfl
@[simp] theorem State.accept_before (s : State) (w : CmdWord) : (s.accept w).before = s.buf := rfl
@[simp] theorem State.accept_held (s : State) (w : CmdWord) : (s.accept w).held = s.held := rfl
@[simp] theorem State.accept_raced (s : State) (w : CmdWord) : (s.accept w).raced = s.raced := rfl
@[simp] theorem State.accept_inputs (s : State) (w : CmdWord) : (s.accept w).inputs = s.inputs := rfl
@[simp] theorem State.accept_sent (s : State) (w : CmdWord) : (s.accept w).sent = s.sent := rfl
@[simp] theorem State.accept_replies (s : State) (w : CmdWord) : (s.accept w).replies = s.replies := rfl
@[simp] theorem State.accept_draws (s : State) (w : CmdWord) : (s.accept w).draws = s.draws := rfl

@[simp] theorem State.hold_params (s : State) (w : CmdWord) : (s.hold w).params = s.params := rfl
@[simp] theorem State.hold_cmd (s : State) (w : CmdWord) : (s.hold w).cmd = s.cmd := rfl
@[simp] theorem State.hold_busy (s : State) (w : CmdWord) : (s.hold w).busy = s.busy := rfl
@[simp] theorem State.hold_cfgf (s : State) (w : CmdWord) : (s.hold w).cfgf = s.cfgf := rfl
@[simp] theorem State.hold_fcode (s : State) (w : CmdWord) : (s.hold w).fcode = s.fcode := rfl
@[simp] theorem State.hold_opa (s : State) (w : CmdWord) : (s.hold w).opa = s.opa := rfl
@[simp] theorem State.hold_opb (s : State) (w : CmdWord) : (s.hold w).opb = s.opb := rfl
@[simp] theorem State.hold_opc (s : State) (w : CmdWord) : (s.hold w).opc = s.opc := rfl
@[simp] theorem State.hold_res (s : State) (w : CmdWord) : (s.hold w).res = s.res := rfl
@[simp] theorem State.hold_foff (s : State) (w : CmdWord) : (s.hold w).foff = s.foff := rfl
@[simp] theorem State.hold_fcnt (s : State) (w : CmdWord) : (s.hold w).fcnt = s.fcnt := rfl
@[simp] theorem State.hold_favail (s : State) (w : CmdWord) : (s.hold w).favail = s.favail := rfl
@[simp] theorem State.hold_buf (s : State) (w : CmdWord) : (s.hold w).buf = s.buf := rfl
@[simp] theorem State.hold_reader (s : State) (w : CmdWord) : (s.hold w).reader = s.reader := rfl
@[simp] theorem State.hold_latchA (s : State) (w : CmdWord) : (s.hold w).latchA = s.latchA := rfl
@[simp] theorem State.hold_latchB (s : State) (w : CmdWord) : (s.hold w).latchB = s.latchB := rfl
@[simp] theorem State.hold_latchC (s : State) (w : CmdWord) : (s.hold w).latchC = s.latchC := rfl
@[simp] theorem State.hold_port (s : State) (w : CmdWord) : (s.hold w).port = s.port := rfl
@[simp] theorem State.hold_copied (s : State) (w : CmdWord) : (s.hold w).copied = s.copied := rfl
@[simp] theorem State.hold_before (s : State) (w : CmdWord) : (s.hold w).before = s.before := rfl
@[simp] theorem State.hold_held (s : State) (w : CmdWord) : (s.hold w).held = s.held ++ [w] := rfl
@[simp] theorem State.hold_raced (s : State) (w : CmdWord) : (s.hold w).raced = s.raced := rfl
@[simp] theorem State.hold_inputs (s : State) (w : CmdWord) : (s.hold w).inputs = s.inputs := rfl
@[simp] theorem State.hold_sent (s : State) (w : CmdWord) : (s.hold w).sent = s.sent := rfl
@[simp] theorem State.hold_replies (s : State) (w : CmdWord) : (s.hold w).replies = s.replies := rfl
@[simp] theorem State.hold_draws (s : State) (w : CmdWord) : (s.hold w).draws = s.draws := rfl

@[simp] theorem State.defer_params (s : State) (a : RacedAccess) : (s.defer a).params = s.params := rfl
@[simp] theorem State.defer_cmd (s : State) (a : RacedAccess) : (s.defer a).cmd = s.cmd := rfl
@[simp] theorem State.defer_busy (s : State) (a : RacedAccess) : (s.defer a).busy = s.busy := rfl
@[simp] theorem State.defer_cfgf (s : State) (a : RacedAccess) : (s.defer a).cfgf = s.cfgf := rfl
@[simp] theorem State.defer_fcode (s : State) (a : RacedAccess) : (s.defer a).fcode = s.fcode := rfl
@[simp] theorem State.defer_opa (s : State) (a : RacedAccess) : (s.defer a).opa = s.opa := rfl
@[simp] theorem State.defer_opb (s : State) (a : RacedAccess) : (s.defer a).opb = s.opb := rfl
@[simp] theorem State.defer_opc (s : State) (a : RacedAccess) : (s.defer a).opc = s.opc := rfl
@[simp] theorem State.defer_res (s : State) (a : RacedAccess) : (s.defer a).res = s.res := rfl
@[simp] theorem State.defer_foff (s : State) (a : RacedAccess) : (s.defer a).foff = s.foff := rfl
@[simp] theorem State.defer_fcnt (s : State) (a : RacedAccess) : (s.defer a).fcnt = s.fcnt := rfl
@[simp] theorem State.defer_favail (s : State) (a : RacedAccess) : (s.defer a).favail = s.favail := rfl
@[simp] theorem State.defer_buf (s : State) (a : RacedAccess) : (s.defer a).buf = s.buf := rfl
@[simp] theorem State.defer_reader (s : State) (a : RacedAccess) : (s.defer a).reader = s.reader := rfl
@[simp] theorem State.defer_latchA (s : State) (a : RacedAccess) : (s.defer a).latchA = s.latchA := rfl
@[simp] theorem State.defer_latchB (s : State) (a : RacedAccess) : (s.defer a).latchB = s.latchB := rfl
@[simp] theorem State.defer_latchC (s : State) (a : RacedAccess) : (s.defer a).latchC = s.latchC := rfl
@[simp] theorem State.defer_port (s : State) (a : RacedAccess) : (s.defer a).port = s.port := rfl
@[simp] theorem State.defer_copied (s : State) (a : RacedAccess) : (s.defer a).copied = s.copied := rfl
@[simp] theorem State.defer_before (s : State) (a : RacedAccess) : (s.defer a).before = s.before := rfl
@[simp] theorem State.defer_held (s : State) (a : RacedAccess) : (s.defer a).held = s.held := rfl
@[simp] theorem State.defer_raced (s : State) (a : RacedAccess) : (s.defer a).raced = s.raced ++ [a] := rfl
@[simp] theorem State.defer_inputs (s : State) (a : RacedAccess) : (s.defer a).inputs = s.inputs := rfl
@[simp] theorem State.defer_sent (s : State) (a : RacedAccess) : (s.defer a).sent = s.sent := rfl
@[simp] theorem State.defer_replies (s : State) (a : RacedAccess) : (s.defer a).replies = s.replies := rfl
@[simp] theorem State.defer_draws (s : State) (a : RacedAccess) : (s.defer a).draws = s.draws := rfl

@[simp] theorem State.popInput_params (s : State) : s.popInput.params = s.params := rfl
@[simp] theorem State.popInput_cmd (s : State) : s.popInput.cmd = s.cmd := rfl
@[simp] theorem State.popInput_busy (s : State) : s.popInput.busy = s.busy := rfl
@[simp] theorem State.popInput_cfgf (s : State) : s.popInput.cfgf = s.cfgf := rfl
@[simp] theorem State.popInput_fcode (s : State) : s.popInput.fcode = s.fcode := rfl
@[simp] theorem State.popInput_opa (s : State) : s.popInput.opa = s.opa := rfl
@[simp] theorem State.popInput_opb (s : State) : s.popInput.opb = s.opb := rfl
@[simp] theorem State.popInput_opc (s : State) : s.popInput.opc = s.opc := rfl
@[simp] theorem State.popInput_res (s : State) : s.popInput.res = s.res := rfl
@[simp] theorem State.popInput_foff (s : State) : s.popInput.foff = s.foff := rfl
@[simp] theorem State.popInput_fcnt (s : State) : s.popInput.fcnt = s.fcnt := rfl
@[simp] theorem State.popInput_favail (s : State) : s.popInput.favail = s.favail := rfl
@[simp] theorem State.popInput_buf (s : State) : s.popInput.buf = s.buf := rfl
@[simp] theorem State.popInput_reader (s : State) : s.popInput.reader = s.reader := rfl
@[simp] theorem State.popInput_latchA (s : State) : s.popInput.latchA = s.latchA := rfl
@[simp] theorem State.popInput_latchB (s : State) : s.popInput.latchB = s.latchB := rfl
@[simp] theorem State.popInput_latchC (s : State) : s.popInput.latchC = s.latchC := rfl
@[simp] theorem State.popInput_port (s : State) : s.popInput.port = s.port := rfl
@[simp] theorem State.popInput_copied (s : State) : s.popInput.copied = s.copied := rfl
@[simp] theorem State.popInput_before (s : State) : s.popInput.before = s.before := rfl
@[simp] theorem State.popInput_held (s : State) : s.popInput.held = s.held := rfl
@[simp] theorem State.popInput_raced (s : State) : s.popInput.raced = s.raced := rfl
@[simp] theorem State.popInput_inputs (s : State) : s.popInput.inputs = s.inputs.tail := rfl
@[simp] theorem State.popInput_sent (s : State) : s.popInput.sent = s.sent := rfl
@[simp] theorem State.popInput_replies (s : State) : s.popInput.replies = s.replies := rfl
@[simp] theorem State.popInput_draws (s : State) : s.popInput.draws = s.draws := rfl

@[simp] theorem State.copyChunk_params (s : State) (r : Reader) (d m : Nat) : (s.copyChunk r d m).params = s.params := rfl
@[simp] theorem State.copyChunk_cmd (s : State) (r : Reader) (d m : Nat) : (s.copyChunk r d m).cmd = s.cmd := rfl
@[simp] theorem State.copyChunk_busy (s : State) (r : Reader) (d m : Nat) : (s.copyChunk r d m).busy = s.busy := rfl
@[simp] theorem State.copyChunk_cfgf (s : State) (r : Reader) (d m : Nat) : (s.copyChunk r d m).cfgf = s.cfgf := rfl
@[simp] theorem State.copyChunk_fcode (s : State) (r : Reader) (d m : Nat) : (s.copyChunk r d m).fcode = s.fcode := rfl
@[simp] theorem State.copyChunk_opa (s : State) (r : Reader) (d m : Nat) : (s.copyChunk r d m).opa = s.opa := rfl
@[simp] theorem State.copyChunk_opb (s : State) (r : Reader) (d m : Nat) : (s.copyChunk r d m).opb = s.opb := rfl
@[simp] theorem State.copyChunk_opc (s : State) (r : Reader) (d m : Nat) : (s.copyChunk r d m).opc = s.opc := rfl
@[simp] theorem State.copyChunk_res (s : State) (r : Reader) (d m : Nat) : (s.copyChunk r d m).res = s.res := rfl
@[simp] theorem State.copyChunk_foff (s : State) (r : Reader) (d m : Nat) : (s.copyChunk r d m).foff = s.foff := rfl
@[simp] theorem State.copyChunk_fcnt (s : State) (r : Reader) (d m : Nat) : (s.copyChunk r d m).fcnt = s.fcnt := rfl
@[simp] theorem State.copyChunk_favail (s : State) (r : Reader) (d m : Nat) : (s.copyChunk r d m).favail = s.favail := rfl
@[simp] theorem State.copyChunk_buf (s : State) (r : Reader) (d m : Nat) : (s.copyChunk r d m).buf = s.buf.copyBits r.order r.byteAt r.cursor (d + s.copied) m := rfl
@[simp] theorem State.copyChunk_reader (s : State) (r : Reader) (d m : Nat) : (s.copyChunk r d m).reader = some (r.advance m) := rfl
@[simp] theorem State.copyChunk_latchA (s : State) (r : Reader) (d m : Nat) : (s.copyChunk r d m).latchA = s.latchA := rfl
@[simp] theorem State.copyChunk_latchB (s : State) (r : Reader) (d m : Nat) : (s.copyChunk r d m).latchB = s.latchB := rfl
@[simp] theorem State.copyChunk_latchC (s : State) (r : Reader) (d m : Nat) : (s.copyChunk r d m).latchC = s.latchC := rfl
@[simp] theorem State.copyChunk_port (s : State) (r : Reader) (d m : Nat) : (s.copyChunk r d m).port = s.port := rfl
@[simp] theorem State.copyChunk_copied (s : State) (r : Reader) (d m : Nat) : (s.copyChunk r d m).copied = s.copied + m := rfl
@[simp] theorem State.copyChunk_before (s : State) (r : Reader) (d m : Nat) : (s.copyChunk r d m).before = s.before := rfl
@[simp] theorem State.copyChunk_held (s : State) (r : Reader) (d m : Nat) : (s.copyChunk r d m).held = s.held := rfl
@[simp] theorem State.copyChunk_raced (s : State) (r : Reader) (d m : Nat) : (s.copyChunk r d m).raced = s.raced := rfl
@[simp] theorem State.copyChunk_inputs (s : State) (r : Reader) (d m : Nat) : (s.copyChunk r d m).inputs = s.inputs := rfl
@[simp] theorem State.copyChunk_sent (s : State) (r : Reader) (d m : Nat) : (s.copyChunk r d m).sent = s.sent := rfl
@[simp] theorem State.copyChunk_replies (s : State) (r : Reader) (d m : Nat) : (s.copyChunk r d m).replies = s.replies := rfl
@[simp] theorem State.copyChunk_draws (s : State) (r : Reader) (d m : Nat) : (s.copyChunk r d m).draws = s.draws := rfl

@[simp] theorem Reader.recycle_own (r : Reader) : r.recycle.own = r.own := rfl
@[simp] theorem Reader.recycle_order (r : Reader) : r.recycle.order = r.order := rfl
@[simp] theorem Reader.recycle_cap (r : Reader) : r.recycle.cap = r.cap := rfl
@[simp] theorem Reader.recycle_cache (r : Reader) : r.recycle.cache = r.cache.drop r.byteIdx := rfl
@[simp] theorem Reader.recycle_byteIdx (r : Reader) : r.recycle.byteIdx = 0 := rfl
@[simp] theorem Reader.recycle_bitIdx (r : Reader) : r.recycle.bitIdx = r.bitIdx := rfl
@[simp] theorem Reader.recycle_srcPos (r : Reader) : r.recycle.srcPos = r.srcPos := rfl

@[simp] theorem Reader.absorb_own (r : Reader) (bs : List Byte) : (r.absorb bs).own = r.own := rfl
@[simp] theorem Reader.absorb_order (r : Reader) (bs : List Byte) : (r.absorb bs).order = r.order := rfl
@[simp] theorem Reader.absorb_cap (r : Reader) (bs : List Byte) : (r.absorb bs).cap = r.cap := rfl
@[simp] theorem Reader.absorb_cache (r : Reader) (bs : List Byte) : (r.absorb bs).cache = r.cache ++ bs := rfl
@[simp] theorem Reader.absorb_byteIdx (r : Reader) (bs : List Byte) : (r.absorb bs).byteIdx = r.byteIdx := rfl
@[simp] theorem Reader.absorb_bitIdx (r : Reader) (bs : List Byte) : (r.absorb bs).bitIdx = r.bitIdx := rfl
@[simp] theorem Reader.absorb_srcPos (r : Reader) (bs : List Byte) : (r.absorb bs).srcPos = r.srcPos + bs.length := rfl

@[simp] theorem Reader.advance_own (r : Reader) (n : Nat) : (r.advance n).own = r.own := rfl
@[simp] theorem Reader.advance_order (r : Reader) (n : Nat) : (r.advance n).order = r.order := rfl
@[simp] theorem Reader.advance_cap (r : Reader) (n : Nat) : (r.advance n).cap = r.cap := rfl
@[simp] theorem Reader.advance_cache (r : Reader) (n : Nat) : (r.advance n).cache = r.cache := rfl
@[simp] theorem Reader.advance_byteIdx (r : Reader) (n : Nat) : (r.advance n).byteIdx = r.byteIdx + (r.bitIdx + n) / 8 := rfl
@[simp] theorem Reader.advance_bitIdx (r : Reader) (n : Nat) : (r.advance n).bitIdx = (r.bitIdx + n) % 8 := rfl
@[simp] theorem Reader.advance_srcPos (r : Reader) (n : Nat) : (r.advance n).srcPos = r.srcPos := rfl

@[simp] theorem Reader.moveTo_own (r : Reader) (t : Nat) : (r.moveTo t).own = r.own := rfl
@[simp] theorem Reader.moveTo_order (r : Reader) (t : Nat) : (r.moveTo t).order = r.order := rfl
@[simp] theorem Reader.moveTo_cap (r : Reader) (t : Nat) : (r.moveTo t).cap = r.cap := rfl
@[simp] theorem Reader.moveTo_cache (r : Reader) (t : Nat) : (r.moveTo t).cache = r.cache := rfl
@[simp] theorem Reader.moveTo_byteIdx (r : Reader) (t : Nat) : (r.moveTo t).byteIdx = t / 8 - r.w0 := rfl
@[simp] theorem Reader.moveTo_bitIdx (r : Reader) (t : Nat) : (r.moveTo t).bitIdx = t % 8 := rfl
@[simp] theorem Reader.moveTo_srcPos (r : Reader) (t : Nat) : (r.moveTo t).srcPos = r.srcPos := rfl

@[simp] theorem Reader.jumpTo_own (r : Reader) (t : Nat) : (r.jumpTo t).own = r.own := rfl
@[simp] theorem Reader.jumpTo_order (r : Reader) (t : Nat) : (r.jumpTo t).order = r.order := rfl
@[simp] theorem Reader.jumpTo_cap (r : Reader) (t : Nat) : (r.jumpTo t).cap = r.cap := rfl
@[simp] theorem Reader.jumpTo_cache (r : Reader) (t : Nat) : (r.jumpTo t).cache = [] := rfl
@[simp] theorem Reader.jumpTo_byteIdx (r : Reader) (t : Nat) : (r.jumpTo t).byteIdx = 0 := rfl
@[simp] theorem Reader.jumpTo_bitIdx (r : Reader) (t : Nat) : (r.jumpTo t).bitIdx = t % 8 := rfl
@[simp] theorem Reader.jumpTo_srcPos (r : Reader) (t : Nat) : (r.jumpTo t).srcPos = t / 8 := rfl

@[simp] theorem Reader.grow_own (r : Reader) (n : Nat) : (r.grow n).own = r.own := by
  unfold Reader.grow; split <;> rfl
@[simp] theorem Reader.grow_order (r : Reader) (n : Nat) : (r.grow n).order = r.order := by
  unfold Reader.grow; split <;> rfl
@[simp] theorem Reader.grow_cache (r : Reader) (n : Nat) : (r.grow n).cache = r.cache := by
  unfold Reader.grow; split <;> rfl
@[simp] theorem Reader.grow_byteIdx (r : Reader) (n : Nat) : (r.grow n).byteIdx = r.byteIdx := by
  unfold Reader.grow; split <;> rfl
@[simp] theorem Reader.grow_bitIdx (r : Reader) (n : Nat) : (r.grow n).bitIdx = r.bitIdx := by
  unfold Reader.grow; split <;> rfl
@[simp] theorem Reader.grow_srcPos (r : Reader) (n : Nat) : (r.grow n).srcPos = r.srcPos := by
  unfold Reader.grow; split <;> rfl
@[simp] theorem Reader.grow_cap (r : Reader) (n : Nat) : (r.grow n).cap = max r.cap (r.need n) := by
  unfold Reader.grow; split <;> simp <;> omega

end Sys2Proof.Machine
end

