-- ==== Sys2Proof/Laws/Ops.lean ====
section
/-! SUPPORT. What each shared operation of Machine/Ops.lean, Lut.lean, BitField.lean and Integer.lean can do, case by case. -/

namespace Sys2Proof.Machine

theorem State.unlessConfigFault_off {s body : State} (h : s.cfgf = false) : s.unlessConfigFault body = body := by
  simp [State.unlessConfigFault, h]

theorem State.unlessConfigFault_on {s body : State} (h : s.cfgf = true) :
    s.unlessConfigFault body = s.raiseConfiguration := by
  simp [State.unlessConfigFault, h]

/-- What `unlessConfigFault` can do (spec/60_exceptions.md R301). -/
theorem State.unlessConfigFault_cases (s body : State) :
    (s.cfgf = true ∧ s.unlessConfigFault body = s.raiseConfiguration)
    ∨ (s.cfgf = false ∧ s.unlessConfigFault body = body) := by
  cases h : s.cfgf
  · exact .inr ⟨rfl, State.unlessConfigFault_off h⟩
  · exact .inl ⟨rfl, State.unlessConfigFault_on h⟩

/-- availbuf is the truncated difference (spec/60_exceptions.md R302). -/
theorem State.availBuf_eq (s : State) (p : Nat) : s.availBuf p = 8 * s.params.bufBytes - p := by
  unfold State.availBuf State.bufBits
  split <;> omega

theorem State.ifInBuf_in {s body : State} {p n : Nat} (h : p + n ≤ 8 * s.params.bufBytes) :
    s.ifInBuf p n body = body := by
  have : ¬s.bufBits < p + n := by unfold State.bufBits; omega
  simp [State.ifInBuf, this]

theorem State.ifInBuf_out {s body : State} {p n : Nat} (h : 8 * s.params.bufBytes < p + n) :
    s.ifInBuf p n body = s.raise .range p n (s.availBuf p) := by
  have : s.bufBits < p + n := by unfold State.bufBits; omega
  simp [State.ifInBuf, this]

/-- What the range check of a BUF command can do (spec/20_memory.md R67). -/
theorem State.ifInBuf_cases (s body : State) (p n : Nat) :
    (8 * s.params.bufBytes < p + n ∧ s.ifInBuf p n body = s.raise .range p n (s.availBuf p))
    ∨ (p + n ≤ 8 * s.params.bufBytes ∧ s.ifInBuf p n body = body) := by
  rcases Nat.lt_or_ge (8 * s.params.bufBytes) (p + n) with h | h
  · exact .inl ⟨h, State.ifInBuf_out h⟩
  · exact .inr ⟨h, State.ifInBuf_in h⟩

/-- What a table command can do (spec/40_lut.md, template). -/
theorem State.lutCommand_cases (s : State) (limit : Nat) (f : Word → Word) :
    (limit < s.latchA.toNat ∧ s.lutCommand limit f = s.raise .range 0 s.latchA.toNat limit)
    ∨ (s.latchA.toNat ≤ limit ∧ s.lutCommand limit f = s.completeWith (f s.latchA)) := by
  unfold State.lutCommand State.uA
  split
  · exact .inl ⟨‹_›, rfl⟩
  · exact .inr ⟨by omega, rfl⟩

/-- What a checked product can do (spec/42_integer.md R204, R206). -/
theorem State.scaleCommand_cases (s : State) (k : Nat) :
    (2 ^ 64 - 1 < s.latchA.toNat * k
      ∧ s.scaleCommand k = s.raise .range 0 s.latchA.toNat ((2 ^ 64 - 1) / k))
    ∨ (s.latchA.toNat * k ≤ 2 ^ 64 - 1
      ∧ s.scaleCommand k = s.completeWith (BitVec.ofNat 64 (s.latchA.toNat * k))) := by
  unfold State.scaleCommand State.uA
  split
  · exact .inl ⟨‹_›, rfl⟩
  · exact .inr ⟨by omega, rfl⟩

/-- The index check of the single-bit commands (spec/41_bitfield.md R160). -/
theorem State.ifIndex_cases (s : State) (i : Nat) (body : State) :
    (s.maxIndex < i ∧ s.ifIndex i body = s.raise .range (8 * s.latchB.toNat) i s.maxIndex)
    ∨ (i ≤ s.maxIndex ∧ s.ifIndex i body = body) := by
  unfold State.ifIndex State.uB
  split
  · exact .inl ⟨‹_›, rfl⟩
  · exact .inr ⟨by omega, rfl⟩

/-- The address check and the access of the single-bit commands (spec/41_bitfield.md R160, R166). -/
theorem State.atBit_cases (s : State) (i : Nat) (skip : State) (body : BitOrder → Nat → State) :
    (s.params.bufBytes ≤ s.latchB.toNat
      ∧ s.atBit i skip body = s.raise .range (8 * s.latchB.toNat) 8 (s.availBuf (8 * s.latchB.toNat)))
    ∨ (s.latchB.toNat < s.params.bufBytes ∧ i = 8 ∧ s.atBit i skip body = skip)
    ∨ (s.latchB.toNat < s.params.bufBytes ∧ i ≠ 8 ∧ s.params.sysBitOrder = none
      ∧ s.atBit i skip body = s.raiseConfiguration)
    ∨ ∃ o, s.latchB.toNat < s.params.bufBytes ∧ i ≠ 8 ∧ s.params.sysBitOrder = some o
      ∧ s.atBit i skip body = body o (8 * s.latchB.toNat + i) := by
  unfold State.atBit State.uB
  split
  · exact .inl ⟨‹_›, rfl⟩
  · split
    · exact .inr (.inl ⟨by omega, ‹_›, rfl⟩)
    · cases h : s.params.sysBitOrder with
      | none => exact .inr (.inr (.inl ⟨by omega, ‹_›, rfl, rfl⟩))
      | some o => exact .inr (.inr (.inr ⟨o, by omega, ‹_›, rfl, rfl⟩))

/-- What RDBITS can do (spec/41_bitfield.md R167, R168). -/
theorem State.readBits_cases (s : State) (o : BitOrder) (n : Nat) :
    ((64 < n ∨ (1 ≤ n ∧ 8 * s.params.bufBytes < s.latchB.toNat + n))
      ∧ s.readBits o n = s.raise .range s.latchB.toNat n (s.availBuf s.latchB.toNat))
    ∨ (n = 0 ∧ s.readBits o n = s.completeWith 0)
    ∨ (1 ≤ n ∧ n ≤ 64 ∧ s.latchB.toNat + n ≤ 8 * s.params.bufBytes
      ∧ s.readBits o n = s.completeWith (BitVec.ofNat 64 (readField o s.buf.read s.latchB.toNat n))) := by
  unfold State.readBits State.uB State.bufByte
  split
  · exact .inl ⟨.inl ‹_›, rfl⟩
  · split
    · exact .inr (.inl ⟨‹_›, rfl⟩)
    · rcases s.ifInBuf_cases (s.completeWith (BitVec.ofNat 64 (readField o s.buf.read s.latchB.toNat n)))
        s.latchB.toNat n with ⟨h, e⟩ | ⟨h, e⟩
      · exact .inl ⟨.inr ⟨by omega, h⟩, e⟩
      · exact .inr (.inr ⟨by omega, by omega, h, e⟩)

/-- What WRBITS can do (spec/41_bitfield.md R169, R170). -/
theorem State.writeBits_cases (s : State) (o : BitOrder) (n : Nat) :
    ((64 < n ∨ (1 ≤ n ∧ 8 * s.params.bufBytes < s.latchB.toNat + n))
      ∧ s.writeBits o n = s.raise .range s.latchB.toNat n (s.availBuf s.latchB.toNat))
    ∨ (n = 0 ∧ s.writeBits o n = s.complete)
    ∨ (1 ≤ n ∧ n ≤ 64 ∧ s.latchB.toNat + n ≤ 8 * s.params.bufBytes
      ∧ s.writeBits o n = (s.withBuf (s.buf.writeField o s.latchB.toNat n s.latchA)).complete) := by
  unfold State.writeBits State.uB
  split
  · exact .inl ⟨.inl ‹_›, rfl⟩
  · split
    · exact .inr (.inl ⟨‹_›, rfl⟩)
    · rcases s.ifInBuf_cases (s.withBuf (s.buf.writeField o s.latchB.toNat n s.latchA)).complete
        s.latchB.toNat n with ⟨h, e⟩ | ⟨h, e⟩
      · exact .inl ⟨.inr ⟨by omega, h⟩, e⟩
      · exact .inr (.inr ⟨by omega, by omega, h, e⟩)

/-- What COPYB can do (spec/41_bitfield.md R172, R173). -/
theorem State.copyBlock_cases (s : State) (o : BitOrder) :
    (s.latchA.toNat = 0 ∧ s.copyBlock o = s.complete)
    ∨ (1 ≤ s.latchA.toNat ∧ 8 * s.params.bufBytes < s.latchB.toNat + s.latchA.toNat
      ∧ s.copyBlock o = s.raise .range s.latchB.toNat s.latchA.toNat (s.availBuf s.latchB.toNat))
    ∨ (1 ≤ s.latchA.toNat ∧ s.latchB.toNat + s.latchA.toNat ≤ 8 * s.params.bufBytes
      ∧ 8 * s.params.bufBytes < s.latchC.toNat + s.latchA.toNat
      ∧ s.copyBlock o = s.raise .range s.latchC.toNat s.latchA.toNat (s.availBuf s.latchC.toNat))
    ∨ (1 ≤ s.latchA.toNat ∧ s.latchB.toNat + s.latchA.toNat ≤ 8 * s.params.bufBytes
      ∧ s.latchC.toNat + s.latchA.toNat ≤ 8 * s.params.bufBytes
      ∧ s.copyBlock o =
        (s.withBuf (s.buf.copyBits o s.buf.read s.latchB.toNat s.latchC.toNat s.latchA.toNat)).complete) := by
  unfold State.copyBlock State.uA State.uB State.uC State.bufByte
  split
  · exact .inl ⟨‹_›, rfl⟩
  · rcases Nat.lt_or_ge (8 * s.params.bufBytes) (s.latchB.toNat + s.latchA.toNat) with h | h
    · exact .inr (.inl ⟨by omega, h, State.ifInBuf_out h⟩)
    · rw [State.ifInBuf_in h]
      rcases Nat.lt_or_ge (8 * s.params.bufBytes) (s.latchC.toNat + s.latchA.toNat) with h' | h'
      · exact .inr (.inr (.inl ⟨by omega, h, h', State.ifInBuf_out h'⟩))
      · exact .inr (.inr (.inr ⟨by omega, h, h', State.ifInBuf_in h'⟩))

/-- What the checks of RDINT and WRINT can do (spec/42_integer.md R201, R202). -/
theorem State.intCommand_cases (s : State) (size : Nat) (empty body : State) :
    ((8 < size ∨ (1 ≤ size ∧ s.params.bufBytes < s.latchB.toNat + size))
      ∧ s.intCommand size empty body
        = s.raise .range (8 * s.latchB.toNat) (8 * size) (s.availBuf (8 * s.latchB.toNat)))
    ∨ (size = 0 ∧ s.intCommand size empty body = empty)
    ∨ (1 ≤ size ∧ size ≤ 8 ∧ s.latchB.toNat + size ≤ s.params.bufBytes
      ∧ s.intCommand size empty body = body) := by
  unfold State.intCommand State.uB
  split
  · exact .inl ⟨.inl ‹_›, rfl⟩
  · split
    · exact .inr (.inl ⟨‹_›, rfl⟩)
    · rcases s.ifInBuf_cases body (8 * s.latchB.toNat) (8 * size) with ⟨h, e⟩ | ⟨h, e⟩
      · exact .inl ⟨.inr ⟨by omega, by omega⟩, e⟩
      · exact .inr (.inr ⟨by omega, by omega, by omega, e⟩)

end Sys2Proof.Machine
end

