-- ==== Sys2Proof/Laws/Memory.lean ====
section
/-! SUPPORT. BUF: what a write leaves in every byte, and that every memory operation keeps the canonical form. -/

namespace Sys2Proof.Machine

@[simp] theorem Memory.read_nil (a : Nat) : Memory.read [] a = Memory.unlisted := rfl

theorem Memory.read_erase (m : Memory) (a c : Nat) :
    (m.erase a).read c = if c = a then Memory.unlisted else m.read c := by
  induction m with
  | nil => simp [Memory.erase]
  | cons e m ih =>
    obtain ⟨x, b⟩ := e
    unfold Memory.erase
    split
    · rename_i h
      rw [ih]
      subst h
      by_cases hc : c = x
      · simp [hc]
      · simp [hc, Memory.read, Ne.symm hc]
    · rename_i h
      by_cases hx : x = c
      · subst hx; simp [Memory.read, h]
      · simp [Memory.read, hx, ih]

theorem Memory.read_insert (m : Memory) (a c : Nat) (v : Byte) (h : m.read a = Memory.unlisted)
    (hfree : ∀ e ∈ m, e.1 ≠ a) :
    (m.insert a v).read c = if c = a then v else m.read c := by
  induction m with
  | nil =>
    by_cases hc : c = a
    · simp [Memory.insert, Memory.read, hc]
    · simp [Memory.insert, Memory.read, hc, Ne.symm hc]
  | cons e m ih =>
    obtain ⟨x, b⟩ := e
    have hx : x ≠ a := hfree (x, b) (by simp)
    unfold Memory.insert
    split
    · by_cases hc : c = a
      · simp [Memory.read, hc]
      · simp [Memory.read, hc, Ne.symm hc]
    · have h' : Memory.read m a = Memory.unlisted := by simpa [Memory.read, hx] using h
      have ih := ih h' fun e he => hfree e (by simp [he])
      by_cases hxc : x = c
      · subst hxc; simp [Memory.read, hx]
      · simp [Memory.read, hxc, ih]

theorem Memory.erase_free (m : Memory) (a : Nat) : ∀ e ∈ m.erase a, e.1 ≠ a := by
  induction m with
  | nil => simp [Memory.erase]
  | cons e m ih =>
    obtain ⟨x, b⟩ := e
    unfold Memory.erase
    split
    · exact ih
    · rename_i h
      simp only [List.mem_cons]
      rintro e (rfl | he)
      · exact h
      · exact ih e he

/-- Everything a write does to the bytes of BUF. -/
theorem Memory.read_write (m : Memory) (a c : Nat) (v : Byte) :
    (m.write a v).read c = if c = a then v else m.read c := by
  unfold Memory.write
  split
  · rename_i h
    rw [Memory.read_erase, h]
  · rw [Memory.read_insert _ _ _ _ (by simp [Memory.read_erase]) (m.erase_free a), Memory.read_erase]
    split <;> rfl

@[simp] theorem Memory.read_write_same (m : Memory) (a : Nat) (v : Byte) : (m.write a v).read a = v := by
  simp [Memory.read_write]

theorem Memory.read_write_other (m : Memory) {a c : Nat} (v : Byte) (h : c ≠ a) :
    (m.write a v).read c = m.read c := by
  simp [Memory.read_write, h]

theorem Memory.risesFrom_mono {m : Memory} {lo lo' : Nat} (h : Memory.risesFrom lo m = true) (hl : lo' ≤ lo) :
    Memory.risesFrom lo' m = true := by
  cases m with
  | nil => rfl
  | cons e m =>
    obtain ⟨x, b⟩ := e
    simp only [Memory.risesFrom, Bool.and_eq_true, decide_eq_true_eq] at h ⊢
    exact ⟨⟨hl.trans h.1.1, h.1.2⟩, h.2⟩

theorem Memory.risesFrom_erase {m : Memory} {lo : Nat} (a : Nat) (h : Memory.risesFrom lo m = true) :
    Memory.risesFrom lo (m.erase a) = true := by
  induction m generalizing lo with
  | nil => rfl
  | cons e m ih =>
    obtain ⟨x, b⟩ := e
    simp only [Memory.risesFrom, Bool.and_eq_true, decide_eq_true_eq] at h
    unfold Memory.erase
    split
    · exact Memory.risesFrom_mono (ih h.2) (by omega)
    · simp only [Memory.risesFrom, Bool.and_eq_true, decide_eq_true_eq]
      exact ⟨h.1, ih h.2⟩

theorem Memory.risesFrom_insert {m : Memory} {lo a : Nat} {v : Byte} (h : Memory.risesFrom lo m = true)
    (hlo : lo ≤ a) (hv : v ≠ Memory.unlisted) (hfree : ∀ e ∈ m, e.1 ≠ a) :
    Memory.risesFrom lo (m.insert a v) = true := by
  induction m generalizing lo with
  | nil => simp [Memory.insert, Memory.risesFrom, hlo, hv]
  | cons e m ih =>
    obtain ⟨x, b⟩ := e
    have hx : x ≠ a := hfree (x, b) (by simp)
    simp only [Memory.risesFrom, Bool.and_eq_true, decide_eq_true_eq] at h
    unfold Memory.insert
    split
    · rename_i hax
      simp only [Memory.risesFrom, Bool.and_eq_true, decide_eq_true_eq]
      exact ⟨⟨hlo, hv⟩, ⟨by omega, h.1.2⟩, h.2⟩
    · rename_i hax
      simp only [Memory.risesFrom, Bool.and_eq_true, decide_eq_true_eq]
      exact ⟨h.1, ih h.2 (by omega) fun e he => hfree e (by simp [he])⟩

/-- A write keeps the canonical form. -/
theorem Memory.wf_write {m : Memory} (h : m.wf = true) (a : Nat) (v : Byte) : (m.write a v).wf = true := by
  unfold Memory.write
  split
  · exact Memory.risesFrom_erase a h
  · rename_i hv
    exact Memory.risesFrom_insert (Memory.risesFrom_erase a h) (Nat.zero_le a) hv (m.erase_free a)

theorem Memory.within_erase {m : Memory} {size : Nat} (h : m.within size = true) (a : Nat) :
    (m.erase a).within size = true := by
  induction m with
  | nil => rfl
  | cons e m ih =>
    obtain ⟨x, b⟩ := e
    simp only [Memory.within, List.all_cons, Bool.and_eq_true] at h ih ⊢
    unfold Memory.erase
    split
    · exact ih h.2
    · simp only [List.all_cons, Bool.and_eq_true]
      exact ⟨h.1, ih h.2⟩

theorem Memory.within_insert {m : Memory} {size a : Nat} {v : Byte} (h : m.within size = true) (ha : a < size) :
    (m.insert a v).within size = true := by
  induction m with
  | nil => simpa [Memory.insert, Memory.within] using ha
  | cons e m ih =>
    obtain ⟨x, b⟩ := e
    simp only [Memory.within, List.all_cons, Bool.and_eq_true] at h ih ⊢
    unfold Memory.insert
    split
    · simp only [List.all_cons, Bool.and_eq_true, decide_eq_true_eq]
      exact ⟨ha, by simpa using h.1, h.2⟩
    · simp only [List.all_cons, Bool.and_eq_true]
      exact ⟨h.1, ih h.2⟩

/-- A write below `size` keeps every listed address below `size`. -/
theorem Memory.within_write {m : Memory} {size a : Nat} (h : m.within size = true) (ha : a < size) (v : Byte) :
    (m.write a v).within size = true := by
  unfold Memory.write
  split
  · exact Memory.within_erase h a
  · exact Memory.within_insert (Memory.within_erase h a) ha

/-- The memory that a list of cells describes is canonical. -/
theorem Memory.wf_ofCells (size : Nat) (cells : List Host.Cell) : (Memory.ofCells size cells).wf = true := by
  induction cells with
  | nil => rfl
  | cons e cells ih =>
    obtain ⟨a, v⟩ := e
    unfold Memory.ofCells
    split
    · exact Memory.wf_write ih a v
    · exact ih

theorem Memory.within_ofCells (size : Nat) (cells : List Host.Cell) :
    (Memory.ofCells size cells).within size = true := by
  induction cells with
  | nil => rfl
  | cons e cells ih =>
    obtain ⟨a, v⟩ := e
    unfold Memory.ofCells
    split
    · exact Memory.within_write ih ‹_› v
    · exact ih

/-- The first cell for an address gives its byte. -/
theorem Memory.read_ofCells (size : Nat) (a : Nat) (v : Byte) (cells : List Host.Cell) (c : Nat) :
    (Memory.ofCells size ((a, v) :: cells)).read c
      = if c = a ∧ a < size then v else (Memory.ofCells size cells).read c := by
  conv_lhs => unfold Memory.ofCells
  split
  · rename_i h; simp [Memory.read_write, h]
  · rename_i h; simp [h]

/-- The memory of reset is canonical. -/
theorem State.reset_buf_wf : State.reset.buf.wf = true := rfl

end Sys2Proof.Machine
end

