-- ==== Sys2Proof/Laws/BitMap.lean ====
section
/-! SUPPORT. Bit positions: what putting and getting bits does, and the bits of a field. -/

namespace Sys2Proof

theorem BitOrder.phys_lt (o : BitOrder) {i : Nat} (h : i < 8) : o.phys i < 8 := by
  cases o <;> simp only [BitOrder.phys] <;> omega

theorem BitOrder.phys_inj (o : BitOrder) {i j : Nat} (hi : i < 8) (hj : j < 8) : o.phys i = o.phys j ↔ i = j := by
  cases o
  · simp only [BitOrder.phys]; omega
  · simp only [BitOrder.phys]

@[simp] theorem BitOrder.opposite_opposite (o : BitOrder) : o.opposite.opposite = o := by cases o <;> rfl

namespace Machine

/-- Setting physical bit `i` of a byte sets that bit and no other. -/
theorem byteWithBit_getLsbD (b : Byte) (v : Bool) {i j : Nat} (hi : i < 8) (hj : j < 8) :
    (byteWithBit b i v).getLsbD j = if j = i then v else b.getLsbD j := by
  unfold byteWithBit
  interval_cases i <;> interval_cases j <;> cases v <;> simp

/-- What is at every bit position after one bit is put. -/
theorem bitGet_bitPut (o : BitOrder) (m : Memory) (p q : Nat) (v : Bool) :
    bitGet o (m.bitPut o p v).read q = if q = p then v else bitGet o m.read q := by
  unfold bitGet Memory.bitPut
  rw [Memory.read_write]
  by_cases h : q / 8 = p / 8
  · rw [if_pos h, byteWithBit_getLsbD _ _ (o.phys_lt (Nat.mod_lt _ (by decide))) (o.phys_lt (Nat.mod_lt _ (by decide)))]
    simp only [o.phys_inj (Nat.mod_lt q (by decide)) (Nat.mod_lt p (by decide)), h]
    by_cases hq : q = p
    · simp [hq]
    · have : q % 8 ≠ p % 8 := by omega
      simp [hq, this]
  · have : q ≠ p := fun e => h (by rw [e])
    simp [h, this]

/-- Every byte but the one that holds position p keeps its value when a bit is put at p. -/
theorem read_bitPut_other (o : BitOrder) (m : Memory) (p : Nat) (v : Bool) {c : Nat} (h : c ≠ p / 8) :
    (m.bitPut o p v).read c = m.read c :=
  Memory.read_write_other _ _ h

/-- What is at every bit position after n bits are put from position p on. -/
theorem bitGet_putBits (o : BitOrder) (p : Nat) (bit : Nat → Bool) (n : Nat) (m : Memory) (q : Nat) :
    bitGet o (Memory.putBits o p bit n m).read q
      = if p ≤ q ∧ q < p + n then bit (q - p) else bitGet o m.read q := by
  induction n with
  | zero => simp [Memory.putBits]
  | succ n ih =>
    simp only [Memory.putBits, bitGet_bitPut, ih]
    by_cases h : q = p + n
    · subst h; simp
    · by_cases h2 : p ≤ q ∧ q < p + n
      · rw [if_neg h, if_pos h2, if_pos (by omega)]
      · rw [if_neg h, if_neg h2, if_neg (by omega)]

/-- A byte with no bit in [p, p + n) keeps its value. -/
theorem read_putBits_outside (o : BitOrder) (p : Nat) (bit : Nat → Bool) (n : Nat) (m : Memory) {c : Nat}
    (h : 8 * c + 8 ≤ p ∨ p + n ≤ 8 * c) : (Memory.putBits o p bit n m).read c = m.read c := by
  induction n with
  | zero => rfl
  | succ n ih =>
    rw [Memory.putBits, read_bitPut_other _ _ _ _ (by omega), ih (by omega)]

theorem wf_bitPut (o : BitOrder) {m : Memory} (h : m.wf = true) (p : Nat) (v : Bool) :
    (m.bitPut o p v).wf = true :=
  Memory.wf_write h _ _

/-- Putting bits keeps the canonical form. -/
theorem wf_putBits (o : BitOrder) (p : Nat) (bit : Nat → Bool) (n : Nat) {m : Memory} (h : m.wf = true) :
    (Memory.putBits o p bit n m).wf = true := by
  induction n with
  | zero => exact h
  | succ n ih => exact wf_bitPut o ih _ _

/-- Putting bits below 8 * size keeps every listed address below `size`. -/
theorem within_putBits (o : BitOrder) (p : Nat) (bit : Nat → Bool) (n : Nat) {m : Memory} {size : Nat}
    (h : m.within size = true) (hn : p + n ≤ 8 * size) : (Memory.putBits o p bit n m).within size = true := by
  induction n with
  | zero => exact h
  | succ n ih => exact Memory.within_write (ih (by omega)) (by omega) _

/-- Two bytes with the same bits at the eight positions of a byte are equal. -/
theorem byte_eq_of_bitGet (o : BitOrder) (f g : Nat → Byte) (c : Nat)
    (h : ∀ i, i < 8 → bitGet o f (8 * c + i) = bitGet o g (8 * c + i)) : f c = g c := by
  apply BitVec.eq_of_getLsbD_eq
  intro j hj
  have hd : ∀ i, i < 8 → (8 * c + i) / 8 = c := fun i hi => by omega
  have hm : ∀ i, i < 8 → (8 * c + i) % 8 = i := fun i hi => by omega
  cases o with
  | mostSignificant =>
    have := h (7 - j) (by omega)
    simp only [bitGet, hd _ (show 7 - j < 8 by omega), hm _ (show 7 - j < 8 by omega), BitOrder.phys] at this
    rwa [show 7 - (7 - j) = j by omega] at this
  | leastSignificant =>
    have := h j hj
    simpa only [bitGet, hd _ hj, hm _ hj, BitOrder.phys] using this

/-- bitGet reads one byte. -/
theorem bitGet_congr (o : BitOrder) {f g : Nat → Byte} {p q : Nat} (hm : p % 8 = q % 8) (h : f (p / 8) = g (q / 8)) :
    bitGet o f p = bitGet o g q := by
  unfold bitGet; rw [h, hm]

/-- A field depends on its bits alone. -/
theorem readField_congr (o : BitOrder) (f g : Nat → Byte) (p q n : Nat)
    (h : ∀ k, k < n → bitGet o f (p + k) = bitGet o g (q + k)) : readField o f p n = readField o g q n := by
  induction n with
  | zero => rfl
  | succ n ih =>
    have ih := ih fun k hk => h k (by omega)
    have hn := h n (by omega)
    cases o <;> simp only [readField, ih, hn]

/-- A field of n bits is below 2^n. -/
theorem readField_lt (o : BitOrder) (f : Nat → Byte) (p n : Nat) : readField o f p n < 2 ^ n := by
  induction n with
  | zero => simp [readField]
  | succ n ih =>
    have hb : (bitGet o f (p + n)).toNat ≤ 1 := Bool.toNat_le _
    cases o
    · simp only [readField, pow_succ]; omega
    · simp only [readField, pow_succ]
      have : (bitGet .leastSignificant f (p + n)).toNat * 2 ^ n ≤ 1 * 2 ^ n := Nat.mul_le_mul_right _ hb
      omega

/-- The bits of a field: under MostSignificant the first bit read is the most significant (spec/20_memory.md R65). -/
theorem readField_most_testBit (f : Nat → Byte) (p n k : Nat) :
    (readField .mostSignificant f p n).testBit k
      = (decide (k < n) && bitGet .mostSignificant f (p + (n - 1 - k))) := by
  induction n generalizing k with
  | zero => simp [readField]
  | succ n ih =>
    simp only [readField]
    cases k with
    | zero =>
      cases h : bitGet .mostSignificant f (p + n) <;> simp [Nat.testBit_zero, h]
    | succ k =>
      rw [Nat.testBit_succ]
      have hb : (bitGet .mostSignificant f (p + n)).toNat ≤ 1 := Bool.toNat_le _
      rw [show (2 * readField .mostSignificant f p n + (bitGet .mostSignificant f (p + n)).toNat) / 2
        = readField .mostSignificant f p n by omega, ih]
      simp only [Nat.add_lt_add_iff_right, show n + 1 - 1 - (k + 1) = n - 1 - k by omega]

/-- Under LeastSignificant the first bit read is the least significant (spec/20_memory.md R65). -/
theorem readField_least_testBit (f : Nat → Byte) (p n k : Nat) :
    (readField .leastSignificant f p n).testBit k = (decide (k < n) && bitGet .leastSignificant f (p + k)) := by
  induction n generalizing k with
  | zero => simp [readField]
  | succ n ih =>
    have hlt := readField_lt .leastSignificant f p n
    simp only [readField]
    rw [Nat.add_comm, Nat.mul_comm, Nat.testBit_two_pow_mul_add _ hlt]
    by_cases hk : k < n
    · simp [hk, ih, Nat.lt_succ_of_lt hk]
    · by_cases hkn : k = n
      · subst hkn
        cases bitGet .leastSignificant f (p + k) <;> simp
      · have h1 : ¬ k < n + 1 := by omega
        simp only [hk, if_false, h1, decide_false, Bool.false_and]
        obtain ⟨j, hj⟩ : ∃ j, k - n = j + 1 := ⟨k - n - 1, by omega⟩
        rw [hj]
        cases bitGet .leastSignificant f (p + n) <;> simp [Nat.testBit_succ]

end Machine

end Sys2Proof
end

