-- ==== Sys2Proof/Laws/Results.lean ====
section
/-! SUPPORT. That the field operations give what the terms of Sys2Proof/Safety.lean ask for. -/

namespace Sys2Proof.Machine

/-- Putting n bits from position p on replaces exactly these. -/
theorem bitsReplaced_putBits (o : BitOrder) (p n : Nat) (bit : Nat → Bool) (m : Memory) :
    BitsReplaced o p n bit m (Memory.putBits o p bit n m) :=
  ⟨bitGet_putBits o p bit n m, fun _ h => read_putBits_outside o p bit n m h⟩

theorem bitsReplaced_bitPut (o : BitOrder) (p : Nat) (v : Bool) (m : Memory) :
    BitsReplaced o p 1 (fun _ => v) m (m.bitPut o p v) :=
  bitsReplaced_putBits o p 1 (fun _ => v) m

/-- readField read into a register (spec/20_memory.md R65). -/
theorem fieldValue_readField (o : BitOrder) (f : Nat → Byte) (p : Nat) {n : Nat} (hn : n ≤ 64) :
    FieldValue o n (fun j => bitGet o f (p + j)) (BitVec.ofNat 64 (readField o f p n)) := by
  intro k
  rw [BitVec.getLsbD_ofNat]
  by_cases hk : k < 64
  · simp only [hk, decide_true, Bool.true_and]
    cases o
    · rw [readField_most_testBit]
    · rw [readField_least_testBit]
  · simp [hk, show ¬k < n by omega]

/-- A field value depends on its n bits alone. -/
theorem FieldValue.congr {o : BitOrder} {n : Nat} {f g : Nat → Bool} {r : Word} (h : FieldValue o n f r)
    (hfg : ∀ j, j < n → f j = g j) : FieldValue o n g r := by
  intro k
  rw [h k]
  by_cases hk : k < n
  · simp only [hk, decide_true, Bool.true_and]
    exact hfg _ (by cases o <;> dsimp only <;> omega)
  · simp [hk]

end Sys2Proof.Machine
end

