-- ==== Sys2Proof/Laws/Window.lean ====
section
/-! SUPPORT. The reader's procedures: what growth, recycling, top-up, an answer and an advance keep. -/

namespace Sys2Proof.Machine

/-- The cache of `r` holds the bytes of `S` from W0 on (spec/43_reader.md R236 (a)). -/
def Reader.window (S : Nat → Byte) (r : Reader) : Prop := ∀ j, j < r.clen → r.byteAt j = S (r.w0 + j)

theorem Reader.need_le (r : Reader) {n : Nat} (hb : r.bitIdx ≤ 7) (hn : n ≤ 64) : r.need n ≤ 9 := by
  unfold Reader.need; omega

@[simp] theorem Reader.clen_recycle (r : Reader) : r.recycle.clen = r.clen - r.byteIdx := by
  simp [Reader.clen]

@[simp] theorem Reader.clen_absorb (r : Reader) (bs : List Byte) : (r.absorb bs).clen = r.clen + bs.length := by
  simp [Reader.clen]

@[simp] theorem Reader.clen_grow (r : Reader) (n : Nat) : (r.grow n).clen = r.clen := by simp [Reader.clen]

@[simp] theorem Reader.clen_advance (r : Reader) (n : Nat) : (r.advance n).clen = r.clen := by simp [Reader.clen]

@[simp] theorem Reader.need_grow (r : Reader) (n m : Nat) : (r.grow n).need m = r.need m := by simp [Reader.need]

@[simp] theorem Reader.need_recycle (r : Reader) (m : Nat) : r.recycle.need m = r.need m := by simp [Reader.need]

@[simp] theorem Reader.need_absorb (r : Reader) (bs : List Byte) (m : Nat) : (r.absorb bs).need m = r.need m := by
  simp [Reader.need]

theorem Reader.byteAt_recycle (r : Reader) (j : Nat) : r.recycle.byteAt j = r.byteAt (r.byteIdx + j) := by
  simp [Reader.byteAt, List.getD_eq_getElem?_getD, List.getElem?_drop]

theorem Reader.byteAt_absorb_old (r : Reader) (bs : List Byte) {j : Nat} (h : j < r.clen) :
    (r.absorb bs).byteAt j = r.byteAt j := by
  unfold Reader.clen at h
  simp [Reader.byteAt, List.getD_eq_getElem?_getD, List.getElem?_append_left h]

theorem Reader.byteAt_absorb_new (r : Reader) (bs : List Byte) {j : Nat} (h : r.clen ≤ j) :
    (r.absorb bs).byteAt j = bs.getD (j - r.clen) 0 := by
  unfold Reader.clen at h ⊢
  simp [Reader.byteAt, List.getD_eq_getElem?_getD, List.getElem?_append_right h]

/-- Growth keeps R42 and changes CAP alone (spec/43_reader.md R233). -/
theorem Reader.ok_grow {p : Params} {r : Reader} {n : Nat} (h : r.ok p) (hp : p.legal) (hn : n ≤ 64) :
    (r.grow n).ok p := by
  have := r.need_le h.1 hn
  obtain ⟨h1, h2, h3, h4, h5, h6⟩ := h
  obtain ⟨_, _, hc, _⟩ := hp
  refine ⟨?_, ?_, ?_, ?_, ?_, ?_⟩ <;> simp <;> first | assumption | omega

/-- Recycling keeps R42 (spec/43_reader.md R234). -/
theorem Reader.ok_recycle {p : Params} {r : Reader} (h : r.ok p) : r.recycle.ok p := by
  obtain ⟨h1, h2, h3, h4, h5, h6⟩ := h
  refine ⟨h1, ?_, ?_, h4, ?_, ?_⟩ <;> simp <;> omega

/-- Recycling leaves ABS unchanged (spec/43_reader.md R234). -/
theorem Reader.abs_recycle {p : Params} {r : Reader} (h : r.ok p) : r.recycle.abs = r.abs := by
  obtain ⟨h1, h2, h3, h4, h5, h6⟩ := h
  simp [Reader.abs, Reader.w0]; omega

/-- Recycling leaves AVAIL unchanged (spec/43_reader.md R234). -/
theorem Reader.avail_recycle {p : Params} {r : Reader} (h : r.ok p) : r.recycle.avail = r.avail := by
  obtain ⟨h1, h2, h3, h4, h5, h6⟩ := h
  simp only [Reader.avail, Reader.clen_recycle, Reader.recycle_byteIdx, Reader.recycle_bitIdx]
  split <;> split <;> omega

/-- Recycling keeps the window law (spec/43_reader.md R236). -/
theorem Reader.window_recycle {p : Params} {r : Reader} {S : Nat → Byte} (h : r.ok p) (w : r.window S) :
    r.recycle.window S := by
  intro j hj
  obtain ⟨h1, h2, h3, h4, h5, h6⟩ := h
  simp only [Reader.clen_recycle] at hj
  rw [Reader.byteAt_recycle, w _ (by omega)]
  congr 1
  simp [Reader.w0]; omega

theorem Reader.window_grow {r : Reader} {S : Nat → Byte} (n : Nat) (w : r.window S) : (r.grow n).window S := by
  intro j hj
  simpa [Reader.byteAt, Reader.w0] using w j (by simpa using hj)

/-- An answer of at most the free space keeps R42 (spec/43_reader.md R232, R242). -/
theorem Reader.ok_absorb {p : Params} {r : Reader} {bs : List Byte} (h : r.ok p)
    (hb : bs.length ≤ r.cap - r.clen) : (r.absorb bs).ok p := by
  obtain ⟨h1, h2, h3, h4, h5, h6⟩ := h
  refine ⟨h1, ?_, ?_, h4, ?_, ?_⟩ <;> simp <;> omega

/-- An answer leaves ABS unchanged (spec/43_reader.md R236 (b)). -/
theorem Reader.abs_absorb {p : Params} {r : Reader} (bs : List Byte) (h : r.ok p) : (r.absorb bs).abs = r.abs := by
  obtain ⟨h1, h2, h3, h4, h5, h6⟩ := h
  simp [Reader.abs, Reader.w0]; omega

/-- An answer with the bytes of `S` at SRC_POS keeps the window law (spec/43_reader.md R236 (a)). -/
theorem Reader.window_absorb {p : Params} {r : Reader} {S : Nat → Byte} {bs : List Byte} (h : r.ok p) (w : r.window S)
    (hb : ∀ j, j < bs.length → bs.getD j 0 = S (r.srcPos + j)) : (r.absorb bs).window S := by
  intro j hj
  obtain ⟨h1, h2, h3, h4, h5, h6⟩ := h
  simp only [Reader.clen_absorb] at hj
  have hw : (r.absorb bs).w0 = r.w0 := by simp [Reader.w0]; omega
  rw [hw]
  by_cases hc : j < r.clen
  · rw [Reader.byteAt_absorb_old _ _ hc, w j hc]
  · rw [Reader.byteAt_absorb_new _ _ (by omega), hb _ (by omega)]
    congr 1
    simp only [Reader.w0]; omega

/-- Advancing over cached bits keeps R42 (spec/43_reader.md R238). -/
theorem Reader.ok_advance {p : Params} {r : Reader} {n : Nat} (h : r.ok p) (hh : r.holds n = true) :
    (r.advance n).ok p := by
  obtain ⟨h1, h2, h3, h4, h5, h6⟩ := h
  have hh : (r.bitIdx + n + 7) / 8 ≤ r.clen - r.byteIdx := of_decide_eq_true hh
  refine ⟨?_, ?_, ?_, h4, ?_, ?_⟩ <;> simp <;> omega

/-- Advancing moves ABS by the count (spec/43_reader.md R238). -/
theorem Reader.abs_advance (r : Reader) (n : Nat) : (r.advance n).abs = r.abs + n := by
  simp [Reader.abs, Reader.w0, Reader.clen]; omega

theorem Reader.window_advance {r : Reader} {S : Nat → Byte} (n : Nat) (w : r.window S) : (r.advance n).window S := by
  intro j hj
  simpa [Reader.byteAt, Reader.w0, Reader.clen] using w j (by simpa using hj)

/-- Recycling never makes missing bits cached. -/
theorem Reader.holds_recycle (r : Reader) (n : Nat) : r.recycle.holds n = r.holds n := by
  simp [Reader.holds]

/-- What `topUp` can do (spec/43_reader.md R232, R235). -/
theorem Reader.topUp_cases (r : Reader) (n : Nat) :
    (r.topUp n = .ready r ∧ r.holds n = true) ∨ (r.topUp n = .request r (r.cap - r.clen) ∧ r.holds n = false) := by
  unfold Reader.topUp
  cases r.holds n <;> simp

/-- What `ensure` can do (spec/43_reader.md R232): the bits are cached after growth alone, or the next request is for the
whole free space of a cache into which the bits fit. -/
theorem Reader.ensure_cases (r : Reader) (n : Nat) :
    (r.ensure n = .ready (r.grow n) ∧ (r.grow n).holds n = true)
    ∨ ∃ c, (c = r.grow n ∨ c = (r.grow n).recycle) ∧ c.holds n = false ∧ r.ensure n = .request c (c.cap - c.clen)
        ∧ c.byteIdx + c.need n ≤ c.cap := by
  by_cases hh : (r.grow n).holds n = true
  · exact .inl ⟨by simp [Reader.ensure, hh], hh⟩
  · have hh' : (r.grow n).holds n = false := by simpa using hh
    have hr : (r.grow n).recycle.holds n = false := by rw [Reader.holds_recycle, hh']
    by_cases hc : (r.grow n).cap < (r.grow n).byteIdx + (r.grow n).need n
    · refine .inr ⟨_, .inr rfl, hr, ?_, by simp⟩
      unfold Reader.ensure
      simp only [hh', Bool.false_eq_true, if_false, if_pos hc, Reader.topUp, hr]
    · refine .inr ⟨_, .inl rfl, hh', ?_, by omega⟩
      unfold Reader.ensure
      simp only [hh', Bool.false_eq_true, if_false, if_neg hc, Reader.topUp]

end Sys2Proof.Machine
end

