-- ==== Sys2Proof/Laws/Reader.lean ====
section
/-! SUPPORT. What the reader's shared procedures can do: ensure with and without a request, the answer of a request, the loop
of RD.COPYOUT. -/

namespace Sys2Proof.Machine

theorem State.ifOpen_none {s : State} {body : Reader → State} (h : s.reader = none) :
    s.ifOpen body = s.raiseIllegal := by
  simp [State.ifOpen, h]

theorem State.ifOpen_some {s : State} {body : Reader → State} {r : Reader} (h : s.reader = some r) :
    s.ifOpen body = body r := by
  simp [State.ifOpen, h]

/-- The state of a reader is its own copy. -/
theorem State.withReader_self {s : State} {r : Reader} (h : s.reader = some r) : s.withReader r = s := by
  cases s; cases h; rfl

/-- `holds` in bits (spec/43_reader.md R232). -/
theorem Reader.holds_iff (r : Reader) (n : Nat) :
    r.holds n = true ↔ r.bitIdx + n ≤ 8 * (r.clen - r.byteIdx) := by
  unfold Reader.holds
  rw [decide_eq_true_iff]
  unfold Reader.need
  omega

/-- The next n bits are cached exactly when AVAIL reaches n. -/
theorem Reader.holds_iff_avail {p : Params} {r : Reader} {n : Nat} (h : r.ok p) (hn : 1 ≤ n) :
    r.holds n = true ↔ n ≤ r.avail := by
  rw [Reader.holds_iff]
  obtain ⟨h1, h2, h3, h4, h5, h6⟩ := h
  unfold Reader.avail
  split <;> omega

/-- Bits that are cached need no growth. -/
theorem Reader.grow_of_holds {p : Params} {r : Reader} {n : Nat} (h : r.ok p) (hh : r.holds n = true) :
    r.grow n = r := by
  rw [Reader.holds_iff] at hh
  obtain ⟨h1, h2, h3, h4, h5, h6⟩ := h
  unfold Reader.grow
  rw [if_neg]
  unfold Reader.need
  omega

/-- ensure(n) where the bits are cached: nothing (spec/43_reader.md R232). -/
theorem Reader.ensure_cached {p : Params} {r : Reader} {n : Nat} (h : r.ok p) (hn : 1 ≤ n) (ha : n ≤ r.avail) :
    r.ensure n = .ready r := by
  have hh := (Reader.holds_iff_avail h hn).2 ha
  unfold Reader.ensure
  simp only [Reader.grow_of_holds h hh, hh, if_true]

/-- Growth keeps what is cached. -/
theorem Reader.holds_grow (r : Reader) (n m : Nat) : (r.grow n).holds m = r.holds m := by
  simp [Reader.holds]

theorem Reader.cap_grow_eq (r : Reader) (n : Nat) : (r.grow n).cap = max r.cap (r.need n) := by
  unfold Reader.grow
  split
  · dsimp only; omega
  · omega

/-- ensure(n) where bits are missing: growth, recycling where the need does not fit, and the request
(spec/43_reader.md R232 to R235). -/
theorem Reader.ensure_missing {p : Params} {r : Reader} {n : Nat} (h : r.ok p) (hn : 1 ≤ n) (ha : r.avail < n) :
    ∃ c, r.ensure n = .request c (c.cap - c.clen) ∧ c.holds n = false ∧ c.byteIdx + c.need n ≤ c.cap
      ∧ (c = r.grow n ∧ r.byteIdx + r.need n ≤ (r.grow n).cap
        ∨ c = (r.grow n).recycle ∧ (r.grow n).cap < r.byteIdx + r.need n) := by
  have hh : r.holds n = false := by
    cases hx : r.holds n
    · rfl
    · exact absurd ((Reader.holds_iff_avail h hn).1 hx) (by omega)
  have hg : (r.grow n).holds n = false := by rw [Reader.holds_grow, hh]
  have hr : (r.grow n).recycle.holds n = false := by rw [Reader.holds_recycle, hg]
  by_cases hc : (r.grow n).cap < (r.grow n).byteIdx + (r.grow n).need n
  · refine ⟨(r.grow n).recycle, ?_, hr, by simp, .inr ⟨rfl, ?_⟩⟩
    on_goal 2 => rwa [Reader.need_grow, Reader.grow_byteIdx] at hc
    unfold Reader.ensure
    simp only [hg, Bool.false_eq_true, if_false, if_pos hc, Reader.topUp, hr]
  · refine ⟨r.grow n, ?_, hg, by omega, .inl ⟨rfl, ?_⟩⟩
    on_goal 2 => rw [Reader.need_grow, Reader.grow_byteIdx] at hc; exact Nat.not_lt.mp hc
    unfold Reader.ensure
    simp only [hg, Bool.false_eq_true, if_false, if_neg hc, Reader.topUp]

/-- Growth leaves ABS and AVAIL unchanged (spec/43_reader.md R236 (b)). -/
theorem Reader.abs_grow (r : Reader) (n : Nat) : (r.grow n).abs = r.abs := by
  simp [Reader.abs, Reader.w0]

theorem Reader.avail_grow (r : Reader) (n : Nat) : (r.grow n).avail = r.avail := by
  simp [Reader.avail]

/-- Everything ensure(n) promises before it goes on or asks (spec/43_reader.md R232, R236). -/
theorem Reader.ensure_spec {p : Params} {r : Reader} {n : Nat} (h : r.ok p) (hp : n ≤ r.avail ∨ p.legal) (hn : 1 ≤ n)
    (hn' : n ≤ 64) :
    (n ≤ r.avail ∧ r.ensure n = .ready r)
    ∨ (r.avail < n ∧ ∃ c, r.ensure n = .request c (c.cap - c.clen) ∧ c.ok p ∧ c.holds n = false ∧ 1 ≤ c.cap - c.clen
      ∧ c.abs = r.abs ∧ c.avail = r.avail ∧ c.srcPos = r.srcPos ∧ c.bitIdx = r.bitIdx ∧ c.own = r.own
      ∧ c.order = r.order ∧ c.cap = max r.cap (r.need n)
      ∧ (r.byteIdx + r.need n ≤ c.cap ∧ c.cache = r.cache ∧ c.byteIdx = r.byteIdx
        ∨ c.cap < r.byteIdx + r.need n ∧ c.cache = r.cache.drop r.byteIdx ∧ c.byteIdx = 0)
      ∧ ∀ S, r.window S → c.window S) := by
  rcases Nat.lt_or_ge r.avail n with ha | ha
  · refine .inr ⟨ha, ?_⟩
    have hg := Reader.ok_grow (n := n) h (hp.resolve_left (Nat.not_le.2 ha)) hn'
    obtain ⟨c, e, hh, hf, hc⟩ := Reader.ensure_missing h hn ha
    have room : 1 ≤ c.cap - c.clen := by
      have h1 : ¬(c.bitIdx + n ≤ 8 * (c.clen - c.byteIdx)) := by rw [← Reader.holds_iff, hh]; simp
      unfold Reader.need at hf
      omega
    rcases hc with ⟨rfl, hx⟩ | ⟨rfl, hx⟩
    · exact ⟨_, e, hg, hh, room, Reader.abs_grow r n, Reader.avail_grow r n, by simp, by simp, by simp, by simp,
        Reader.cap_grow_eq r n, .inl ⟨hx, by simp, by simp⟩, fun S w => Reader.window_grow n w⟩
    · exact ⟨_, e, Reader.ok_recycle hg, hh, room, (Reader.abs_recycle hg).trans (Reader.abs_grow r n),
        (Reader.avail_recycle hg).trans (Reader.avail_grow r n), by simp, by simp, by simp, by simp,
        Reader.cap_grow_eq r n, .inr ⟨hx, by simp, by simp⟩,
        fun S w => Reader.window_recycle hg (Reader.window_grow n w)⟩
  · exact .inl ⟨ha, Reader.ensure_cached h hn ha⟩

/-- A command that ensures n bits, in its first step (spec/43_reader.md R232). -/
theorem State.afterEnsure_idle {s : State} {r : Reader} {n fcnt : Nat} {k : Reader → State} (hp : s.port = .idle) :
    s.afterEnsure r n fcnt k = s.orAsk (r.ensure n) k := by
  simp [State.afterEnsure, hp]

/-- A command that ensures n bits, at the answer of its request (spec/43_reader.md R232, R235, spec/60_exceptions.md R303). -/
theorem State.afterEnsure_answered {s : State} {r : Reader} {n fcnt m : Nat} {bs : List Byte} {k : Reader → State}
    (hp : s.port = .answered (.read m .blocking) (.bytes bs)) :
    s.afterEnsure r n fcnt k
      = if bs = [] then s.raise .endOfData r.abs fcnt r.avail
        else if (r.absorb bs).holds n = true then k (r.absorb bs)
        else (s.withReader (r.absorb bs)).await (.read ((r.absorb bs).cap - (r.absorb bs).clen) .blocking) := by
  simp only [State.afterEnsure, hp, List.isEmpty_iff, Reader.topUp]
  split
  · rfl
  · split <;> rfl

/-- What `afterEnsure` can do, whatever is on the port. -/
theorem State.afterEnsure_cases (s : State) (r : Reader) (n fcnt : Nat) (k : Reader → State) :
    (∃ c, (s.port = .idle ∧ c = r.grow n ∨ ∃ m bs, s.port = .answered (.read m .blocking) (.bytes bs) ∧ bs ≠ []
          ∧ c = r.absorb bs)
        ∧ c.holds n = true ∧ s.afterEnsure r n fcnt k = k c)
    ∨ (∃ c m, s.afterEnsure r n fcnt k = (s.withReader c).await (.read (c.cap - c.clen) .blocking)
        ∧ c.holds n = false
        ∧ (s.port = .idle ∧ (c = r.grow n ∨ c = (r.grow n).recycle)
          ∨ ∃ bs, s.port = .answered (.read m .blocking) (.bytes bs) ∧ bs ≠ [] ∧ c = r.absorb bs))
    ∨ (∃ m, s.port = .answered (.read m .blocking) (.bytes [])
        ∧ s.afterEnsure r n fcnt k = s.raise .endOfData r.abs fcnt r.avail)
    ∨ (s.port ≠ .idle ∧ (∀ m bs, s.port ≠ .answered (.read m .blocking) (.bytes bs)) ∧ s.afterEnsure r n fcnt k = s) := by
  cases hp : s.port with
  | idle =>
    rw [State.afterEnsure_idle hp]
    rcases r.ensure_cases n with ⟨e, hh⟩ | ⟨c, hc, hh, e, -⟩
    · exact .inl ⟨_, .inl ⟨rfl, rfl⟩, hh, by rw [e]; rfl⟩
    · exact .inr (.inl ⟨c, 0, by rw [e]; rfl, hh, .inl ⟨rfl, hc⟩⟩)
  | waiting req => exact .inr (.inr (.inr ⟨by simp, by simp, by simp [State.afterEnsure, hp]⟩))
  | answered req ans =>
    cases req with
    | read m mode =>
      cases mode with
      | blocking =>
        cases ans with
        | bytes bs =>
          rw [State.afterEnsure_answered hp]
          by_cases hb : bs = []
          · subst hb
            exact .inr (.inr (.inl ⟨m, rfl, by simp⟩))
          · cases hh : (r.absorb bs).holds n
            · exact .inr (.inl ⟨_, m, by simp [hb], hh, .inr ⟨bs, rfl, hb, rfl⟩⟩)
            · exact .inl ⟨_, .inr ⟨m, bs, rfl, hb, rfl⟩, hh, by simp [hb]⟩
        | position p => exact .inr (.inr (.inr ⟨by simp, by simp, by simp [State.afterEnsure, hp]⟩))
        | length p => exact .inr (.inr (.inr ⟨by simp, by simp, by simp [State.afterEnsure, hp]⟩))
        | seek p => exact .inr (.inr (.inr ⟨by simp, by simp, by simp [State.afterEnsure, hp]⟩))
      | poll => exact .inr (.inr (.inr ⟨by simp, by simp, by simp [State.afterEnsure, hp]⟩))
    | position => exact .inr (.inr (.inr ⟨by simp, by simp, by simp [State.afterEnsure, hp]⟩))
    | length => exact .inr (.inr (.inr ⟨by simp, by simp, by simp [State.afterEnsure, hp]⟩))
    | seek q => exact .inr (.inr (.inr ⟨by simp, by simp, by simp [State.afterEnsure, hp]⟩))
    | close => exact .inr (.inr (.inr ⟨by simp, by simp, by simp [State.afterEnsure, hp]⟩))

end Sys2Proof.Machine
end

