-- ==== Sys2Proof/Laws/Copyout.lean ====
section
/-! SUPPORT. The loop of RD.COPYOUT (spec/43_reader.md R249). -/

namespace Sys2Proof.Machine

/-- Two runs of bits put one behind the other are one run. -/
theorem BitsReplaced.append {o : BitOrder} {p a b : Nat} {f g : Nat → Bool} {m m' m'' : Memory}
    (h : BitsReplaced o p a f m m') (h' : BitsReplaced o (p + a) b g m' m'') :
    BitsReplaced o p (a + b) (fun j => if j < a then f j else g (j - a)) m m'' := by
  refine ⟨fun q => ?_, fun x hx => ?_⟩
  · rw [h'.1 q, h.1 q]
    by_cases h1 : p ≤ q ∧ q < p + a
    · rw [if_neg (by omega), if_pos h1, if_pos (by omega)]
      exact (if_pos (by omega)).symm
    · rw [if_neg h1]
      by_cases h2 : p + a ≤ q ∧ q < p + a + b
      · rw [if_pos h2, if_pos (by omega)]
        refine Eq.trans ?_ (if_neg (by omega)).symm
        congr 1; omega
      · rw [if_neg h2, if_neg (by omega)]
  · rw [h'.2 x (by omega), h.2 x (by omega)]

theorem BitsReplaced.congr {o : BitOrder} {p n : Nat} {f g : Nat → Bool} {m m' : Memory}
    (h : BitsReplaced o p n f m m') (hfg : ∀ j, j < n → f j = g j) : BitsReplaced o p n g m m' := by
  refine ⟨fun q => ?_, h.2⟩
  rw [h.1 q]
  by_cases hq : p ≤ q ∧ q < p + n
  · rw [if_pos hq, if_pos hq, hfg _ (by omega)]
  · rw [if_neg hq, if_neg hq]

theorem BitsReplaced.refl (o : BitOrder) (p : Nat) (f : Nat → Bool) (m : Memory) : BitsReplaced o p 0 f m m :=
  ⟨fun q => by rw [if_neg (by omega)], fun _ _ => rfl⟩

/-- AVAIL in terms of the cursor (spec/10_state.md R43). -/
theorem Reader.le_avail_iff {p : Params} {r : Reader} {n : Nat} (h : r.ok p) (hn : 1 ≤ n) :
    n ≤ r.avail ↔ r.bitIdx + n ≤ 8 * (r.clen - r.byteIdx) := by
  rw [← Reader.holds_iff_avail h hn, Reader.holds_iff]

/-- An advance by no bits. -/
theorem Reader.advance_zero {p : Params} {r : Reader} (h : r.ok p) : r.advance 0 = r := by
  have h7 := h.1
  unfold Reader.advance
  cases r; simp only [Nat.add_zero] at h7 ⊢
  rw [show (_ : Nat) / 8 = 0 from Nat.div_eq_of_lt (by omega), Nat.mod_eq_of_lt (by omega)]; rfl

/-- Two advances are one. -/
theorem Reader.advance_advance (r : Reader) (a b : Nat) : (r.advance a).advance b = r.advance (a + b) := by
  unfold Reader.advance
  congr 1 <;> simp only [] <;> omega

/-- The shape of what the loop leaves, whatever the reader: it ends with n in RES, or waits. -/
theorem State.copyChunks_shape (n d chunks : Nat) (r : Reader) (s : State) (hr : s.reader.isSome = true) :
    ∃ m c, (∀ x, 8 * x + 8 ≤ d + s.copied ∨ d + n ≤ 8 * x → m.read x = s.buf.read x)
      ∧ (s.buf.wf = true → m.wf = true)
      ∧ (∀ size, s.buf.within size = true → d + n ≤ 8 * size → m.within size = true)
      ∧ (State.copyChunks n d chunks r s = { s.complete with res := BitVec.ofNat 64 n, buf := m, reader := some c }
        ∨ ∃ done, s.copied ≤ done
          ∧ State.copyChunks n d chunks r s = { s with
              buf := m, reader := some c, copied := done, port := .waiting (.read (c.cap - c.clen) .blocking)
              sent := .read (c.cap - c.clen) .blocking :: s.sent }) := by
  induction chunks generalizing r s with
  | zero =>
    obtain ⟨c, hc⟩ := Option.isSome_iff_exists.1 hr
    refine ⟨s.buf, c, fun _ _ => rfl, id, fun _ h _ => h, .inl ?_⟩
    cases s; cases hc; rfl
  | succ chunks ih =>
    simp only [State.copyChunks]
    rcases r.ensure_cases (s.chunk n) with ⟨e, hh⟩ | ⟨c, hc, hh, e, -⟩
    · rw [e]
      dsimp only [State.orAsk]
      obtain ⟨m, c, h1, h2, h3, h4⟩ := ih ((r.grow (s.chunk n)).advance (s.chunk n))
        (s.copyChunk (r.grow (s.chunk n)) d (s.chunk n)) rfl
      have hch : s.chunk n = 0 ∨ s.copied + s.chunk n ≤ n := by unfold State.chunk; omega
      simp only [State.copyChunk_copied, State.copyChunk_buf, Memory.copyBits] at h1 h2 h3
      refine ⟨m, c, fun x hx => ?_, fun hw => h2 (wf_putBits _ _ _ _ hw), fun size hw hb => h3 size ?_ hb, ?_⟩
      · rw [h1 x (by omega)]
        rcases hch with h0 | hch
        · rw [h0]; rfl
        · exact read_putBits_outside _ _ _ _ _ (by omega)
      · rcases hch with h0 | hch
        · rw [h0]; exact hw
        · exact within_putBits _ _ _ _ hw (by omega)
      · rcases h4 with h4 | ⟨done, hd, h4⟩
        · exact .inl h4
        · exact .inr ⟨done, by simp only [State.copyChunk_copied] at hd; omega, h4⟩
    · rw [e]
      exact ⟨s.buf, c, fun _ _ => rfl, id, fun _ h _ => h, .inr ⟨s.copied, Nat.le_refl _, by
        rcases hc with rfl | rfl <;> rfl⟩⟩

/-- The loop keeps R42 and the window law of its reader. -/
theorem State.copyChunks_reader {p : Params} (hp : p.legal) (n d chunks : Nat) {r : Reader} {s : State} (ok : r.ok p)
    (hr : s.reader = some r) :
    ∀ c, (State.copyChunks n d chunks r s).reader = some c → c.ok p ∧ ∀ S, r.window S → c.window S := by
  induction chunks generalizing r s with
  | zero =>
    intro c hc
    obtain rfl : r = c := Option.some.inj (hr.symm.trans hc)
    exact ⟨ok, fun _ => id⟩
  | succ chunks ih =>
    have h64 : s.chunk n ≤ 64 := by unfold State.chunk; omega
    have okg := Reader.ok_grow ok hp h64
    intro c hc
    simp only [State.copyChunks] at hc
    rcases r.ensure_cases (s.chunk n) with ⟨e, hh⟩ | ⟨c', hc', hh, e, -⟩
    · rw [e] at hc
      have := ih (s := s.copyChunk (r.grow (s.chunk n)) d (s.chunk n)) (Reader.ok_advance okg hh) rfl c hc
      exact ⟨this.1, fun S w => this.2 S (Reader.window_advance _ (Reader.window_grow _ w))⟩
    · rw [e] at hc
      obtain rfl : c' = c := Option.some.inj hc
      rcases hc' with rfl | rfl
      · exact ⟨okg, fun S w => Reader.window_grow _ w⟩
      · exact ⟨Reader.ok_recycle okg, fun S w => Reader.window_recycle okg (Reader.window_grow _ w)⟩

/-- What the loop does with a reader that keeps R42: it copies `done - s.copied` bits from the cursor, all that are left or as
many whole chunks as are cached, and then ends or asks for more (spec/43_reader.md R249). -/
theorem State.copyChunks_spec {p : Params} {n d chunks : Nat} {r : Reader} {s : State} (ok : r.ok p)
    (hp : n - s.copied ≤ r.avail ∨ p.legal) (hr : s.reader = some r) (hn : s.copied ≤ n) (h64 : s.copied = n ∨ s.copied % 64 = 0)
    (hch : chunks = (n - s.copied + 63) / 64) :
    ∃ m c done, s.copied ≤ done ∧ done ≤ n
      ∧ (s.copied < done → r.bitIdx + (done - s.copied) ≤ 8 * (r.clen - r.byteIdx))
      ∧ BitsReplaced r.order (d + s.copied) (done - s.copied) (fun j => bitGet r.order r.byteAt (r.cursor + j)) s.buf m
      ∧ c.ok p ∧ c.abs = r.abs + (done - s.copied) ∧ (∀ S, r.window S → c.window S)
      ∧ (done = n ∧ c = r.advance (n - s.copied)
          ∧ State.copyChunks n d chunks r s = { s.complete with res := BitVec.ofNat 64 n, buf := m, reader := some c }
        ∨ done < n ∧ done % 64 = 0 ∧ r.avail < n - s.copied
          ∧ (r.advance (done - s.copied)).avail < min 64 (n - done)
          ∧ EnsuredFor p (min 64 (n - done)) (r.advance (done - s.copied)) c
          ∧ State.copyChunks n d chunks r s = { s with
              buf := m, reader := some c, copied := done
              port := .waiting (.read (c.cap - c.clen) .blocking)
              sent := .read (c.cap - c.clen) .blocking :: s.sent }) := by
  induction chunks generalizing r s with
  | zero =>
    have hc : s.copied = n := by omega
    refine ⟨s.buf, r, n, by omega, by omega, by omega, ?_, ok, by omega, fun _ => id, .inl ⟨rfl, ?_, ?_⟩⟩
    · rw [hc, Nat.sub_self]; exact BitsReplaced.refl _ _ _ _
    · rw [hc, Nat.sub_self, Reader.advance_zero ok]
    · cases s; cases hr; rfl
  | succ chunks ih =>
    have hlt : s.copied < n := by omega
    have h64 : s.copied % 64 = 0 := by omega
    have hm1 : 1 ≤ s.chunk n := by unfold State.chunk; omega
    have hm64 : s.chunk n ≤ 64 := by unfold State.chunk; omega
    have hmn : s.copied + s.chunk n ≤ n := by unfold State.chunk; omega
    have hcm : s.chunk n = 64 ∨ s.copied + s.chunk n = n := by unfold State.chunk; omega
    simp only [State.copyChunks]
    rcases Reader.ensure_spec ok (hp.imp_left fun h => by omega) hm1 hm64 with ⟨ha, e⟩ | ⟨ha, c, e, c1, -, c3, c4, c5, c6, c7, c8, c9, c10, cs, c11⟩
    · rw [e]
      dsimp only [State.orAsk]
      have hh := (Reader.holds_iff_avail ok hm1).2 ha
      have oka := Reader.ok_advance ok hh
      have hbits := (Reader.holds_iff _ _).1 hh
      obtain ⟨m, c, done, h1, h2, h3, h4, h5, h6, h7, h8⟩ :=
        ih (r := r.advance (s.chunk n)) (s := s.copyChunk r d (s.chunk n)) oka
          (hp.imp_left fun hl => by
            rcases Nat.lt_or_ge (s.copied + s.chunk n) n with hlt' | hge
            · refine (Reader.le_avail_iff oka (by simp only [State.copyChunk_copied]; omega)).2 ?_
              have := (Reader.le_avail_iff ok (by omega)).1 hl
              simp only [State.copyChunk_copied, Reader.advance_bitIdx, Reader.clen_advance, Reader.advance_byteIdx]
              omega
            · simp only [State.copyChunk_copied]; omega)
          rfl
          (by simp only [State.copyChunk_copied]; omega) (by simp only [State.copyChunk_copied]; omega)
          (by simp only [State.copyChunk_copied]; omega)
      have e1 : (r.advance (s.chunk n)).order = r.order := rfl
      have e2 : (r.advance (s.chunk n)).byteAt = r.byteAt := rfl
      have e3 : (r.advance (s.chunk n)).cursor = r.cursor + s.chunk n := by
        simp only [Reader.cursor, Reader.advance_byteIdx, Reader.advance_bitIdx]; omega
      simp only [State.copyChunk_copied, State.copyChunk_buf, e1, e2, e3] at h1 h2 h4 h6 h8
      simp only [State.copyChunk_copied, Reader.advance_bitIdx, Reader.clen_advance, Reader.advance_byteIdx] at h3
      refine ⟨m, c, done, by omega, h2, ?_, ?_, h5, ?_, fun S w => h7 S (Reader.window_advance _ w), ?_⟩
      · intro _
        rcases Nat.lt_or_ge (s.copied + s.chunk n) done with h | h
        · have := h3 h; omega
        · omega
      · have := BitsReplaced.append (bitsReplaced_putBits r.order (d + s.copied) (s.chunk n)
          (fun j => bitGet r.order r.byteAt (r.cursor + j)) s.buf) (by rw [Nat.add_assoc]; exact h4)
        rw [show done - s.copied = s.chunk n + (done - (s.copied + s.chunk n)) by omega]
        refine this.congr fun j _ => ?_
        split
        · rfl
        · congr 1; omega
      · rw [h6, Reader.abs_advance]; omega
      · rcases h8 with ⟨h8, h9, h10⟩ | ⟨h8, h9, h10, ha', he, h11⟩
        · refine .inl ⟨h8, ?_, h10⟩
          rw [h9, Reader.advance_advance]
          congr 1; omega
        · rw [Reader.advance_advance, show s.chunk n + (done - (s.copied + s.chunk n)) = done - s.copied by omega] at ha' he
          refine .inr ⟨h8, h9, ?_, ha', he, h11⟩
          have ha := (Reader.le_avail_iff oka (n := n - (s.copied + s.chunk n)) (by omega)).not.1 (Nat.not_le.2 h10)
          simp only [Reader.advance_bitIdx, Reader.clen_advance, Reader.advance_byteIdx] at ha
          refine Nat.not_le.1 ((Reader.le_avail_iff ok (by omega)).not.2 ?_)
          clear ih h1 h3 h4 h5 h6 h7 h10 h11 ha' he e ok oka
          omega
    · rw [e]
      refine ⟨s.buf, c, s.copied, Nat.le_refl _, by omega, by omega, ?_, c1, by omega, c11,
        .inr ⟨hlt, h64, by omega, ?_, ?_, rfl⟩⟩
      · rw [Nat.sub_self]; exact BitsReplaced.refl _ _ _ _
      · rw [Nat.sub_self, Reader.advance_zero ok]; exact ha
      · rw [Nat.sub_self, Reader.advance_zero ok]
        have hne : r.need (s.chunk n) = (r.bitIdx + min 64 (n - s.copied) + 7) / 8 := rfl
        rw [hne] at c10 cs
        refine ⟨c1, c10, c3, ?_, c7, c6, c8, c9, c4, c5⟩
        rcases cs with ⟨hx, hc, hb⟩ | ⟨hx, hc, hb⟩
        · rw [if_pos hx]; exact ⟨hc, hb⟩
        · rw [if_neg (by omega)]; exact ⟨hc, hb⟩

end Sys2Proof.Machine
end

