-- ==== Sys2Proof/Laws/Integer.lean ====
section
/-! SUPPORT. The loops of RDINT and WRINT (Machine/Integer.lean). -/

namespace Sys2Proof.Machine

/-- The bits of the number that RDINT assembles (spec/42_integer.md R201). -/
theorem assemble_testBit (byte : Nat → Byte) (n k : Nat) :
    (assemble byte n).testBit k = (decide (k < 8 * n) && (byte (k / 8)).getLsbD (k % 8)) := by
  induction n with
  | zero => simp [assemble]
  | succ n ih =>
    simp only [assemble, Nat.testBit_or, ih, Nat.testBit_shiftLeft]
    rcases Nat.lt_trichotomy (k / 8) n with h | h | h
    · simp [show k < 8 * n by omega, show k < 8 * (n + 1) by omega, show ¬ 8 * n ≤ k by omega]
    · have : k - 8 * n = k % 8 := by omega
      simp [show ¬ k < 8 * n by omega, show k < 8 * (n + 1) by omega, show 8 * n ≤ k by omega, this, h]
      rfl
    · simp [show ¬ k < 8 * n by omega, show ¬ k < 8 * (n + 1) by omega]
      intro _
      exact BitVec.getLsbD_of_ge _ _ (by omega)

/-- The bits of its extension (spec/42_integer.md R201). -/
theorem extendInt_bit (g : Bool) (n v k : Nat) (hn : 1 ≤ n) (hn8 : n ≤ 8)
    (hv : ∀ j, 8 * n ≤ j → v.testBit j = false) (hk : k < 64) :
    (extendInt g n v).getLsbD k = if k < 8 * n then v.testBit k else (g && v.testBit (8 * n - 1)) := by
  unfold extendInt
  cases g
  · simp only [Bool.false_eq_true, if_false, BitVec.getLsbD_ofNat, hk, decide_true, Bool.true_and, Bool.false_and]
    split
    · rfl
    · exact hv _ (by omega)
  · simp only [if_true, Bool.true_and, BitVec.getLsbD_signExtend, hk, decide_true, BitVec.getLsbD_ofNat]
    by_cases h : k < 8 * n
    · simp [h]
    · simp [h, BitVec.msb_eq_getLsbD_last, BitVec.getLsbD_ofNat]
      intro _; omega

/-- What WRINT stores, and where it stores nothing (spec/42_integer.md R202). -/
theorem read_storeBytes (addr : Nat → Nat) (v : Word) (n : Nat) (m : Memory) (x : Nat)
    (inj : ∀ i j, i < n → j < n → addr i = addr j → i = j) :
    (∀ i, i < n → (m.storeBytes addr v n).read (addr i) = byteOf v i)
    ∧ ((∀ i, i < n → addr i ≠ x) → (m.storeBytes addr v n).read x = m.read x) := by
  induction n with
  | zero => exact ⟨fun i h => by omega, fun _ => rfl⟩
  | succ n ih =>
    have ih := ih (fun i j hi hj h => inj i j (by omega) (by omega) h)
    refine ⟨fun i hi => ?_, fun h => ?_⟩
    · simp only [Memory.storeBytes, Memory.read_write]
      by_cases hin : i = n
      · subst hin; simp
      · rw [if_neg (fun h => hin (inj i n hi (by omega) h)), ih.1 i (by omega)]
    · simp only [Memory.storeBytes]
      rw [Memory.read_write_other _ _ (fun e => h n (by omega) e.symm), ih.2 (fun i hi => h i (by omega))]

/-- Storing bytes keeps the canonical form. -/
theorem wf_storeBytes (addr : Nat → Nat) (v : Word) (n : Nat) {m : Memory} (h : m.wf = true) :
    (m.storeBytes addr v n).wf = true := by
  induction n with
  | zero => exact h
  | succ n ih => exact Memory.wf_write ih _ _

/-- Storing bytes below `size` keeps every listed address below it. -/
theorem within_storeBytes {addr : Nat → Nat} {size : Nat} (v : Word) (n : Nat) {m : Memory} (h : m.within size = true)
    (ha : ∀ i, i < n → addr i < size) : (m.storeBytes addr v n).within size = true := by
  induction n with
  | zero => exact h
  | succ n ih => exact Memory.within_write (ih fun i hi => ha i (by omega)) (ha n (by omega)) _

end Sys2Proof.Machine
end

