-- ==== Sys2Proof/Laws/Commands.lean ====
section
/-! SUPPORT. Everything that one step of a command can leave: the one case distinction that statements about all commands start
from. -/

namespace Sys2Proof.Machine

/-- What a command leaves of BUF: its canonical form, its size, and all of it where the command does not write it. -/
def BufLeft (i : Instr) (s : State) (m : Memory) : Prop :=
  (writesBuf i = false → m = s.buf) ∧ (s.buf.wf = true → m.wf = true)
    ∧ (s.buf.within s.params.bufBytes = true → m.within s.params.bufBytes = true)

/-- The answer on the port, if it is one of bytes, fits into the cache. -/
def State.answerFits (s : State) : Prop :=
  ∀ n mode bs, s.port = .answered (.read n mode) (.bytes bs) →
    ∀ r, s.reader = some r → bs.length ≤ r.cap - r.clen

/-- The answer on the port, if it is one of bytes, has those of `S` at SRC_POS. -/
def State.answerOf (S : Nat → Byte) (s : State) : Prop :=
  ∀ n mode bs, s.port = .answered (.read n mode) (.bytes bs) →
    ∀ r, s.reader = some r → ∀ j, j < bs.length → bs.getD j 0 = S (r.srcPos + j)

/-- What a command leaves of the reader: all of it where it is no reader command; else R42 and the window law. -/
def ReaderLeft (i : Instr) (s : State) (r : Option Reader) : Prop :=
  (isReaderCommand i = false → r = s.reader)
    ∧ (s.params.legal → s.readerOk → s.answerFits →
      ∀ c, r = some c → c.ok s.params ∧ ∀ S, s.windowOf S → s.answerOf S → c.window S)

/-- The fault is one that the command may raise in `s`. -/
def MayRaise (i : Instr) (s : State) (f : FCode) : Prop :=
  f = .configuration ∧ (s.cfgf = true ∨ s.params.sysBitOrder = none)
    ∨ f = .range
    ∨ f = .illegalCommand ∧ isReaderCommand i = true
    ∨ f = .endOfData ∧ (∃ k, s.port = .answered (.read k .blocking) (.bytes []))
      ∧ (i = .rdCopyout ∨ ∃ r n, s.reader = some r ∧ ensuredBits i r = some n)

/-- Every state that one step of the command can leave. -/
inductive Leaves (i : Instr) (s : State) : State → Prop
  /-- A fault, with nothing else changed. -/
  | fault (f : FCode) (a b c : Nat) (h : MayRaise i s f) : Leaves i s (s.raise f a b c)
  /-- The fault of RD.COPYOUT at the end of the source, which writes RES. -/
  | short (a b c : Nat) (v : Word) (hi : i = .rdCopyout)
    (hp : ∃ k, s.port = .answered (.read k .blocking) (.bytes [])) :
    Leaves i s (State.raise { s with res := v } .endOfData a b c)
  /-- The end of the command. -/
  | ends (m : Memory) (v : Word) (r : Option Reader) (out : List SrcRequest) (hm : BufLeft i s m) (hr : ReaderLeft i s r)
    (hv : hasResult i = false → v = s.res) (ho : isReaderCommand i = false → out = s.sent) :
    Leaves i s { s.complete with buf := m, res := v, reader := r, sent := out }
  /-- A request. -/
  | asks (m : Memory) (r : Option Reader) (done : Nat) (req : SrcRequest) (hm : BufLeft i s m) (hr : ReaderLeft i s r)
    (hi : isReaderCommand i = true) (ha : awaits i req = true)
    (hq : ∀ n mode, req = .read n mode → ∃ c, r = some c ∧ n ≤ c.cap - c.clen) :
    Leaves i s { s with buf := m, reader := r, copied := done, port := .waiting req, sent := req :: s.sent }
  /-- Nothing: the request on the port is not one of the command with its answer. -/
  | stays (h : s.port ≠ .idle) (hi : isReaderCommand i = true)
    (hn : ∀ q a, s.port = .answered q a → awaits i q = true → q.allows a = false) : Leaves i s s

theorem BufLeft.same (i : Instr) (s : State) : BufLeft i s s.buf := ⟨fun _ => rfl, id, id⟩

theorem ReaderLeft.same (i : Instr) (s : State) : ReaderLeft i s s.reader :=
  ⟨fun _ => rfl, fun _ h _ c hc => ⟨h c hc, fun _ w _ => w c hc⟩⟩

/-- A command that ends with a result alone. -/
theorem Leaves.result {i : Instr} {s : State} (v : Word) (h : hasResult i = true) : Leaves i s (s.completeWith v) :=
  .ends s.buf v s.reader s.sent (.same i s) (.same i s) (by simp [h]) (fun _ => rfl)

/-- A command that ends with nothing to show. -/
theorem Leaves.plain (i : Instr) (s : State) : Leaves i s s.complete :=
  .ends s.buf s.res s.reader s.sent (.same i s) (.same i s) (fun _ => rfl) (fun _ => rfl)

theorem Leaves.range (i : Instr) (s : State) (a b c : Nat) : Leaves i s (s.raise .range a b c) :=
  .fault _ _ _ _ (.inr (.inl rfl))

/-- A command that ends having written BUF, and perhaps RES. -/
theorem Leaves.wrote {i : Instr} {s : State} {m : Memory} (v : Word) (hm : BufLeft i s m)
    (hv : hasResult i = false → v = s.res) : Leaves i s { s.complete with buf := m, res := v } :=
  .ends m v s.reader s.sent hm (.same i s) hv (fun _ => rfl)

/-- ConfigurationFault or the rest of the command (spec/60_exceptions.md R301). -/
theorem Leaves.unlessConfigFault {i : Instr} {s body : State} (h : s.cfgf = false → Leaves i s body) :
    Leaves i s (s.unlessConfigFault body) := by
  rcases s.unlessConfigFault_cases body with ⟨hc, e⟩ | ⟨hc, e⟩
  · rw [e]; exact .fault _ _ _ _ (.inl ⟨rfl, .inl hc⟩)
  · rw [e]; exact h hc

/-- The range check of a BUF command (spec/20_memory.md R67). -/
theorem Leaves.ifInBuf {i : Instr} {s body : State} {p n : Nat} (h : p + n ≤ 8 * s.params.bufBytes → Leaves i s body) :
    Leaves i s (s.ifInBuf p n body) := by
  rcases s.ifInBuf_cases body p n with ⟨-, e⟩ | ⟨hb, e⟩
  · rw [e]; exact .range ..
  · rw [e]; exact h hb

theorem Leaves.lut {i : Instr} {s : State} (limit : Nat) (f : Word → Word) (h : hasResult i = true) :
    Leaves i s (s.lutCommand limit f) := by
  rcases s.lutCommand_cases limit f with ⟨-, e⟩ | ⟨-, e⟩
  · rw [e]; exact .range ..
  · rw [e]; exact .result _ h

theorem Leaves.scale {i : Instr} {s : State} (k : Nat) (h : hasResult i = true) : Leaves i s (s.scaleCommand k) := by
  rcases s.scaleCommand_cases k with ⟨-, e⟩ | ⟨-, e⟩
  · rw [e]; exact .range ..
  · rw [e]; exact .result _ h

theorem Leaves.readBits {i : Instr} {s : State} (o : BitOrder) (n : Nat) (h : hasResult i = true) :
    Leaves i s (s.readBits o n) := by
  rcases s.readBits_cases o n with ⟨-, e⟩ | ⟨-, e⟩ | ⟨-, -, -, e⟩
  · rw [e]; exact .range ..
  · rw [e]; exact .result _ h
  · rw [e]; exact .result _ h

theorem bufLeft_putBits {i : Instr} {s : State} (o : BitOrder) (p n : Nat) (bit : Nat → Bool) (hi : writesBuf i = true)
    (h : p + n ≤ 8 * s.params.bufBytes) : BufLeft i s (Memory.putBits o p bit n s.buf) :=
  ⟨by simp [hi], fun hw => wf_putBits o p bit n hw, fun hw => within_putBits o p bit n hw h⟩

theorem Leaves.writeBits {i : Instr} {s : State} (o : BitOrder) (n : Nat) (hi : writesBuf i = true) :
    Leaves i s (s.writeBits o n) := by
  rcases s.writeBits_cases o n with ⟨-, e⟩ | ⟨-, e⟩ | ⟨-, -, h, e⟩
  · rw [e]; exact .range ..
  · rw [e]; exact .plain ..
  · rw [e]; exact .wrote s.res (bufLeft_putBits o _ n _ hi h) (fun _ => rfl)

theorem Leaves.copyBlock {i : Instr} {s : State} (o : BitOrder) (hi : writesBuf i = true) : Leaves i s (s.copyBlock o) := by
  rcases s.copyBlock_cases o with ⟨-, e⟩ | ⟨-, -, e⟩ | ⟨-, -, -, e⟩ | ⟨-, -, h, e⟩
  · rw [e]; exact .plain ..
  · rw [e]; exact .range ..
  · rw [e]; exact .range ..
  · rw [e]; exact .wrote s.res (bufLeft_putBits o _ _ _ hi h) (fun _ => rfl)

/-- The address part of a single-bit command. -/
theorem Leaves.atBit {i : Instr} {s skip : State} {n : Nat} {body : BitOrder → Nat → State} (hs : Leaves i s skip)
    (hb : ∀ o, s.latchB.toNat < s.params.bufBytes → n ≠ 8 → Leaves i s (body o (8 * s.latchB.toNat + n))) :
    Leaves i s (s.atBit n skip body) := by
  rcases s.atBit_cases n skip body with ⟨-, e⟩ | ⟨-, -, e⟩ | ⟨-, -, h, e⟩ | ⟨o, h, h8, -, e⟩
  · rw [e]; exact .range ..
  · rw [e]; exact hs
  · rw [e]; exact .fault _ _ _ _ (.inl ⟨rfl, .inr h⟩)
  · rw [e]; exact hb o h h8

theorem Leaves.ifIndex {i : Instr} {s body : State} {n : Nat} (hb : n ≤ 8 → Leaves i s body) :
    Leaves i s (s.ifIndex n body) := by
  rcases s.ifIndex_cases n body with ⟨-, e⟩ | ⟨h, e⟩
  · rw [e]; exact .range ..
  · rw [e]; exact hb (by unfold State.maxIndex at h; split at h <;> omega)

theorem Leaves.changeBit {i : Instr} {s : State} (n : Nat) (f : Bool → Bool) (hi : writesBuf i = true) :
    Leaves i s (s.changeBit n f) :=
  .ifIndex fun hn => .atBit (.plain i s) fun o h h8 =>
    .wrote s.res (bufLeft_putBits o _ 1 (fun _ => f (bitGet o s.bufByte (8 * s.latchB.toNat + n))) hi
      (by show 8 * s.latchB.toNat + n + 1 ≤ _; omega)) (fun _ => rfl)

theorem Leaves.intCommand {i : Instr} {s empty body : State} (size : Nat) (he : Leaves i s empty)
    (hb : 1 ≤ size → s.latchB.toNat + size ≤ s.params.bufBytes → Leaves i s body) :
    Leaves i s (s.intCommand size empty body) := by
  rcases s.intCommand_cases size empty body with ⟨-, e⟩ | ⟨-, e⟩ | ⟨h1, -, h, e⟩
  · rw [e]; exact .range ..
  · rw [e]; exact he
  · rw [e]; exact hb h1 h

/-- Illegal while no reader is open, else the rest of the command (spec/43_reader.md R239). -/
theorem Leaves.ifOpen {i : Instr} {s : State} {body : Reader → State} (hi : isReaderCommand i = true)
    (hb : ∀ r, s.reader = some r → Leaves i s (body r)) : Leaves i s (s.ifOpen body) := by
  cases h : s.reader with
  | none => rw [State.ifOpen_none h]; exact .fault _ _ _ _ (.inr (.inr (.inl ⟨rfl, hi⟩)))
  | some r => rw [State.ifOpen_some h]; exact hb r h

/-- What is left of the reader where it becomes `c`, made from the open reader `r`. -/
theorem ReaderLeft.of {i : Instr} {s : State} {r c : Reader} (hi : isReaderCommand i = true) (hr : s.reader = some r)
    (h : s.params.legal → r.ok s.params → s.answerFits →
      c.ok s.params ∧ ∀ S, r.window S → s.answerOf S → c.window S) : ReaderLeft i s (some c) := by
  refine ⟨by simp [hi], fun hp ho ha x hx => ?_⟩
  cases hx
  have := h hp (ho r hr) ha
  exact ⟨this.1, fun S w a => this.2 S (w r hr) a⟩

/-- The reader after an answer of bytes. -/
theorem readerLeft_absorb {i : Instr} {s : State} {r : Reader} {n : Nat} {mode : ReadMode} {bs : List Byte}
    (hi : isReaderCommand i = true) (hr : s.reader = some r) (hp : s.port = .answered (.read n mode) (.bytes bs)) :
    ReaderLeft i s (some (r.absorb bs)) :=
  .of hi hr fun _ ho ha => ⟨Reader.ok_absorb ho (ha n mode bs hp r hr),
    fun _ w a => Reader.window_absorb ho w (a n mode bs hp r hr)⟩

/-- A property of the reader that the commands keep stays with a further change. -/
theorem ReaderLeft.map {i : Instr} {s : State} {c c' : Reader} (hi : isReaderCommand i = true) (h : ReaderLeft i s (some c))
    (hm : s.params.legal → c.ok s.params → c'.ok s.params ∧ ∀ S, c.window S → c'.window S) :
    ReaderLeft i s (some c') := by
  refine ⟨by simp [hi], fun hp ho ha x hx => ?_⟩
  cases hx
  have h1 := h.2 hp ho ha c rfl
  have h2 := hm hp h1.1
  exact ⟨h2.1, fun S w a => h2.2 S (h1.2 S w a)⟩

/-- The reader command ends, having changed the reader and perhaps RES. -/
theorem Leaves.moved {i : Instr} {s : State} {c : Reader} (v : Word) (hi : isReaderCommand i = true)
    (hr : ReaderLeft i s (some c)) (hv : hasResult i = false → v = s.res) :
    Leaves i s { s.complete with res := v, reader := some c } :=
  .ends s.buf v (some c) s.sent (.same i s) hr hv (by simp [hi])

/-- A command that ensures n bits and then goes on (spec/43_reader.md R232). -/
theorem Leaves.afterEnsure {i : Instr} {s : State} {r : Reader} {n fcnt : Nat} {k : Reader → State}
    (hi : isReaderCommand i = true) (hn : n ≤ 64)
    (ha : ∀ q, awaits i q = true ↔ ∃ n, q = .read n .blocking)
    (he : i = .rdCopyout ∨ ∃ r n, s.reader = some r ∧ ensuredBits i r = some n) (hr : s.reader = some r)
    (hk : ∀ c, ReaderLeft i s (some c) → c.holds n = true → Leaves i s (k c)) :
    Leaves i s (s.afterEnsure r n fcnt k) := by
  have hg : ReaderLeft i s (some (r.grow n)) :=
    .of hi hr fun hp ho _ => ⟨Reader.ok_grow ho hp hn, fun _ w _ => Reader.window_grow n w⟩
  rcases s.afterEnsure_cases r n fcnt k with ⟨c, hc, hh, e⟩ | ⟨c, m, e, -, hc⟩ | ⟨m, hp, e⟩ | ⟨hp, hq, e⟩
  · rw [e]
    rcases hc with ⟨-, rfl⟩ | ⟨m, bs, hp, -, rfl⟩
    · exact hk _ hg hh
    · exact hk _ (readerLeft_absorb hi hr hp) hh
  · rw [e]
    refine .asks s.buf (some c) s.copied _ (.same i s) ?_ hi ((ha _).2 ⟨_, rfl⟩)
      fun n mode h => ⟨c, rfl, by cases h; exact Nat.le_refl _⟩
    rcases hc with ⟨-, rfl | rfl⟩ | ⟨bs, hp, -, rfl⟩
    · exact hg
    · exact hg.map hi fun _ ho => ⟨Reader.ok_recycle ho, fun _ w => Reader.window_recycle ho w⟩
    · exact readerLeft_absorb hi hr hp
  · rw [e]
    exact .fault _ _ _ _ (.inr (.inr (.inr ⟨rfl, ⟨m, hp⟩, he⟩)))
  · rw [e]
    refine .stays hp hi fun q a h hq' => ?_
    obtain ⟨k, rfl⟩ := (ha q).1 hq'
    cases a with
    | bytes bs => exact absurd h (hq k bs)
    | position => rfl
    | length => rfl
    | seek => rfl

/-- RD.PEEK and RD.READ (spec/43_reader.md R245, R246). -/
theorem Leaves.readerField {i : Instr} {s : State} {n : Nat} {rv : Bool} {move : Reader → Reader}
    (hi : isReaderCommand i = true) (ha : ∀ q, awaits i q = true ↔ ∃ n, q = .read n .blocking) (hv : hasResult i = true)
    (he : ∀ r, 1 ≤ n → n ≤ 64 → ensuredBits i r = some n)
    (hm : ∀ p c, c.holds n = true → Reader.ok p c → Reader.ok p (move c) ∧ ∀ S, c.window S → (move c).window S) :
    Leaves i s (s.readerField n rv move) := by
  refine .ifOpen hi fun r hr => ?_
  split
  · exact .range ..
  · split
    · exact .result 0 hv
    · refine .afterEnsure hi (by omega) ha (.inr ⟨r, n, hr, he r (by omega) (by omega)⟩) hr fun c hc hh => ?_
      exact .moved _ hi (hc.map hi fun _ ho => hm _ c hh ho) (by simp [hv])

/-- The requests of the commands that ensure bits and of RD.COPYOUT. -/
theorem awaits_blocking (q : SrcRequest) :
    (∀ n rv, awaits (.rdPeek n rv) q = true ↔ ∃ n, q = .read n .blocking)
    ∧ (∀ n rv, awaits (.rdRead n rv) q = true ↔ ∃ n, q = .read n .blocking)
    ∧ (awaits .rdAlign q = true ↔ ∃ n, q = .read n .blocking)
    ∧ (awaits .rdCopyout q = true ↔ ∃ n, q = .read n .blocking) := by
  cases q with
  | read n mode => cases mode <;> simp [awaits]
  | position => simp [awaits]
  | length => simp [awaits]
  | seek q => simp [awaits]
  | close => simp [awaits]

theorem Leaves.rdOpen (ord : BitVec 2) (own : Bool) (s t : State) (h : execRdOpen ord own s = .next t) :
    Leaves (.rdOpen ord own) s t := by
  unfold execRdOpen at h
  injection h with h
  subst h
  refine .unlessConfigFault fun hc => ?_
  split
  · exact .fault _ _ _ _ (.inr (.inr (.inl ⟨rfl, rfl⟩)))
  · split
    · exact .range ..
    · rename_i h1 h2
      cases ho : openOrder s.params ord with
      | none =>
        refine .fault _ _ _ _ (.inl ⟨rfl, .inr ?_⟩)
        unfold openOrder at ho
        split at ho
        · exact ho
        · split at ho <;> cases ho
      | some o =>
        dsimp only
        split
        · exact .asks s.buf s.reader s.copied .position (.same _ s) (.same _ s) rfl rfl (fun n m h => by cases h)
        · rename_i q hp
          refine .moved s.res rfl ⟨by simp [isReaderCommand], fun hp ho ha c hc => ?_⟩ (fun _ => rfl)
          cases hc
          refine ⟨⟨by simp [Reader.fresh], by simp [Reader.fresh], by simp [Reader.fresh, Reader.clen],
            by simp only [Reader.fresh]; omega, by simp [Reader.fresh, Reader.clen], by simp [Reader.fresh, Reader.clen]⟩,
            fun S _ _ j hj => ?_⟩
          simp [Reader.fresh, Reader.clen] at hj
        · rename_i hp hx
          refine .stays hp rfl fun q a h hq => ?_
          rcases q with ⟨n, _ | _⟩ | _ | _ | _ | _ <;> rcases a with bs | p | l | b <;>
            first
            | rfl
            | exact (hx _ h).elim
            | exact (hx _ _ h).elim
            | simp [awaits] at hq

theorem Leaves.rdClose (s t : State) (h : execRdClose s = .next t) : Leaves .rdClose s t := by
  unfold execRdClose at h
  injection h with h
  subst h
  refine .unlessConfigFault fun hc => ?_
  cases hr : s.reader with
  | none => exact .plain ..
  | some r =>
    exact .ends s.buf s.res none _ (.same _ s) ⟨by simp [isReaderCommand], fun _ _ _ c hc => by cases hc⟩ (fun _ => rfl)
      (by simp [isReaderCommand])

theorem Leaves.rdFill (s t : State) (h : execRdFill s = .next t) : Leaves .rdFill s t := by
  unfold execRdFill at h
  injection h with h
  subst h
  refine .unlessConfigFault fun hc => .ifOpen rfl fun r hr => ?_
  have hl : ReaderLeft .rdFill s (some (if 0 < r.byteIdx then r.recycle else r)) := by
    refine .of rfl hr fun _ ho _ => ?_
    split
    · exact ⟨Reader.ok_recycle ho, fun _ w _ => Reader.window_recycle ho w⟩
    · exact ⟨ho, fun _ w _ => w⟩
  split
  · generalize (if 0 < r.byteIdx then r.recycle else r) = c at hl
    dsimp only
    split
    · exact .asks s.buf (some c) s.copied _ (.same _ s) hl rfl rfl
        (fun n m h => ⟨c, rfl, by injection h with h; omega⟩)
    · exact .moved _ rfl hl (by simp [hasResult])
  · rename_i hp
    exact .moved _ rfl (readerLeft_absorb rfl hr hp) (by simp [hasResult])
  · rename_i hp hx
    refine .stays hp rfl fun q a h hq => ?_
    rcases q with ⟨n, _ | _⟩ | _ | _ | _ | _ <;> rcases a with bs | p | l | b <;>
      first
      | rfl
      | exact (hx _ h).elim
      | exact (hx _ _ h).elim
      | simp [awaits] at hq

theorem Leaves.rdRemain (s t : State) (h : execRdRemain s = .next t) : Leaves .rdRemain s t := by
  unfold execRdRemain at h
  injection h with h
  subst h
  refine .unlessConfigFault fun hc => .ifOpen rfl fun r hr => ?_
  split
  · exact .asks s.buf s.reader s.copied .length (.same _ s) (.same _ s) rfl rfl (fun n m h => by cases h)
  · exact .result _ rfl
  · rename_i hp hx
    refine .stays hp rfl fun q a h hq => ?_
    rcases q with ⟨n, _ | _⟩ | _ | _ | _ | _ <;> rcases a with bs | p | l | b <;>
      first
      | rfl
      | exact (hx _ h).elim
      | exact (hx _ _ h).elim
      | simp [awaits] at hq

/-- A seek inside the window keeps R42 (spec/43_reader.md R247). -/
theorem Reader.ok_moveTo {p : Params} {r : Reader} {t : Nat} (h : r.ok p) (ht : r.inWindow t = true) : (r.moveTo t).ok p := by
  obtain ⟨h1, h2, h3, h4, h5, h6⟩ := h
  have ht : 8 * r.w0 ≤ t ∧ t ≤ 8 * r.srcPos := of_decide_eq_true ht
  have hw : r.w0 + r.clen = r.srcPos := by unfold Reader.w0; omega
  have hc : (r.moveTo t).clen = r.clen := rfl
  refine ⟨?_, ?_, ?_, h4, ?_, ?_⟩ <;> simp only [hc, Reader.moveTo_bitIdx, Reader.moveTo_byteIdx, Reader.moveTo_cap,
    Reader.moveTo_srcPos] <;> omega

theorem Leaves.rdSeek (s t : State) (h : execRdSeek s = .next t) : Leaves .rdSeek s t := by
  unfold execRdSeek at h
  injection h with h
  subst h
  refine .unlessConfigFault fun hc => .ifOpen rfl fun r hr => ?_
  dsimp only
  split
  · exact .range ..
  · split
    · rename_i ht
      exact .moved s.res rfl (.of rfl hr fun _ ho _ => ⟨Reader.ok_moveTo ho ht, fun S w _ => w⟩) (fun _ => rfl)
    · split
      · exact .asks s.buf s.reader s.copied _ (.same _ s) (.same _ s) rfl rfl (fun n m h => by cases h)
      · split
        · refine .moved s.res rfl (.of rfl hr fun _ ho _ => ⟨⟨?_, ?_, ?_, ho.2.2.2.1, ?_, ?_⟩, fun S w _ j hj => ?_⟩) (fun _ => rfl)
          · simp only [Reader.jumpTo_bitIdx]; omega
          · simp
          · simp [Reader.clen]
          · simp [Reader.clen]
          · simp [Reader.clen]
          · simp [Reader.clen] at hj
        · exact .range ..
      · rename_i hp hx
        refine .stays hp rfl fun q a h hq => ?_
        rcases q with ⟨n, _ | _⟩ | _ | _ | _ | _ <;> rcases a with bs | p | l | b <;>
          first
          | rfl
          | exact (hx _ h).elim
          | exact (hx _ _ h).elim
          | simp [awaits] at hq

theorem Leaves.rdAlign (s t : State) (h : execRdAlign s = .next t) : Leaves .rdAlign s t := by
  unfold execRdAlign at h
  injection h with h
  subst h
  refine .unlessConfigFault fun hc => .ifOpen rfl fun r hr => ?_
  split
  · exact .plain ..
  · rename_i h0
    refine .afterEnsure rfl (by omega) (fun q => (awaits_blocking q).2.2.1) (.inr ⟨r, 8 - r.bitIdx, hr, by simp [ensuredBits, h0]⟩) hr
      fun c hc hh => ?_
    exact .moved s.res rfl (hc.map rfl fun _ ho => ⟨Reader.ok_advance ho hh, fun _ w => Reader.window_advance _ w⟩)
      (fun _ => rfl)

theorem Leaves.copyChunks {s u : State} {r : Reader} (chunks : Nat) (hl : ReaderLeft .rdCopyout s (some r))
    (hr : u.reader = some r) (hb : s.latchB.toNat + s.latchA.toNat ≤ 8 * s.params.bufBytes)
    (hm : BufLeft .rdCopyout s u.buf) (hu : u = { s with buf := u.buf, reader := some r, copied := u.copied }) :
    Leaves .rdCopyout s (State.copyChunks s.uA s.uB chunks r u) := by
  obtain ⟨m, c, -, h2, h3, h4⟩ := State.copyChunks_shape s.uA s.uB chunks r u (by simp [hr])
  have hm' : BufLeft .rdCopyout s m :=
    ⟨by simp [writesBuf], fun hw => h2 (hm.2.1 hw), fun hw => h3 _ (hm.2.2 hw) hb⟩
  have hc : ReaderLeft .rdCopyout s (some c) := by
    refine hl.map rfl fun hp ho => State.copyChunks_reader hp s.uA s.uB chunks ho hr c ?_
    rcases h4 with e | ⟨done, -, e⟩ <;> rw [e]
  rcases h4 with e | ⟨done, -, e⟩
  · rw [e, hu]
    exact .ends m _ (some c) s.sent hm' hc (by simp [hasResult]) (by simp [isReaderCommand])
  · rw [e, hu]
    exact .asks m (some c) done _ hm' hc rfl rfl (fun n mode h => ⟨c, rfl, by cases h; exact Nat.le_refl _⟩)

theorem Leaves.rdCopyout (s t : State) (h : execRdCopyout s = .next t) : Leaves .rdCopyout s t := by
  unfold execRdCopyout at h
  injection h with h
  subst h
  refine .unlessConfigFault fun hc => .ifOpen rfl fun r hr => ?_
  split
  · exact .result _ rfl
  · refine .ifInBuf fun hb => ?_
    split
    · exact .copyChunks _ (.of rfl hr fun _ ho _ => ⟨ho, fun _ w _ => w⟩) hr hb (.same _ s) (by cases s; cases hr; rfl)
    · rename_i n bs hp
      split
      · rename_i hn
        obtain rfl : bs = [] := List.isEmpty_iff.1 hn
        exact .short _ _ _ _ rfl ⟨n, hp⟩
      · have hl := readerLeft_absorb (i := .rdCopyout) rfl hr hp
        rcases (r.absorb bs).topUp_cases (s.chunk s.uA) with ⟨e, hh⟩ | ⟨e, hh⟩
        · rw [e]
          refine .copyChunks _ (hl.map rfl fun _ ho => ⟨Reader.ok_advance ho hh, fun _ w => Reader.window_advance _ w⟩) rfl
            hb ?_ rfl
          have hch : s.chunk s.uA = 0 ∨ s.copied + s.chunk s.uA ≤ s.uA := by unfold State.chunk; omega
          rcases hch with h0 | hch
          · rw [h0]; exact .same _ s
          · exact bufLeft_putBits _ _ _ _ rfl (by unfold State.uA State.uB at *; omega)
        · rw [e]
          exact .asks s.buf _ s.copied _ (.same _ s) hl rfl rfl
            (fun n mode h => ⟨_, rfl, by cases h; exact Nat.le_refl _⟩)
    · rename_i hp hx
      refine .stays hp rfl fun q a h hq => ?_
      rcases q with ⟨n, _ | _⟩ | _ | _ | _ | _ <;> rcases a with bs | p | l | b <;>
        first
        | rfl
        | exact (hx _ h).elim
        | exact (hx _ _ h).elim
        | simp [awaits] at hq

/-- Every command answers a next state, and every such state is one of `Leaves`. -/
theorem exec_leaves (i : Instr) (s : State) : ∃ t, exec i s = .next t ∧ Leaves i s t := by
  cases i with
  | nop => exact ⟨_, rfl, .unlessConfigFault fun _ => .plain ..⟩
  | brevB => exact ⟨_, rfl, .unlessConfigFault fun _ => .lut _ _ rfl⟩
  | popcB => exact ⟨_, rfl, .unlessConfigFault fun _ => .lut _ _ rfl⟩
  | brevS => exact ⟨_, rfl, .unlessConfigFault fun _ => .lut _ _ rfl⟩
  | brevI => exact ⟨_, rfl, .unlessConfigFault fun _ => .lut _ _ rfl⟩
  | brevL => exact ⟨_, rfl, .unlessConfigFault fun _ => .result _ rfl⟩
  | bswpS => exact ⟨_, rfl, .unlessConfigFault fun _ => .lut _ _ rfl⟩
  | bswpI => exact ⟨_, rfl, .unlessConfigFault fun _ => .lut _ _ rfl⟩
  | bswpL => exact ⟨_, rfl, .unlessConfigFault fun _ => .result _ rfl⟩
  | getbit n =>
    exact ⟨_, rfl, .unlessConfigFault fun _ => .ifIndex fun _ => .atBit (.result 0 rfl) fun _ _ _ => .result _ rfl⟩
  | setbit n => exact ⟨_, rfl, .unlessConfigFault fun _ => .changeBit _ _ rfl⟩
  | clrbit n => exact ⟨_, rfl, .unlessConfigFault fun _ => .changeBit _ _ rfl⟩
  | tglbit n => exact ⟨_, rfl, .unlessConfigFault fun _ => .changeBit _ _ rfl⟩
  | xchbit n =>
    refine ⟨_, rfl, .unlessConfigFault fun _ => .ifIndex fun hn => ?_⟩
    split
    · exact .range ..
    · exact .atBit (.result 0 rfl) fun o h h8 =>
        .wrote _ (bufLeft_putBits o _ 1 (fun _ => decide (s.uA = 1)) rfl
          (by show 8 * s.latchB.toNat + n.toNat + 1 ≤ _; omega)) (by simp [hasResult])
  | rdbitsM n => exact ⟨_, rfl, .unlessConfigFault fun _ => .readBits _ _ rfl⟩
  | rdbitsL n => exact ⟨_, rfl, .unlessConfigFault fun _ => .readBits _ _ rfl⟩
  | wrbitsM n => exact ⟨_, rfl, .unlessConfigFault fun _ => .writeBits _ _ rfl⟩
  | wrbitsL n => exact ⟨_, rfl, .unlessConfigFault fun _ => .writeBits _ _ rfl⟩
  | copybM => exact ⟨_, rfl, .unlessConfigFault fun _ => .copyBlock _ rfl⟩
  | copybL => exact ⟨_, rfl, .unlessConfigFault fun _ => .copyBlock _ rfl⟩
  | rdint n r g =>
    exact ⟨_, rfl, .unlessConfigFault fun _ => .intCommand _ (.result 0 rfl) fun _ _ => .result _ rfl⟩
  | wrint n r =>
    refine ⟨_, rfl, .unlessConfigFault fun _ => .intCommand _ (.plain ..) fun h1 h => .wrote s.res ⟨by simp [writesBuf],
      fun hw => wf_storeBytes _ _ _ hw, fun hw => within_storeBytes _ _ hw fun j hj => ?_⟩ (fun _ => rfl)⟩
    unfold intAddr State.uB
    split <;> omega
  | b2by => exact ⟨_, rfl, .unlessConfigFault fun _ => .result _ rfl⟩
  | by2b => exact ⟨_, rfl, .unlessConfigFault fun _ => .scale _ rfl⟩
  | by2w => exact ⟨_, rfl, .unlessConfigFault fun _ => .result _ rfl⟩
  | w2by => exact ⟨_, rfl, .unlessConfigFault fun _ => .scale _ rfl⟩
  | rdOpen ord own => exact ⟨_, rfl, .rdOpen _ _ _ _ rfl⟩
  | rdClose => exact ⟨_, rfl, .rdClose _ _ rfl⟩
  | rdFill => exact ⟨_, rfl, .rdFill _ _ rfl⟩
  | rdAvail => exact ⟨_, rfl, .unlessConfigFault fun _ => .ifOpen rfl fun _ _ => .result _ rfl⟩
  | rdRemain => exact ⟨_, rfl, .rdRemain _ _ rfl⟩
  | rdPeek n rv =>
    exact ⟨_, rfl, .unlessConfigFault fun _ => .readerField rfl (fun q => (awaits_blocking q).1 n rv) rfl
      (fun r h1 h2 => by simp [ensuredBits, h1, h2]) fun _ _ _ ho => ⟨ho, fun _ w => w⟩⟩
  | rdRead n rv =>
    exact ⟨_, rfl, .unlessConfigFault fun _ => .readerField rfl (fun q => (awaits_blocking q).2.1 n rv) rfl
      (fun r h1 h2 => by simp [ensuredBits, h1, h2])
      fun _ _ hh ho => ⟨Reader.ok_advance ho hh, fun _ w => Reader.window_advance _ w⟩⟩
  | rdSeek => exact ⟨_, rfl, .rdSeek _ _ rfl⟩
  | rdAlign => exact ⟨_, rfl, .rdAlign _ _ rfl⟩
  | rdCopyout => exact ⟨_, rfl, .rdCopyout _ _ rfl⟩

end Sys2Proof.Machine
end

