-- ==== Sys2Proof/Laws/Neutral.lean ====
section
/-! SUPPORT. A change of what a command does not look at commutes with the command. -/

namespace Sys2Proof.Machine

/-- `φ` changes nothing that command `i` reads, and nothing that it writes. -/
structure Neutral (i : Instr) (φ : State → State) : Prop where
  cfgf : ∀ s, (φ s).cfgf = s.cfgf
  cmd : ∀ s, (φ s).cmd = s.cmd
  order : ∀ s, (φ s).params.sysBitOrder = s.params.sysBitOrder
  size : ∀ s, (φ s).params.bufBytes = s.params.bufBytes
  cache : ∀ s, (φ s).params.cacheMax = s.params.cacheMax
  bytes : ∀ s, (φ s).params.wordBytes = s.params.wordBytes
  index : ∀ s, (φ s).params.acceptIndex8 = s.params.acceptIndex8
  buf : ∀ s, (φ s).buf = s.buf
  reader : ∀ s, (φ s).reader = s.reader
  port : ∀ s, (φ s).port = s.port
  copied : ∀ s, (φ s).copied = s.copied
  sent : ∀ s, (φ s).sent = s.sent
  opA : usesOpa i = true → ∀ s, (φ s).latchA = s.latchA
  opB : usesOpb i = true → ∀ s, (φ s).latchB = s.latchB
  opC : usesOpc i = true → ∀ s, (φ s).latchC = s.latchC
  withRes : ∀ s v, φ { s with res := v } = { φ s with res := v }
  raise : ∀ s f a b c, φ (s.raise f a b c) = (φ s).raise f a b c
  complete : ∀ s, φ s.complete = (φ s).complete
  moved : ∀ s m r d, φ { s with buf := m, reader := r, copied := d } = { φ s with buf := m, reader := r, copied := d }
  withCopied : ∀ s d, φ { s with copied := d } = { φ s with copied := d }
  closed : ∀ s, φ { s with reader := none } = { φ s with reader := none }
  withSent : ∀ s o, φ { s with sent := o } = { φ s with sent := o }
  await : ∀ s q, φ (s.await q) = (φ s).await q

variable {i : Instr} {φ : State → State}

theorem Neutral.completeWith (N : Neutral i φ) (s : State) (v : Word) : φ (s.completeWith v) = (φ s).completeWith v := by
  show φ { s.complete with res := v } = _
  rw [N.withRes, N.complete]; rfl

theorem Neutral.withBuf (N : Neutral i φ) (s : State) (m : Memory) : φ (s.withBuf m) = (φ s).withBuf m := by
  have := N.moved s m s.reader s.copied
  rw [← N.reader s, ← N.copied s] at this
  refine Eq.trans ?_ this
  rw [N.reader s, N.copied s]; rfl

theorem Neutral.withReader (N : Neutral i φ) (s : State) (r : Reader) : φ (s.withReader r) = (φ s).withReader r := by
  have := N.moved s s.buf (some r) s.copied
  rw [← N.buf s, ← N.copied s] at this
  refine Eq.trans ?_ this
  rw [N.buf s, N.copied s]; rfl

theorem Neutral.configuration (N : Neutral i φ) (s : State) : φ s.raiseConfiguration = (φ s).raiseConfiguration := by
  unfold State.raiseConfiguration; rw [N.raise, N.cmd]

theorem Neutral.illegal (N : Neutral i φ) (s : State) : φ s.raiseIllegal = (φ s).raiseIllegal := by
  unfold State.raiseIllegal; rw [N.raise, N.cmd]

theorem Neutral.uA (N : Neutral i φ) (h : usesOpa i = true) (s : State) : (φ s).uA = s.uA := by
  unfold State.uA; rw [N.opA h]

theorem Neutral.uB (N : Neutral i φ) (h : usesOpb i = true) (s : State) : (φ s).uB = s.uB := by
  unfold State.uB; rw [N.opB h]

theorem Neutral.uC (N : Neutral i φ) (h : usesOpc i = true) (s : State) : (φ s).uC = s.uC := by
  unfold State.uC; rw [N.opC h]

theorem Neutral.bufBits (N : Neutral i φ) (s : State) : (φ s).bufBits = s.bufBits := by
  unfold State.bufBits; rw [N.size]

theorem Neutral.bufByte (N : Neutral i φ) (s : State) : (φ s).bufByte = s.bufByte := by
  unfold State.bufByte; rw [N.buf]

theorem Neutral.chunk (N : Neutral i φ) (s : State) (n : Nat) : (φ s).chunk n = s.chunk n := by
  unfold State.chunk; rw [N.copied]

theorem Neutral.maxIndex (N : Neutral i φ) (s : State) : (φ s).maxIndex = s.maxIndex := by
  unfold State.maxIndex; rw [N.index]

theorem Neutral.availBuf (N : Neutral i φ) (s : State) (p : Nat) : (φ s).availBuf p = s.availBuf p := by
  unfold State.availBuf; rw [N.bufBits]

theorem Neutral.unlessConfigFault (N : Neutral i φ) (s : State) {b b' : State} (h : b' = φ b) :
    (φ s).unlessConfigFault b' = φ (s.unlessConfigFault b) := by
  unfold State.unlessConfigFault
  rw [N.cfgf, h]
  split
  · rw [N.configuration]
  · rfl

theorem Neutral.ifInBuf (N : Neutral i φ) (s : State) (p n : Nat) {b b' : State} (h : b' = φ b) :
    (φ s).ifInBuf p n b' = φ (s.ifInBuf p n b) := by
  unfold State.ifInBuf; rw [N.availBuf, N.bufBits, h]
  split
  · rw [N.raise]
  · rfl

theorem Neutral.lut (N : Neutral i φ) (hA : usesOpa i = true) (s : State) (k : Nat) (f : Word → Word) :
    (φ s).lutCommand k f = φ (s.lutCommand k f) := by
  unfold State.lutCommand; rw [N.uA hA, N.opA hA]
  split
  · rw [N.raise]
  · rw [N.completeWith]

theorem Neutral.scale (N : Neutral i φ) (hA : usesOpa i = true) (s : State) (k : Nat) :
    (φ s).scaleCommand k = φ (s.scaleCommand k) := by
  unfold State.scaleCommand; rw [N.uA hA]
  split
  · rw [N.raise]
  · rw [N.completeWith]

theorem Neutral.ifIndex (N : Neutral i φ) (hB : usesOpb i = true) (s : State) (n : Nat) {b b' : State} (h : b' = φ b) :
    (φ s).ifIndex n b' = φ (s.ifIndex n b) := by
  unfold State.ifIndex; rw [N.maxIndex, N.uB hB, h]
  split
  · rw [N.raise]
  · rfl

theorem Neutral.atBit (N : Neutral i φ) (hB : usesOpb i = true) (s : State) (n : Nat) {k k' : State}
    {b b' : BitOrder → Nat → State} (hk : k' = φ k) (hb : ∀ o p, b' o p = φ (b o p)) :
    (φ s).atBit n k' b' = φ (s.atBit n k b) := by
  unfold State.atBit; rw [N.uB hB, N.size, N.order, N.availBuf, hk]
  split
  · rw [N.raise]
  · split
    · rfl
    · cases s.params.sysBitOrder with
      | none => rw [N.configuration]
      | some o => exact hb o _

theorem Neutral.changeBit (N : Neutral i φ) (hB : usesOpb i = true) (s : State) (n : Nat) (f : Bool → Bool) :
    (φ s).changeBit n f = φ (s.changeBit n f) :=
  N.ifIndex hB s n (N.atBit hB s n (N.complete s).symm fun o p => by
    rw [N.complete, N.withBuf, N.bufByte, N.buf])

theorem Neutral.readBits (N : Neutral i φ) (hB : usesOpb i = true) (s : State) (o : BitOrder) (n : Nat) :
    (φ s).readBits o n = φ (s.readBits o n) := by
  unfold State.readBits; rw [N.uB hB, N.availBuf, N.bufByte]
  split
  · rw [N.raise]
  · split
    · rw [N.completeWith]
    · exact N.ifInBuf s _ _ (N.completeWith s _).symm

theorem Neutral.writeBits (N : Neutral i φ) (hA : usesOpa i = true) (hB : usesOpb i = true) (s : State) (o : BitOrder)
    (n : Nat) : (φ s).writeBits o n = φ (s.writeBits o n) := by
  unfold State.writeBits; rw [N.uB hB, N.opA hA, N.availBuf, N.buf]
  split
  · rw [N.raise]
  · split
    · rw [N.complete]
    · exact N.ifInBuf s _ _ (by rw [N.complete, N.withBuf])

theorem Neutral.copyBlock (N : Neutral i φ) (hA : usesOpa i = true) (hB : usesOpb i = true) (hC : usesOpc i = true)
    (s : State) (o : BitOrder) : (φ s).copyBlock o = φ (s.copyBlock o) := by
  unfold State.copyBlock; rw [N.uA hA, N.uB hB, N.uC hC, N.bufByte, N.buf]
  split
  · rw [N.complete]
  · exact N.ifInBuf s _ _ (N.ifInBuf s _ _ (by rw [N.complete, N.withBuf]))

theorem Neutral.intCommand (N : Neutral i φ) (hB : usesOpb i = true) (s : State) (n : Nat) {e e' b b' : State}
    (he : e' = φ e) (hb : b' = φ b) : (φ s).intCommand n e' b' = φ (s.intCommand n e b) := by
  unfold State.intCommand; rw [N.uB hB, N.availBuf, he]
  split
  · rw [N.raise]
  · split
    · rfl
    · exact N.ifInBuf s _ _ hb

theorem Neutral.ifOpen (N : Neutral i φ) (s : State) {b b' : Reader → State} (hb : ∀ r, b' r = φ (b r)) :
    (φ s).ifOpen b' = φ (s.ifOpen b) := by
  unfold State.ifOpen; rw [N.reader]
  cases s.reader with
  | none => exact (N.illegal s).symm
  | some r => exact hb r

theorem Neutral.orAsk (N : Neutral i φ) (s : State) (e : Ensured) {k k' : Reader → State} (hk : ∀ r, k' r = φ (k r)) :
    (φ s).orAsk e k' = φ (s.orAsk e k) := by
  cases e with
  | ready r => exact hk r
  | request r n => show ((φ s).withReader r).await _ = φ ((s.withReader r).await _); rw [N.await, N.withReader]

theorem Neutral.afterEnsure (N : Neutral i φ) (s : State) (r : Reader) (n f : Nat) {k k' : Reader → State}
    (hk : ∀ r, k' r = φ (k r)) : (φ s).afterEnsure r n f k' = φ (s.afterEnsure r n f k) := by
  unfold State.afterEnsure; rw [N.port]
  split
  · exact N.orAsk s _ hk
  · split
    · rw [N.raise]
    · exact N.orAsk s _ hk
  · rfl

theorem Neutral.readerField (N : Neutral i φ) (s : State) (n : Nat) (rv : Bool) (move : Reader → Reader) :
    (φ s).readerField n rv move = φ (s.readerField n rv move) := by
  refine N.ifOpen s fun r => ?_
  split
  · rw [N.raise]
  · split
    · rw [N.completeWith]
    · exact N.afterEnsure s r n n fun c => by rw [N.completeWith, N.withReader]

theorem Neutral.copyChunk (N : Neutral i φ) (s : State) (r : Reader) (d m : Nat) :
    (φ s).copyChunk r d m = φ (s.copyChunk r d m) := by
  refine Eq.trans ?_ (N.moved s (s.buf.copyBits r.order r.byteAt r.cursor (d + s.copied) m) (some (r.advance m))
    (s.copied + m)).symm
  unfold State.copyChunk; rw [N.buf, N.copied]

theorem Neutral.copyChunks (N : Neutral i φ) (n d k : Nat) (r : Reader) (s : State) :
    State.copyChunks n d k r (φ s) = φ (State.copyChunks n d k r s) := by
  induction k generalizing r s with
  | zero => exact (N.completeWith s _).symm
  | succ k ih =>
    unfold State.copyChunks; rw [N.chunk]
    exact N.orAsk s _ fun c => by rw [N.copyChunk, ih]

/-- A change of what the command does not look at is still there after it, and the command does the same. -/
theorem exec_neutral {s t : State} (N : Neutral i φ) (h : exec i s = .next t) : exec i (φ s) = .next (φ t) := by
  cases i with
  | nop =>
    injection h with h; subst h
    exact congrArg Host.Outcome.next (N.unlessConfigFault s (N.complete s).symm)
  | brevB | popcB | brevS | brevI | bswpS | bswpI =>
    injection h with h; subst h
    exact congrArg Host.Outcome.next (N.unlessConfigFault s (N.lut rfl s _ _))
  | brevL | bswpL =>
    injection h with h; subst h
    exact congrArg Host.Outcome.next (N.unlessConfigFault s (by rw [N.completeWith, N.opA rfl]))
  | getbit n =>
    injection h with h; subst h
    refine congrArg Host.Outcome.next (N.unlessConfigFault s (N.ifIndex rfl s _ (N.atBit rfl s _ (N.completeWith s _).symm
      fun o p => ?_)))
    rw [N.completeWith, N.bufByte]
  | setbit n | clrbit n | tglbit n =>
    injection h with h; subst h
    exact congrArg Host.Outcome.next (N.unlessConfigFault s (N.changeBit rfl s _ _))
  | xchbit n =>
    injection h with h; subst h
    refine congrArg Host.Outcome.next (N.unlessConfigFault s (N.ifIndex rfl s _ ?_))
    rw [N.uA rfl]
    split
    · rw [N.raise]
    · refine N.atBit rfl s _ (N.completeWith s _).symm fun o p => ?_
      rw [N.completeWith, N.withBuf, N.bufByte, N.buf]
  | rdbitsM n | rdbitsL n =>
    injection h with h; subst h
    exact congrArg Host.Outcome.next (N.unlessConfigFault s (N.readBits rfl s _ _))
  | wrbitsM n | wrbitsL n =>
    injection h with h; subst h
    exact congrArg Host.Outcome.next (N.unlessConfigFault s (N.writeBits rfl rfl s _ _))
  | copybM | copybL =>
    injection h with h; subst h
    exact congrArg Host.Outcome.next (N.unlessConfigFault s (N.copyBlock rfl rfl rfl s _))
  | rdint n r g =>
    injection h with h; subst h
    refine congrArg Host.Outcome.next (N.unlessConfigFault s (N.intCommand rfl s _ (N.completeWith s _).symm ?_))
    rw [N.completeWith, N.uB rfl, N.bufByte]
  | wrint n r =>
    injection h with h; subst h
    refine congrArg Host.Outcome.next (N.unlessConfigFault s (N.intCommand rfl s _ (N.complete s).symm ?_))
    rw [N.complete, N.withBuf, N.uB rfl, N.opA rfl, N.buf]
  | b2by =>
    injection h with h; subst h
    exact congrArg Host.Outcome.next (N.unlessConfigFault s (by rw [N.uA rfl, N.completeWith]))
  | by2w =>
    injection h with h; subst h
    exact congrArg Host.Outcome.next (N.unlessConfigFault s (by rw [N.uA rfl, N.bytes, N.completeWith]))
  | by2b =>
    injection h with h; subst h
    exact congrArg Host.Outcome.next (N.unlessConfigFault s (N.scale rfl s _))
  | w2by =>
    injection h with h; subst h
    exact congrArg Host.Outcome.next (N.unlessConfigFault s (by rw [N.bytes]; exact N.scale rfl s _))
  | rdOpen ord own =>
    injection h with h; subst h
    refine congrArg Host.Outcome.next (N.unlessConfigFault s ?_)
    rw [N.uA rfl, N.reader, N.cache, N.port, show openOrder (φ s).params ord = openOrder s.params ord by
      unfold openOrder; rw [N.order]]
    split
    · rw [N.illegal]
    · split
      · rw [N.raise]
      · split
        · rw [N.configuration]
        · split
          · rw [N.await]
          · rw [N.complete, N.withReader]
          · rfl
  | rdClose =>
    injection h with h; subst h
    refine congrArg Host.Outcome.next (N.unlessConfigFault s ?_)
    rw [N.reader, N.sent]
    cases s.reader with
    | none => exact (N.complete s).symm
    | some r =>
      refine Eq.trans ?_ (N.withSent { s.complete with reader := none } _).symm
      rw [N.closed s.complete, N.complete]
  | rdFill =>
    injection h with h; subst h
    refine congrArg Host.Outcome.next (N.unlessConfigFault s (N.ifOpen s fun r => ?_))
    dsimp only
    generalize (if 0 < r.byteIdx then r.recycle else r) = c
    rw [N.port]
    split
    · split
      · rw [N.await, N.withReader]
      · rw [N.completeWith, N.withReader]
    · rw [N.completeWith, N.withReader]
    · rfl
  | rdAvail =>
    injection h with h; subst h
    exact congrArg Host.Outcome.next (N.unlessConfigFault s (N.ifOpen s fun r => (N.completeWith s _).symm))
  | rdRemain =>
    injection h with h; subst h
    refine congrArg Host.Outcome.next (N.unlessConfigFault s (N.ifOpen s fun r => ?_))
    rw [N.port]
    split
    · rw [N.await]
    · rw [N.completeWith]
    · rfl
  | rdPeek n rv | rdRead n rv =>
    injection h with h; subst h
    exact congrArg Host.Outcome.next (N.unlessConfigFault s (N.readerField s _ _ _))
  | rdSeek =>
    injection h with h; subst h
    refine congrArg Host.Outcome.next (N.unlessConfigFault s (N.ifOpen s fun r => ?_))
    dsimp only
    rw [show (φ s).seekTarget r = s.seekTarget r by unfold State.seekTarget State.sA; rw [N.opA rfl], N.uA rfl, N.port]
    split
    · rw [N.raise]
    · split
      · rw [N.complete, N.withReader]
      · split
        · rw [N.await]
        · split
          · rw [N.complete, N.withReader]
          · rw [N.raise]
        · rfl
  | rdAlign =>
    injection h with h; subst h
    refine congrArg Host.Outcome.next (N.unlessConfigFault s (N.ifOpen s fun r => ?_))
    split
    · rw [N.complete]
    · exact N.afterEnsure s _ _ _ fun c => by rw [N.complete, N.withReader]
  | rdCopyout =>
    injection h with h; subst h
    refine congrArg Host.Outcome.next (N.unlessConfigFault s (N.ifOpen s fun r => ?_))
    rw [N.uA rfl, N.uB rfl, N.copied, N.port]
    split
    · rw [N.completeWith]
    · refine N.ifInBuf s _ _ ?_
      split
      · rw [← N.copyChunks]
        congr 1
        rw [N.withCopied s 0, ← N.port s]
      · split
        · rw [N.raise, N.withRes s (BitVec.ofNat 64 s.copied)]; rfl
        · rw [N.chunk]
          exact N.orAsk s _ fun c => by rw [N.copyChunk, N.copyChunks]
      · rfl

end Sys2Proof.Machine
end

