-- ==== Sys2Proof/Laws/Away.lean ====
section
/-! SUPPORT. Two runs of one command from states that differ in one byte of BUF which the command does not use. -/

namespace Sys2Proof.Machine

/-- The two memories differ at most in byte `x`, where the second holds `b`. -/
def AwayMem (x : Nat) (b : Byte) (m m' : Memory) : Prop := ∀ a, m'.read a = if a = x then b else m.read a

/-- The two states differ at most in byte `x` of BUF, where the second holds `b`. -/
def Away (x : Nat) (b : Byte) (s u : State) : Prop := u = { s with buf := u.buf } ∧ AwayMem x b s.buf u.buf

/-- No bit of [p, p + n) lies in byte `x`. -/
def Clear (x p n : Nat) : Prop := n = 0 ∨ 8 * x + 8 ≤ p ∨ p + n ≤ 8 * x

theorem clear_of_inRange {x p n : Nat} (h : inRange x (p, n) = false) : Clear x p n := by
  have h : ¬(0 < n ∧ p < 8 * x + 8 ∧ 8 * x < p + n) := of_decide_eq_false h
  unfold Clear; omega

variable {x : Nat} {b : Byte}

theorem AwayMem.write_same (m : Memory) : AwayMem x b m (m.write x b) := fun a => Memory.read_write m x a b

theorem AwayMem.bitGet {m m' : Memory} (h : AwayMem x b m m') (o : BitOrder) {p : Nat} (hp : p / 8 ≠ x) :
    bitGet o m'.read p = bitGet o m.read p :=
  bitGet_congr o rfl (by rw [h, if_neg hp])

theorem AwayMem.write {m m' : Memory} (h : AwayMem x b m m') {a : Nat} (v : Byte) (ha : a ≠ x) :
    AwayMem x b (m.write a v) (m'.write a v) := by
  intro c
  rw [Memory.read_write, Memory.read_write, h c]
  by_cases hc : c = a
  · subst hc; rw [if_pos rfl, if_neg ha, if_pos rfl]
  · rw [if_neg hc, if_neg hc]

theorem AwayMem.putBits {m m' : Memory} (h : AwayMem x b m m') (o : BitOrder) (p n : Nat) {f g : Nat → Bool}
    (hc : Clear x p n) (hfg : ∀ k, k < n → f k = g k) :
    AwayMem x b (Memory.putBits o p f n m) (Memory.putBits o p g n m') := by
  induction n with
  | zero => exact h
  | succ n ih =>
    have ih := ih (by unfold Clear at *; omega) (fun k hk => hfg k (by omega))
    have hx : (p + n) / 8 ≠ x := by unfold Clear at hc; omega
    simp only [Memory.putBits, Memory.bitPut]
    rw [ih, if_neg hx, hfg n (by omega)]
    exact ih.write _ hx

theorem Away.field {s u : State} (h : Away x b s u) (o : BitOrder) {p n : Nat} (hc : Clear x p n) :
    readField o u.buf.read p n = readField o s.buf.read p n :=
  readField_congr _ _ _ _ _ _ fun k hk => h.2.bitGet o (by unfold Clear at hc; omega)

theorem Away.raise {s u : State} (h : Away x b s u) (f : FCode) (i j k : Nat) : Away x b (s.raise f i j k) (u.raise f i j k) := by
  refine ⟨?_, h.2⟩
  rw [h.1]; rfl

theorem Away.complete {s u : State} (h : Away x b s u) : Away x b s.complete u.complete := by
  refine ⟨?_, h.2⟩
  rw [h.1]; rfl

theorem Away.completeWith {s u : State} (h : Away x b s u) (v : Word) : Away x b (s.completeWith v) (u.completeWith v) := by
  refine ⟨?_, h.2⟩
  rw [h.1]; rfl

theorem Away.await {s u : State} (h : Away x b s u) (q : SrcRequest) : Away x b (s.await q) (u.await q) := by
  refine ⟨?_, h.2⟩
  rw [h.1]; rfl

theorem Away.withReader {s u : State} (h : Away x b s u) (r : Reader) : Away x b (s.withReader r) (u.withReader r) := by
  refine ⟨?_, h.2⟩
  rw [h.1]; rfl

theorem Away.withBuf {s u : State} (h : Away x b s u) {m m' : Memory} (hm : AwayMem x b m m') :
    Away x b (s.withBuf m) (u.withBuf m') := by
  refine ⟨?_, hm⟩
  rw [h.1]; rfl

theorem Away.orAsk {s u : State} (h : Away x b s u) (e : Ensured) {k k' : Reader → State}
    (hk : ∀ r, e = .ready r → Away x b (k r) (k' r)) : Away x b (s.orAsk e k) (u.orAsk e k') := by
  cases e with
  | ready r => exact hk r rfl
  | request r n => exact (h.withReader r).await _

theorem Away.copyChunk {s u : State} (h : Away x b s u) (r : Reader) (d m : Nat) (hc : Clear x (d + s.copied) m) :
    Away x b (s.copyChunk r d m) (u.copyChunk r d m) := by
  obtain ⟨e, hm⟩ := h
  generalize u.buf = m' at e hm
  subst e
  exact ⟨rfl, hm.putBits _ _ _ hc fun _ _ => rfl⟩

theorem Away.copyChunks {s u : State} (h : Away x b s u) (n d k : Nat) (r : Reader) (hc : Clear x d n) :
    Away x b (State.copyChunks n d k r s) (State.copyChunks n d k r u) := by
  induction k generalizing r s u with
  | zero => exact h.completeWith _
  | succ k ih =>
    have hu : u.chunk n = s.chunk n := by unfold State.chunk; rw [h.1]
    unfold State.copyChunks
    rw [hu]
    refine h.orAsk _ fun c _ => ih (h.copyChunk c d _ ?_) _
    unfold Clear at *; unfold State.chunk; omega

theorem Away.ite {c : Prop} [Decidable c] {s s' u u' : State} (h : c → Away x b s u) (h' : ¬c → Away x b s' u') :
    Away x b (if c then s else s') (if c then u else u') := by
  split
  · exact h ‹_›
  · exact h' ‹_›

variable {s : State} {m : Memory}

/-- `s` with other contents of BUF. -/
abbrev State.onto (s : State) (m : Memory) : State := { s with buf := m }

theorem Away.onto (h : AwayMem x b s.buf m) : Away x b s (s.onto m) := ⟨rfl, h⟩

theorem Away.ifInBuf {p n : Nat} {k k' : State} (h : AwayMem x b s.buf m)
    (hk : p + n ≤ s.bufBits → Away x b k k') : Away x b (s.ifInBuf p n k) ((s.onto m).ifInBuf p n k') :=
  Away.ite (c := s.bufBits < p + n) (fun _ => (Away.onto h).raise _ _ _ _) (fun hc => hk (by omega))

theorem Away.lut (h : AwayMem x b s.buf m) (k : Nat) (f : Word → Word) :
    Away x b (s.lutCommand k f) ((s.onto m).lutCommand k f) :=
  Away.ite (c := k < s.uA) (fun _ => (Away.onto h).raise _ _ _ _) (fun _ => (Away.onto h).completeWith _)

theorem Away.scale (h : AwayMem x b s.buf m) (k : Nat) : Away x b (s.scaleCommand k) ((s.onto m).scaleCommand k) :=
  Away.ite (c := 2 ^ 64 - 1 < s.uA * k) (fun _ => (Away.onto h).raise _ _ _ _) (fun _ => (Away.onto h).completeWith _)

theorem Away.ifIndex {n : Nat} {k k' : State} (h : AwayMem x b s.buf m) (hk : n ≤ 8 → Away x b k k') :
    Away x b (s.ifIndex n k) ((s.onto m).ifIndex n k') :=
  Away.ite (c := s.maxIndex < n) (fun _ => (Away.onto h).raise _ _ _ _)
    (fun hc => hk (by unfold State.maxIndex at hc; split at hc <;> omega))

theorem Away.atBit {n : Nat} {k k' : State} {f f' : BitOrder → Nat → State} (h : AwayMem x b s.buf m) (hn : n ≤ 8)
    (hk : Away x b k k') (hf : n ≤ 7 → s.uB < s.params.bufBytes → ∀ o, Away x b (f o (8 * s.uB + n)) (f' o (8 * s.uB + n))) :
    Away x b (s.atBit n k f) ((s.onto m).atBit n k' f') := by
  refine Away.ite (c := s.params.bufBytes ≤ s.uB) (fun _ => (Away.onto h).raise _ _ _ _) fun hc =>
    Away.ite (c := n = 8) (fun _ => hk) fun h8 => ?_
  show Away x b (match s.params.sysBitOrder with | none => _ | some o => _) (match s.params.sysBitOrder with | none => _ | some o => _)
  cases s.params.sysBitOrder with
  | none => exact (Away.onto h).raise _ _ _ _
  | some o => exact hf (by omega) (by omega) o

theorem AwayMem.bitPut {m m' : Memory} (h : AwayMem x b m m') (o : BitOrder) {p : Nat} {v w : Bool} (hp : p / 8 ≠ x)
    (hv : v = w) : AwayMem x b (m.bitPut o p v) (m'.bitPut o p w) := by
  have := h.putBits o p 1 (f := fun _ => v) (g := fun _ => w) (by unfold Clear; omega) (fun _ _ => hv)
  exact this

theorem Away.changeBit {n : Nat} (h : AwayMem x b s.buf m) (f : Bool → Bool)
    (hx : n ≤ 7 → s.uB < s.params.bufBytes → s.uB ≠ x) :
    Away x b (s.changeBit n f) ((s.onto m).changeBit n f) :=
  .ifIndex h fun hn => .atBit h hn (Away.onto h).complete fun h7 hb o => by
    have hp : (8 * s.uB + n) / 8 ≠ x := by have := hx h7 hb; omega
    exact ((Away.onto h).withBuf (h.bitPut o hp (by rw [State.bufByte, State.bufByte, h.bitGet o hp]))).complete

theorem Away.readBits {n : Nat} (h : AwayMem x b s.buf m) (o : BitOrder)
    (hx : n ≤ 64 → s.uB + n ≤ s.bufBits → Clear x s.uB n) :
    Away x b (s.readBits o n) ((s.onto m).readBits o n) :=
  Away.ite (c := 64 < n) (fun _ => (Away.onto h).raise _ _ _ _) fun h64 =>
    Away.ite (c := n = 0) (fun _ => (Away.onto h).completeWith _) fun _ => .ifInBuf h fun hb => by
      have e : readField o (s.onto m).bufByte s.uB n = readField o s.bufByte s.uB n :=
        (Away.onto h).field o (hx (by omega) hb)
      show Away x b _ ((s.onto m).completeWith (BitVec.ofNat 64 (readField o (s.onto m).bufByte s.uB n)))
      rw [e]
      exact (Away.onto h).completeWith _

theorem Away.writeBits {n : Nat} (h : AwayMem x b s.buf m) (o : BitOrder)
    (hx : n ≤ 64 → s.uB + n ≤ s.bufBits → Clear x s.uB n) :
    Away x b (s.writeBits o n) ((s.onto m).writeBits o n) :=
  Away.ite (c := 64 < n) (fun _ => (Away.onto h).raise _ _ _ _) fun h64 =>
    Away.ite (c := n = 0) (fun _ => (Away.onto h).complete) fun _ => .ifInBuf h fun hb =>
      ((Away.onto h).withBuf (h.putBits o _ _ (hx (by omega) hb) fun _ _ => rfl)).complete

theorem Away.copyBlock (h : AwayMem x b s.buf m) (o : BitOrder)
    (hx : s.uB + s.uA ≤ s.bufBits → s.uC + s.uA ≤ s.bufBits → Clear x s.uB s.uA ∧ Clear x s.uC s.uA) :
    Away x b (s.copyBlock o) ((s.onto m).copyBlock o) :=
  Away.ite (c := s.uA = 0) (fun _ => (Away.onto h).complete) fun h0 => .ifInBuf h fun hb => .ifInBuf h fun hc =>
    ((Away.onto h).withBuf (h.putBits o _ _ (hx hb hc).2 fun k hk =>
      (h.bitGet o (by have := (hx hb hc).1; unfold Clear at this; show (s.uB + k) / 8 ≠ x; omega)).symm)).complete

theorem Away.intCommand {n : Nat} {e e' k k' : State} (h : AwayMem x b s.buf m) (he : Away x b e e')
    (hk : n ≤ 8 → 8 * s.uB + 8 * n ≤ s.bufBits → Away x b k k') :
    Away x b (s.intCommand n e k) ((s.onto m).intCommand n e' k') :=
  Away.ite (c := 8 < n) (fun _ => (Away.onto h).raise _ _ _ _) fun h8 =>
    Away.ite (c := n = 0) (fun _ => he) fun _ => .ifInBuf h fun hb => hk (by omega) hb

theorem AwayMem.storeBytes {m m' : Memory} (h : AwayMem x b m m') (addr : Nat → Nat) (v : Word) (n : Nat)
    (ha : ∀ i, i < n → addr i ≠ x) : AwayMem x b (m.storeBytes addr v n) (m'.storeBytes addr v n) := by
  induction n with
  | zero => exact h
  | succ n ih => exact (ih fun i hi => ha i (by omega)).write _ (ha n (by omega))

theorem assemble_congr {f g : Nat → Byte} (n : Nat) (h : ∀ i, i < n → f i = g i) : assemble f n = assemble g n := by
  induction n with
  | zero => rfl
  | succ n ih => simp only [assemble, ih fun i hi => h i (by omega), h n (by omega)]

theorem Away.ifOpen {k k' : Reader → State} (h : AwayMem x b s.buf m) (hk : ∀ r, s.reader = some r → Away x b (k r) (k' r)) :
    Away x b (s.ifOpen k) ((s.onto m).ifOpen k') := by
  unfold State.ifOpen
  show Away x b (match s.reader with | none => _ | some r => _) (match s.reader with | none => _ | some r => _)
  cases hr : s.reader with
  | none => exact (Away.onto h).raise _ _ _ _
  | some r => exact hk r hr

theorem Away.afterEnsure {r : Reader} {n f : Nat} {k k' : Reader → State} (h : AwayMem x b s.buf m)
    (hk : ∀ r, Away x b (k r) (k' r)) : Away x b (s.afterEnsure r n f k) ((s.onto m).afterEnsure r n f k') := by
  unfold State.afterEnsure
  dsimp only
  split
  · exact (Away.onto h).orAsk _ fun r _ => hk r
  · exact Away.ite (fun _ => (Away.onto h).raise _ _ _ _) fun _ => (Away.onto h).orAsk _ fun r _ => hk r
  · exact Away.onto h

theorem Away.readerField {n : Nat} {rv : Bool} {move : Reader → Reader} (h : AwayMem x b s.buf m) :
    Away x b (s.readerField n rv move) ((s.onto m).readerField n rv move) :=
  .ifOpen h fun _ _ => Away.ite (fun _ => (Away.onto h).raise _ _ _ _) fun _ =>
    Away.ite (fun _ => (Away.onto h).completeWith _) fun _ => .afterEnsure h fun _ =>
      ((Away.onto h).withReader _).completeWith _

/-- A byte that a running command does not use is in none of its ranges. -/
theorem clear_of_not_uses {i : Instr} (hc : s.cfgf = false) (hb : s.busy = true) (hd : decode s.cmd = .ok i)
    (hu : s.uses x = false) (hr : ∀ r ∈ namedRanges i s, r.1 + r.2 ≤ s.bufBits) :
    ∀ r ∈ namedRanges i s, Clear x r.1 r.2 := by
  intro r hm
  unfold State.uses at hu
  rw [hb, hc, hd] at hu
  simp only [Bool.not_false, Bool.and_self, Bool.true_and] at hu
  unfold bufRanges at hu
  rw [if_pos (List.all_eq_true.2 fun r h => decide_eq_true (hr r h)), List.any_eq_false] at hu
  exact clear_of_inRange (by simpa using hu r hm)

/-- A command does the same, whatever stands in a byte that it does not use, and leaves that byte. -/
theorem exec_away {i : Instr} {t : State} (h : AwayMem x b s.buf m) (hc : s.cfgf = false) (hb : s.busy = true)
    (hd : decode s.cmd = .ok i) (hu : s.uses x = false) (he : exec i s = .next t) :
    ∃ u, exec i (s.onto m) = .next u ∧ Away x b t u := by
  have hcl := clear_of_not_uses hc hb hd hu
  have hf : ∀ k k' : State, Away x b k k' → Away x b (s.unlessConfigFault k) ((s.onto m).unlessConfigFault k') :=
    fun k k' hk => Away.ite (c := s.cfgf = true) (fun _ => (Away.onto h).raise _ _ _ _) fun _ => hk
  have bit : ∀ n : BitVec 7, (n.toNat ≤ 7 → namedRanges i s = [(8 * s.uB, 8)]) →
      n.toNat ≤ 7 → s.uB < s.params.bufBytes → s.uB ≠ x := by
    intro n hr h7 hB
    rw [hr h7] at hcl
    have := hcl (by simp; unfold State.bufBits; omega) _ (List.mem_cons_self ..)
    unfold Clear at this; omega
  have bits : ∀ n : BitVec 7, (n.toNat ≤ 64 → namedRanges i s = [(s.uB, n.toNat)]) →
      n.toNat ≤ 64 → s.uB + n.toNat ≤ s.bufBits → Clear x s.uB n.toNat := by
    intro n hr h7 hB
    rw [hr h7] at hcl
    exact hcl (by simpa using hB) _ (List.mem_cons_self ..)
  have ints : ∀ n : BitVec 7, (n.toNat ≤ 8 → namedRanges i s = [(8 * s.uB, 8 * n.toNat)]) →
      n.toNat ≤ 8 → 8 * s.uB + 8 * n.toNat ≤ s.bufBits → ∀ j, j < n.toNat → s.uB + j ≠ x := by
    intro n hr h7 hB j hj
    rw [hr h7] at hcl
    have := hcl (by simpa using hB) _ (List.mem_cons_self ..)
    unfold Clear at this; dsimp only at this; omega
  have copy : (namedRanges i s = [(s.uB, s.uA), (s.uC, s.uA)]) → s.uB + s.uA ≤ s.bufBits → s.uC + s.uA ≤ s.bufBits →
      Clear x s.uB s.uA ∧ Clear x s.uC s.uA := by
    intro hr hB hC
    rw [hr] at hcl
    have := hcl (by simp [hB, hC])
    exact ⟨this (s.uB, s.uA) (by simp), this (s.uC, s.uA) (by simp)⟩
  have intAddr_ne : ∀ (n : BitVec 7) (r : Bool), (∀ j, j < n.toNat → s.uB + j ≠ x) →
      ∀ j, j < n.toNat → intAddr r s.uB n.toNat j ≠ x := by
    intro n r hn j hj
    unfold intAddr
    split
    · have := hn (n.toNat - 1 - j) (by omega); omega
    · exact hn j hj
  clear hu hd
  cases i with
  | nop => injection he with he; subst he; exact ⟨_, rfl, hf _ _ (Away.onto h).complete⟩
  | brevB | popcB | brevS | brevI | bswpS | bswpI =>
    injection he with he; subst he; exact ⟨_, rfl, hf _ _ (.lut h _ _)⟩
  | brevL | bswpL => injection he with he; subst he; exact ⟨_, rfl, hf _ _ ((Away.onto h).completeWith _)⟩
  | getbit n =>
    injection he with he; subst he
    refine ⟨_, rfl, hf _ _ (.ifIndex h fun hn => .atBit h hn ((Away.onto h).completeWith _) fun h7 hB o => ?_)⟩
    have hp : (8 * s.uB + n.toNat) / 8 ≠ x := by have := bit n (fun h => by simp [namedRanges, h]) h7 hB; omega
    rw [State.bufByte, State.bufByte, h.bitGet o hp]
    exact (Away.onto h).completeWith _
  | setbit n | clrbit n | tglbit n =>
    injection he with he; subst he
    exact ⟨_, rfl, hf _ _ (.changeBit h _ (bit n (fun h => by simp [namedRanges, h])))⟩
  | xchbit n =>
    injection he with he; subst he
    refine ⟨_, rfl, hf _ _ (.ifIndex h fun hn => Away.ite (c := 1 < s.uA) (fun _ => (Away.onto h).raise _ _ _ _) fun hA =>
      .atBit h hn ((Away.onto h).completeWith _) fun h7 hB o => ?_)⟩
    have hp : (8 * s.uB + n.toNat) / 8 ≠ x := by
      have := bit n (fun h => by simp [namedRanges, h]; omega) h7 hB; omega
    rw [State.bufByte, State.bufByte, h.bitGet o hp]
    exact ((Away.onto h).withBuf (h.bitPut o hp rfl)).completeWith _
  | rdbitsM n | rdbitsL n =>
    injection he with he; subst he
    exact ⟨_, rfl, hf _ _ (.readBits h _ (bits n (fun h => by simp [namedRanges, h])))⟩
  | wrbitsM n | wrbitsL n =>
    injection he with he; subst he
    exact ⟨_, rfl, hf _ _ (.writeBits h _ (bits n (fun h => by simp [namedRanges, h])))⟩
  | copybM | copybL => injection he with he; subst he; exact ⟨_, rfl, hf _ _ (.copyBlock h _ (copy rfl))⟩
  | rdint n r g =>
    injection he with he; subst he
    refine ⟨_, rfl, hf _ _ (.intCommand h ((Away.onto h).completeWith _) fun h8 hB => ?_)⟩
    have ha := intAddr_ne n r (ints n (fun h => by simp [namedRanges, h]) h8 hB)
    have e : assemble (fun i => (s.onto m).bufByte (intAddr r s.uB n.toNat i)) n.toNat
        = assemble (fun i => s.bufByte (intAddr r s.uB n.toNat i)) n.toNat :=
      assemble_congr _ fun i hi => by show m.read _ = s.buf.read _; rw [h, if_neg (ha i hi)]
    show Away x b _ ((s.onto m).completeWith (extendInt g n.toNat
      (assemble (fun i => (s.onto m).bufByte (intAddr r s.uB n.toNat i)) n.toNat)))
    rw [e]
    exact (Away.onto h).completeWith _
  | wrint n r =>
    injection he with he; subst he
    refine ⟨_, rfl, hf _ _ (.intCommand h (Away.onto h).complete fun h8 hB => ?_)⟩
    have ha := intAddr_ne n r (ints n (fun h => by simp [namedRanges, h]) h8 hB)
    exact ((Away.onto h).withBuf (h.storeBytes _ _ _ ha)).complete
  | b2by | by2w => injection he with he; subst he; exact ⟨_, rfl, hf _ _ ((Away.onto h).completeWith _)⟩
  | by2b | w2by => injection he with he; subst he; exact ⟨_, rfl, hf _ _ (.scale h _)⟩
  | rdOpen ord own =>
    injection he with he; subst he
    refine ⟨_, rfl, hf _ _ (Away.ite (fun _ => (Away.onto h).raise _ _ _ _) fun _ =>
      Away.ite (c := s.params.cacheMax < s.uA) (fun _ => (Away.onto h).raise _ _ _ _) fun _ => ?_)⟩
    dsimp only
    split
    · exact (Away.onto h).raise _ _ _ _
    · split
      · exact (Away.onto h).await _
      · exact ((Away.onto h).withReader _).complete
      · exact Away.onto h
  | rdClose =>
    injection he with he; subst he
    refine ⟨_, rfl, hf _ _ ?_⟩
    dsimp only
    split
    · exact (Away.onto h).complete
    · exact ⟨rfl, h⟩
  | rdFill =>
    injection he with he; subst he
    refine ⟨_, rfl, hf _ _ (.ifOpen h fun r _ => ?_)⟩
    dsimp only
    split
    · exact Away.ite (fun _ => ((Away.onto h).withReader _).await _) fun _ => ((Away.onto h).withReader _).completeWith _
    · exact ((Away.onto h).withReader _).completeWith _
    · exact Away.onto h
  | rdAvail => injection he with he; subst he; exact ⟨_, rfl, hf _ _ (.ifOpen h fun r _ => (Away.onto h).completeWith _)⟩
  | rdRemain =>
    injection he with he; subst he
    refine ⟨_, rfl, hf _ _ (.ifOpen h fun r _ => ?_)⟩
    dsimp only
    split
    · exact (Away.onto h).await _
    · exact (Away.onto h).completeWith _
    · exact Away.onto h
  | rdPeek n rv | rdRead n rv => injection he with he; subst he; exact ⟨_, rfl, hf _ _ (.readerField h)⟩
  | rdSeek =>
    injection he with he; subst he
    refine ⟨_, rfl, hf _ _ (.ifOpen h fun r _ => ?_)⟩
    refine Away.ite (c := s.seekTarget r < 0 ∨ 2 ^ 64 - 1 < s.seekTarget r / 8) (fun _ => (Away.onto h).raise _ _ _ _) fun _ =>
      Away.ite (c := r.inWindow (s.seekTarget r).toNat = true) (fun _ => ((Away.onto h).withReader _).complete) fun _ => ?_
    dsimp only
    split
    · exact (Away.onto h).await _
    · exact Away.ite (fun _ => ((Away.onto h).withReader _).complete) fun _ => (Away.onto h).raise _ _ _ _
    · exact Away.onto h
  | rdAlign =>
    injection he with he; subst he
    exact ⟨_, rfl, hf _ _ (.ifOpen h fun r _ => Away.ite (fun _ => (Away.onto h).complete) fun _ =>
      .afterEnsure h fun c => ((Away.onto h).withReader _).complete)⟩
  | rdCopyout =>
    injection he with he; subst he
    refine ⟨_, rfl, hf _ _ (.ifOpen h fun r hr => Away.ite (c := s.uA = 0) (fun _ => (Away.onto h).completeWith _) fun h0 =>
      .ifInBuf h fun hB => ?_)⟩
    have hcx : Clear x s.uB s.uA := by
      have e : namedRanges .rdCopyout s = [(s.uB, s.uA)] := by simp [namedRanges, hr]
      rw [e] at hcl
      exact hcl (by simpa using hB) _ (List.mem_cons_self ..)
    dsimp only
    split
    · exact Away.copyChunks (s := { s with copied := 0 }) (u := { s.onto m with copied := 0 }) ⟨rfl, h⟩ _ _ _ _ hcx
    · refine Away.ite (fun _ => ?_) fun _ => (Away.onto h).orAsk _ fun c _ => ?_
      · exact Away.raise (s := { s with res := BitVec.ofNat 64 s.copied })
          (u := { s.onto m with res := BitVec.ofNat 64 s.copied }) ⟨rfl, h⟩ _ _ _ _
      · exact ((Away.onto h).copyChunk c _ _ (by unfold Clear at *; unfold State.chunk; omega)).copyChunks _ _ _ _ hcx
    · exact Away.onto h

end Sys2Proof.Machine
end

