-- ==== Sys2Proof/Laws/Lut.lean ====
section
/-! SUPPORT. The bits of REV and of the byte reversals of Machine/Lut.lean. -/

namespace Sys2Proof.Machine

/-- spec/40_lut.md R130, checked on all 256 entries. -/
theorem rev_bit (v : Byte) {k : Nat} (hk : k < 8) : (rev v).getLsbD k = v.getLsbD (7 - k) := by
  have h : ∀ (v : Byte) (k : Fin 8), (rev v).getLsbD k = v.getLsbD (7 - k) := by decide +kernel
  exact h v ⟨k, hk⟩

theorem byteOf_bit (v : Word) (i k : Nat) : (byteOf v i).getLsbD k = (decide (k < 8) && v.getLsbD (8 * i + k)) := by
  simp [byteOf]

theorem byteOf_bit_lt (v : Word) (i k : Nat) (h : k < 8) : (byteOf v i).getLsbD k = v.getLsbD (8 * i + k) := by
  simp [byteOf, h]

theorem swap16_bit (g : Byte → Byte) (v : Word) (k : Nat) :
    (swap16 g v).getLsbD k = (decide (k < 16) && (g (byteOf v (1 - k / 8))).getLsbD (k % 8)) := by
  rcases Nat.lt_or_ge k 16 with h | h
  · obtain ⟨j, i, rfl, hi⟩ : ∃ j i, k = 8 * j + i ∧ i < 8 := ⟨k / 8, k % 8, by omega, by omega⟩
    have hj : j < 2 := by omega
    rw [show (8 * j + i) / 8 = j by omega, show (8 * j + i) % 8 = i by omega]
    unfold swap16
    simp only [BitVec.getLsbD_setWidth, BitVec.getLsbD_append, h, show 8 * j + i < 64 by omega, decide_true, Bool.true_and]
    interval_cases j <;> split_ifs <;> first | omega | (congr 1; omega)
  · unfold swap16; simp [Nat.not_lt.mpr h, BitVec.getLsbD_of_ge _ k h]

theorem swap32_bit (g : Byte → Byte) (v : Word) (k : Nat) :
    (swap32 g v).getLsbD k = (decide (k < 32) && (g (byteOf v (3 - k / 8))).getLsbD (k % 8)) := by
  rcases Nat.lt_or_ge k 32 with h | h
  · obtain ⟨j, i, rfl, hi⟩ : ∃ j i, k = 8 * j + i ∧ i < 8 := ⟨k / 8, k % 8, by omega, by omega⟩
    have hj : j < 4 := by omega
    rw [show (8 * j + i) / 8 = j by omega, show (8 * j + i) % 8 = i by omega]
    unfold swap32
    simp only [BitVec.getLsbD_setWidth, BitVec.getLsbD_append, h, show 8 * j + i < 64 by omega, decide_true, Bool.true_and]
    interval_cases j <;> split_ifs <;> first | omega | (congr 1; omega)
  · unfold swap32; simp [Nat.not_lt.mpr h, BitVec.getLsbD_of_ge _ k h]


theorem swap64_bit (g : Byte → Byte) (v : Word) (k : Nat) :
    (swap64 g v).getLsbD k = (decide (k < 64) && (g (byteOf v (7 - k / 8))).getLsbD (k % 8)) := by
  rcases Nat.lt_or_ge k 64 with h | h
  · obtain ⟨j, i, rfl, hi⟩ : ∃ j i, k = 8 * j + i ∧ i < 8 := ⟨k / 8, k % 8, by omega, by omega⟩
    have hj : j < 8 := by omega
    rw [show (8 * j + i) / 8 = j by omega, show (8 * j + i) % 8 = i by omega]
    unfold swap64
    simp only [BitVec.getLsbD_append, h, decide_true, Bool.true_and]
    interval_cases j <;> split_ifs <;> first | omega | (congr 1; omega)
  · simp [Nat.not_lt.mpr h, BitVec.getLsbD_of_ge _ k h]

end Sys2Proof.Machine
end

