-- ==== Sys2Proof/Laws/PerInstr.lean ====
section
/-! SUPPORT. Per-command statements: the encoding of each command lies in its row of the opcode table. -/

namespace Sys2Proof.Laws

/-- The word of `i` ANDed with the mask of its row is the row's match value, which is its OP number
(spec/30_encoding.md R99). -/
def RowBits.Statement (i : Instr) : Prop :=
  encode i &&& i.mask = i.opcode.setWidth 32

theorem RowBits.nop : RowBits.Statement .nop := by unfold RowBits.Statement; decide

theorem RowBits.brevB : RowBits.Statement .brevB := by unfold RowBits.Statement; decide

theorem RowBits.popcB : RowBits.Statement .popcB := by unfold RowBits.Statement; decide

theorem RowBits.brevS : RowBits.Statement .brevS := by unfold RowBits.Statement; decide

theorem RowBits.brevI : RowBits.Statement .brevI := by unfold RowBits.Statement; decide

theorem RowBits.brevL : RowBits.Statement .brevL := by unfold RowBits.Statement; decide

theorem RowBits.bswpS : RowBits.Statement .bswpS := by unfold RowBits.Statement; decide

theorem RowBits.bswpI : RowBits.Statement .bswpI := by unfold RowBits.Statement; decide

theorem RowBits.bswpL : RowBits.Statement .bswpL := by unfold RowBits.Statement; decide

theorem RowBits.getbit (cnt : BitVec 7) : RowBits.Statement (.getbit cnt) := by
  revert cnt; unfold RowBits.Statement; decide

theorem RowBits.setbit (cnt : BitVec 7) : RowBits.Statement (.setbit cnt) := by
  revert cnt; unfold RowBits.Statement; decide

theorem RowBits.clrbit (cnt : BitVec 7) : RowBits.Statement (.clrbit cnt) := by
  revert cnt; unfold RowBits.Statement; decide

theorem RowBits.tglbit (cnt : BitVec 7) : RowBits.Statement (.tglbit cnt) := by
  revert cnt; unfold RowBits.Statement; decide

theorem RowBits.xchbit (cnt : BitVec 7) : RowBits.Statement (.xchbit cnt) := by
  revert cnt; unfold RowBits.Statement; decide

theorem RowBits.rdbitsM (cnt : BitVec 7) : RowBits.Statement (.rdbitsM cnt) := by
  revert cnt; unfold RowBits.Statement; decide

theorem RowBits.rdbitsL (cnt : BitVec 7) : RowBits.Statement (.rdbitsL cnt) := by
  revert cnt; unfold RowBits.Statement; decide

theorem RowBits.wrbitsM (cnt : BitVec 7) : RowBits.Statement (.wrbitsM cnt) := by
  revert cnt; unfold RowBits.Statement; decide

theorem RowBits.wrbitsL (cnt : BitVec 7) : RowBits.Statement (.wrbitsL cnt) := by
  revert cnt; unfold RowBits.Statement; decide

theorem RowBits.copybM : RowBits.Statement .copybM := by unfold RowBits.Statement; decide

theorem RowBits.copybL : RowBits.Statement .copybL := by unfold RowBits.Statement; decide

theorem RowBits.rdint (cnt : BitVec 7) (rev sgn : Bool) : RowBits.Statement (.rdint cnt rev sgn) := by
  revert cnt rev sgn; unfold RowBits.Statement; decide

theorem RowBits.wrint (cnt : BitVec 7) (rev : Bool) : RowBits.Statement (.wrint cnt rev) := by
  revert cnt rev; unfold RowBits.Statement; decide

theorem RowBits.b2by : RowBits.Statement .b2by := by unfold RowBits.Statement; decide

theorem RowBits.by2b : RowBits.Statement .by2b := by unfold RowBits.Statement; decide

theorem RowBits.by2w : RowBits.Statement .by2w := by unfold RowBits.Statement; decide

theorem RowBits.w2by : RowBits.Statement .w2by := by unfold RowBits.Statement; decide

theorem RowBits.rdOpen (ord : BitVec 2) (own : Bool) : RowBits.Statement (.rdOpen ord own) := by
  revert ord own; unfold RowBits.Statement; decide

theorem RowBits.rdClose : RowBits.Statement .rdClose := by unfold RowBits.Statement; decide

theorem RowBits.rdFill : RowBits.Statement .rdFill := by unfold RowBits.Statement; decide

theorem RowBits.rdAvail : RowBits.Statement .rdAvail := by unfold RowBits.Statement; decide

theorem RowBits.rdRemain : RowBits.Statement .rdRemain := by unfold RowBits.Statement; decide

theorem RowBits.rdPeek (cnt : BitVec 7) (rev : Bool) : RowBits.Statement (.rdPeek cnt rev) := by
  revert cnt rev; unfold RowBits.Statement; decide

theorem RowBits.rdRead (cnt : BitVec 7) (rev : Bool) : RowBits.Statement (.rdRead cnt rev) := by
  revert cnt rev; unfold RowBits.Statement; decide

theorem RowBits.rdSeek : RowBits.Statement .rdSeek := by unfold RowBits.Statement; decide

theorem RowBits.rdAlign : RowBits.Statement .rdAlign := by unfold RowBits.Statement; decide

theorem RowBits.rdCopyout : RowBits.Statement .rdCopyout := by unfold RowBits.Statement; decide

end Sys2Proof.Laws
end

