-- ==== Sys2Proof/Laws/Sequencer.lean ====
section
/-! SUPPORT. The turns of the sequencer and of the host interface (Machine/Sequencer.lean, Machine/HostPort.lean). -/

namespace Sys2Proof.Machine

theorem State.popInput_eq {s : State} {x : Input} {rest : List Input} (h : s.inputs = x :: rest) :
    s.popInput = { s with inputs := rest } := by
  unfold State.popInput; rw [h]; rfl

/-- The registers are those numbered 0 to 15 (spec/10_state.md R22). -/
theorem State.readReg_eq_none (s : State) (k : Nat) : s.readReg k = none ↔ 15 < k := by
  constructor
  · intro h
    by_contra hk
    have : k ≤ 15 := by omega
    interval_cases k <;> simp [State.readReg] at h
  · intro h
    unfold State.readReg
    split <;> first | omega | rfl

/-- A step of a command never stops the machine (spec/60_exceptions.md R307). -/
theorem State.commandStep_next (s : State) : ∃ t, s.commandStep = .next t := by
  unfold State.commandStep
  split
  · exact ⟨_, rfl⟩
  · split
    · exact ⟨_, rfl⟩
    · obtain ⟨t, e, -⟩ := exec_leaves ‹_› s
      exact ⟨t, e⟩

/-- Nothing is left to the end of the command: nothing is settled. -/
theorem State.settle_none {s : State} (w : Nat → Bool) (h : s.raced = []) : s.settle w = s := by
  unfold State.settle; rw [h]; cases s; cases h; rfl

/-- The first access left to the end of the command is settled, then the others. -/
theorem State.settle_cons {s : State} {a : RacedAccess} {l : List RacedAccess} (w : Nat → Bool) (h : s.raced = a :: l) :
    s.settle w = State.settle w { State.settleOne w { s with raced := [] } a with raced := l } := by
  have comm : ∀ (l' : List RacedAccess) (u : State), State.settleOne w { u with raced := l' } a
      = { State.settleOne w { u with raced := [] } a with raced := l' } := by
    intro l' u; cases a with
    | read x => rfl
    | write x b y => unfold State.settleOne; dsimp only; split <;> rfl
  unfold State.settle
  rw [h, List.foldl_cons, comm [] s]

/-- Settling changes BUF, in canonical form, and the replies, and leaves nothing to settle. -/
theorem State.settle_spec (w : Nat → Bool) (s : State) :
    ∃ m out, s.settle w = { s with raced := [], buf := m, replies := out }
      ∧ (s.buf.wf = true → m.wf = true)
      ∧ ((∀ a ∈ s.raced, a.addr < s.params.bufBytes) → s.buf.within s.params.bufBytes = true →
          m.within s.params.bufBytes = true) := by
  generalize hl : s.raced = l
  induction l generalizing s with
  | nil =>
    refine ⟨s.buf, s.replies, ?_, id, fun _ h => h⟩
    rw [State.settle_none w hl]; cases s; cases hl; rfl
  | cons a l ih =>
    rw [State.settle_cons w hl]
    cases a with
    | read x =>
      obtain ⟨m, out, e, h1, h2⟩ := ih { s with raced := l, replies := .byte x (s.buf.read x) :: s.replies } rfl
      exact ⟨m, out, e, h1, fun h => h2 fun a ha => h a (.tail _ ha)⟩
    | write x b y =>
      unfold State.settleOne; dsimp only
      split
      · obtain ⟨m, out, e, h1, h2⟩ := ih { s with raced := l } rfl
        exact ⟨m, out, e, h1, fun h => h2 fun a ha => h a (.tail _ ha)⟩
      · obtain ⟨m, out, e, h1, h2⟩ := ih { s with raced := l, buf := s.buf.write x b } rfl
        exact ⟨m, out, e, fun h => h1 (Memory.wf_write h _ _),
          fun h hw => h2 (fun a ha => h a (.tail _ ha)) (Memory.within_write hw (h _ (.head _)) _)⟩

/-- A running command never stops the machine: its step is that of the command, settled once the command has ended. -/
theorem State.runCommand_next (s : State) :
    ∃ t, s.commandStep = .next t ∧ s.runCommand = .next (if t.busy then t else t.settle (s.wrote t)) := by
  obtain ⟨t, e⟩ := s.commandStep_next
  exact ⟨t, e, by unfold State.runCommand; rw [e]; rfl⟩

/-- A command uses bytes of BUF only. -/
theorem State.lt_of_uses {s : State} {x : Nat} (h : s.uses x = true) : x < s.params.bufBytes := by
  unfold State.uses at h
  simp only [Bool.and_eq_true] at h
  obtain ⟨-, h⟩ := h
  split at h
  · rename_i i _
    unfold bufRanges at h
    split at h
    · rename_i hall
      rw [List.any_eq_true] at h
      obtain ⟨⟨p, n⟩, hm, hi⟩ := h
      have : p + n ≤ 8 * s.params.bufBytes := of_decide_eq_true (List.all_eq_true.1 hall _ hm)
      simp only [inRange, decide_eq_true_eq] at hi
      omega
    · simp at h
  · cases h

/-- A host access that is no write of CMD and does not race is performed in its own turn (spec/70_reset_and_hazards.md R352,
R353). -/
theorem step_host_now {s : State} {a : HostAccess} {rest : List Input} (h : s.inputs = .host a :: rest)
    (hc : ∀ v, a ≠ .writeReg 0 v) (hr : s.races a = false) : step s = State.perform { s with inputs := rest } a := by
  unfold step State.takeTurn
  rw [h]; dsimp only
  rw [State.popInput_eq h]
  have hr' : State.races { s with inputs := rest } a = false := hr
  unfold State.hostTurn
  split
  · exact absurd rfl (hc _)
  · rw [if_neg (by rw [hr']; simp)]

/-- A racing host access takes a free outcome in its own turn (spec/70_reset_and_hazards.md R354). -/
theorem step_host_race {s : State} {a : HostAccess} {rest : List Input} (h : s.inputs = .host a :: rest)
    (hr : s.races a = true) :
    step s = State.race { s with inputs := rest, draws := s.draws + 1 } (Config.raceOutcome s.draws) a := by
  unfold step State.takeTurn
  rw [h]; dsimp only
  rw [State.popInput_eq h]
  have hr' : State.races { s with inputs := rest } a = true := hr
  unfold State.hostTurn
  split
  · cases hr
  · rw [if_pos hr']

/-- What a racing access changes (spec/20_memory.md R81). -/
theorem State.race_cases {s t : State} {o : RaceOutcome} {a : HostAccess} (h : s.race o a = .next t) :
    (∃ x, a = .readByte x ∧ t = { s with replies := .byte x (s.before.read x) :: s.replies })
    ∨ (∃ d, (∀ x, a.bufAddr = some x → d.addr = x) ∧ t = s.defer d)
    ∨ (∃ m, (s.before.wf = true → m.wf = true) ∧ State.perform { s with before := m } a = .next t) := by
  unfold State.race at h
  split at h
  · split at h
    · injection h with h; exact .inl ⟨_, rfl, h.symm⟩
    · split at h
      · injection h with h; exact .inr (.inl ⟨_, fun x hx => (by injection hx), h.symm⟩)
      · exact .inr (.inr ⟨s.before, id, h⟩)
    · injection h with h; exact .inr (.inl ⟨_, fun x hx => (by injection hx), h.symm⟩)
  · split at h
    · injection h with h; exact .inr (.inl ⟨_, fun x hx => (by injection hx), h.symm⟩)
    · split at h
      · injection h with h; exact .inr (.inl ⟨_, fun x hx => (by injection hx), h.symm⟩)
      · exact .inr (.inr ⟨_, fun hw => Memory.wf_write hw _ _, h⟩)
    · injection h with h; exact .inr (.inl ⟨_, fun x hx => (by injection hx), h.symm⟩)
  · exact .inr (.inr ⟨s.before, id, h⟩)
  · exact .inr (.inr ⟨s.before, id, h⟩)

/-- What an access that is performed changes (spec/10_state.md R22, R39, spec/20_memory.md R62). -/
theorem State.perform_cases {s t : State} {a : HostAccess} (h : s.perform a = .next t) :
    (∃ v, a = .writeReg 0 v ∧ t = s.accept (v.setWidth 32))
    ∨ (∃ k v, a = .writeReg k v ∧ 1 ≤ k ∧ k ≤ 15 ∧ t = s.writeReg k v)
    ∨ (∃ k v, a = .readReg k ∧ s.readReg k = some v ∧ t = { s with replies := .reg k v :: s.replies })
    ∨ (∃ x b, a = .writeByte x b ∧ x < s.params.bufBytes ∧ t = s.withBuf (s.buf.write x b))
    ∨ (∃ x, a = .readByte x ∧ x < s.params.bufBytes ∧ t = { s with replies := .byte x (s.buf.read x) :: s.replies }) := by
  unfold State.perform at h
  split at h
  · split at h
    · cases h
    · split at h
      · rename_i h0
        injection h with h
        exact .inl ⟨_, by rw [h0], h.symm⟩
      · injection h with h
        exact .inr (.inl ⟨_, _, rfl, by omega, by omega, h.symm⟩)
  · split at h
    · cases h
    · injection h with h
      exact .inr (.inr (.inl ⟨_, _, rfl, ‹_›, h.symm⟩))
  · split at h
    · injection h with h
      exact .inr (.inr (.inr (.inl ⟨_, _, rfl, ‹_›, h.symm⟩)))
    · cases h
  · split at h
    · injection h with h
      exact .inr (.inr (.inr (.inr ⟨_, rfl, ‹_›, h.symm⟩)))
    · cases h

end Sys2Proof.Machine
end

