-- ==== Sys2Proof/Tests/Slice0.lean ====
section
/-! SUPPORT. Tests. Every expected value is a worked value of spec/ (the vector or rule is named); none was computed by the
model. -/

namespace Sys2Proof.Tests

open Sys2Proof.Machine

/-- A state in which a command with these latched operands has been accepted. -/
def ready (p : Params) (buf : Memory) (a b c : Word) : State :=
  { State.resetWith p buf with busy := true, latchA := a, latchB := b, latchC := c }

/-- `ready` with the parameters of the test vectors. -/
def ready0 (buf : Memory) (a b c : Word) : State := ready Params.vectors buf a b c

/-- The parameters of the test vectors with SYS_BIT_ORDER = LeastSignificant. -/
def lsParams : Params := { Params.vectors with sysBitOrder := some .leastSignificant }

/-- The parameters of the test vectors with ACCEPT_INDEX8 = true. -/
def index8Params : Params := { Params.vectors with acceptIndex8 := true }

/-- BUF of the V-BF vectors. -/
def bufBF : Memory := [(0, 0xB4), (1, 0x5A)]

/-- BUF of the V-INT vectors. -/
def bufINT : Memory :=
  [(0, 0x12), (1, 0x34), (2, 0x56), (3, 0x78), (4, 0x9A), (5, 0xBC), (6, 0xDE), (7, 0xF0)]

/-- The bytes 12 34 56 78 9A BC DE F0. -/
def src8 : List Byte := [0x12, 0x34, 0x56, 0x78, 0x9A, 0xBC, 0xDE, 0xF0]

/-- What a completed command shows: FCODE and RES. -/
def outcome : Result → Option (FCode × Word)
  | .next s => if s.busy then none else some (s.fcode, s.res)
  | .fault _ => none
  | .refused _ => none

/-- What a faulting command shows: FCODE, FOFF, FCNT, FAVAIL. -/
def context : Result → Option (FCode × Word × Word × Word)
  | .next s => if s.busy then none else some (s.fcode, s.foff, s.fcnt, s.favail)
  | .fault _ => none
  | .refused _ => none

/-- The first `n` bytes of BUF from `a` on after a command that completed OK. -/
def bytesAfter (a n : Nat) : Result → Option (List Byte)
  | .next s => if s.busy ∨ s.fcode ≠ .ok then none else some ((List.range n).map fun i => s.buf.read (a + i))
  | .fault _ => none
  | .refused _ => none

/-- (BYTE_IDX, BIT_IDX), CAP, CLEN, SRC_POS after a command. -/
def cursorAfter : Result → Option ((Nat × Nat) × Nat × Nat × Nat)
  | .next s => s.reader.map fun r => ((r.byteIdx, r.bitIdx), r.cap, r.clen, r.srcPos)
  | .fault _ => none
  | .refused _ => none

/-- The request a command waits for. -/
def asks : Result → Option SrcRequest
  | .next s =>
    match s.port with
    | .waiting req => if s.busy then some req else none
    | .idle => none
    | .answered _ _ => none
  | .fault _ => none
  | .refused _ => none

/-! Decoding: words written out from the encodings of spec/30_encoding.md. -/

theorem test_decode_nop : decode 0x00000000 = .ok .nop := by decide
theorem test_decode_brevB : decode 0b00000000000000000000000000000001 = .ok .brevB := by decide
theorem test_decode_popcB : decode 0x00000002 = .ok .popcB := by decide
theorem test_decode_brevS : decode 0x00000003 = .ok .brevS := by decide
theorem test_decode_brevI : decode 0x00000004 = .ok .brevI := by decide
theorem test_decode_brevL : decode 0x00000005 = .ok .brevL := by decide
theorem test_decode_bswpS : decode 0x00000006 = .ok .bswpS := by decide
theorem test_decode_bswpI : decode 0x00000007 = .ok .bswpI := by decide
theorem test_decode_bswpL : decode 0x00000008 = .ok .bswpL := by decide
-- GETBIT 3: CNT = 0000011 in bits 14:8 (R103).
theorem test_decode_getbit : decode 0b00000000000000000000001100010000 = .ok (.getbit 3) := by decide
theorem test_decode_setbit : decode 0x00000111 = .ok (.setbit 1) := by decide
theorem test_decode_clrbit : decode 0x00000212 = .ok (.clrbit 2) := by decide
theorem test_decode_tglbit : decode 0x00000713 = .ok (.tglbit 7) := by decide
theorem test_decode_xchbit : decode 0x00000914 = .ok (.xchbit 9) := by decide
-- RDBITS.M 12 is 0x00000C20 (R103).
theorem test_decode_rdbitsM : decode 0b00000000000000000000110000100000 = .ok (.rdbitsM 12) := by decide
theorem test_decode_rdbitsL : decode 0x00004021 = .ok (.rdbitsL 64) := by decide
theorem test_decode_wrbitsM : decode 0x00000922 = .ok (.wrbitsM 9) := by decide
theorem test_decode_wrbitsL : decode 0x00000C23 = .ok (.wrbitsL 12) := by decide
theorem test_decode_copybM : decode 0x00000024 = .ok .copybM := by decide
theorem test_decode_copybL : decode 0x00000025 = .ok .copybL := by decide
-- RDINT.S.R 4 is 0x00018430: R in bit 15, S in bit 16 (R103).
theorem test_decode_rdint : decode 0b00000000000000011000010000110000 = .ok (.rdint 4 true true) := by decide
theorem test_decode_rdint_rev : decode 0x00008430 = .ok (.rdint 4 true false) := by decide
theorem test_decode_wrint : decode 0x00008431 = .ok (.wrint 4 true) := by decide
theorem test_decode_b2by : decode 0x00000038 = .ok .b2by := by decide
theorem test_decode_by2b : decode 0x00000039 = .ok .by2b := by decide
theorem test_decode_by2w : decode 0x0000003A = .ok .by2w := by decide
theorem test_decode_w2by : decode 0x0000003B = .ok .w2by := by decide
-- RD.OPEN LS, 1 is 0x000C0080: ORD = 10 in bits 18:17, OWN in bit 19 (R103).
theorem test_decode_rdOpen : decode 0b00000000000011000000000010000000 = .ok (.rdOpen 2 true) := by decide
theorem test_decode_rdClose : decode 0x00000081 = .ok .rdClose := by decide
theorem test_decode_rdFill : decode 0x00000082 = .ok .rdFill := by decide
theorem test_decode_rdAvail : decode 0x00000083 = .ok .rdAvail := by decide
theorem test_decode_rdRemain : decode 0x00000084 = .ok .rdRemain := by decide
-- V-RD-50 and R103.
theorem test_decode_rdPeek : decode 0x0000A085 = .ok (.rdPeek 32 true) := by decide
theorem test_decode_rdRead : decode 0x00002086 = .ok (.rdRead 32 false) := by decide
theorem test_decode_rdSeek : decode 0x00000087 = .ok .rdSeek := by decide
theorem test_decode_rdAlign : decode 0x00000088 = .ok .rdAlign := by decide
theorem test_decode_rdCopyout : decode 0x00000089 = .ok .rdCopyout := by decide

-- The rejections of V-EX-1 to V-EX-8.
theorem test_reject_undefined_op : decode 0x00000009 = .error .undefinedOp := by decide
theorem test_reject_last_op : decode 0x000000FF = .error .undefinedOp := by decide
theorem test_reject_cnt_on_nop : decode 0x00000100 = .error .unusedField := by decide
theorem test_reject_rev_on_rdbits : decode 0x00008020 = .error .unusedField := by decide
theorem test_reject_reserved_bit : decode 0x00100000 = .error .unusedField := by decide
theorem test_reject_sgn_on_wrint : decode 0x00010031 = .error .unusedField := by decide
theorem test_reject_ord_3 : decode 0x00060080 = .error .reservedOrd := by decide
theorem test_reject_cnt_on_close : decode 0x00000181 = .error .unusedField := by decide

-- WellFormed: the one ill-formed field value, ORD = 3, is refused.
theorem test_wellFormed_ord_3 : (Instr.rdOpen 3 false).wellFormed = false := by decide
theorem test_wellFormed_ord_2 : (Instr.rdOpen 2 false).wellFormed = true := by decide

-- R103 and R104 to R118: encodings of spelt commands and pseudo-instructions.
theorem test_encode_rdint : encode (.rdint 4 true true) = 0x00018430 := by decide
theorem test_encode_rdOpen : encode (.rdOpen 2 true) = 0x000C0080 := by decide
theorem test_pseudo_readBit : encode (Pseudo.readBit true).command = 0x00008186 := by decide
theorem test_pseudo_read24 : encode (Pseudo.readFixed .w24 false).command = 0x00001886 := by decide
theorem test_pseudo_peek64 : encode (Pseudo.peekFixed .w64 false).command = 0x00004085 := by decide
theorem test_pseudo_rds16 : encode (Pseudo.rds .w16 true).command = 0x00018230 := by decide
theorem test_pseudo_wru64 : encode (Pseudo.wru .w64 false).command = 0x00000831 := by decide
theorem test_pseudo_openDef : Pseudo.openDef.expand = [.writeReg 2 32, .writeReg 0 0x80] := by decide
theorem test_pseudo_rewind : (Pseudo.rewind 4).operand = some 0xFFFFFFFFFFFFFFFC := by decide
theorem test_spell_rdint : spell (.rdint 4 true true) = "RDINT.S.R 4" := by decide
theorem test_spell_rdOpen : spell (.rdOpen 2 true) = "RD.OPEN LS, 1" := by decide

/-! The ROMs (V-LUT-INV). -/

theorem test_rev_sum : (revRom.map (·.toNat)).sum = 32640 ∧ revRom.length = 256 := by decide +kernel
theorem test_pop_sum : (popRom.map (·.toNat)).sum = 1024 ∧ popRom.length = 256 := by decide +kernel

/-! Table commands (V-LUT). -/

theorem test_brevB : outcome (execBrevB (ready0 [] 0xB4 0 0)) = some (.ok, 0x2D) := by decide
theorem test_brevB_range :
    context (execBrevB (ready0 [] 0x100 0 0)) = some (.range, 0, 0x100, 0xFF) := by decide
theorem test_popcB : outcome (execPopcB (ready0 [] 0x7F 0 0)) = some (.ok, 7) := by decide
theorem test_brevS : outcome (execBrevS (ready0 [] 0x1234 0 0)) = some (.ok, 0x2C48) := by decide
theorem test_brevS_range :
    context (execBrevS (ready0 [] 0x10000 0 0)) = some (.range, 0, 0x10000, 0xFFFF) := by decide
theorem test_brevI : outcome (execBrevI (ready0 [] 0x12345678 0 0)) = some (.ok, 0x1E6A2C48) := by decide
theorem test_brevL :
    outcome (execBrevL (ready0 [] 0x123456789ABCDEF 0 0)) = some (.ok, 0xF7B3D591E6A2C480) := by decide
theorem test_bswpS : outcome (execBswpS (ready0 [] 0x1234 0 0)) = some (.ok, 0x3412) := by decide
theorem test_bswpI : outcome (execBswpI (ready0 [] 0xFF 0 0)) = some (.ok, 0xFF000000) := by decide
theorem test_bswpL :
    outcome (execBswpL (ready0 [] 0x123456789ABCDEF 0 0)) = some (.ok, 0xEFCDAB8967452301) := by decide

/-! Single bits (V-BF-4, 13, 18 to 35). -/

theorem test_getbit_ls : outcome (execGetbit 3 (ready lsParams bufBF 0 0 0)) = some (.ok, 0) := by decide
theorem test_index8_range : context (execGetbit 8 (ready0 bufBF 0 0 0)) = some (.range, 0, 8, 7) := by decide
theorem test_index8_accepted :
    bytesAfter 0 2 (execTglbit 8 (ready index8Params bufBF 0 0 0)) = some [0xB4, 0x5A] := by decide
theorem test_setbit_ls : bytesAfter 0 2 (execSetbit 0 (ready lsParams bufBF 0 0 0)) = some [0xB5, 0x5A] := by decide
theorem test_setbit_ms : bytesAfter 0 2 (execSetbit 1 (ready0 bufBF 0 0 0)) = some [0xF4, 0x5A] := by decide
theorem test_clrbit : bytesAfter 0 2 (execClrbit 2 (ready0 bufBF 0 0 0)) = some [0x94, 0x5A] := by decide
theorem test_tglbit : bytesAfter 0 2 (execTglbit 7 (ready0 bufBF 0 0 0)) = some [0xB5, 0x5A] := by decide
theorem test_xchbit : bytesAfter 0 2 (execXchbit 0 (ready0 bufBF 1 1 0)) = some [0xB4, 0xDA] := by decide
theorem test_xchbit_index_first :
    context (execXchbit 9 (ready0 bufBF 2 0x63 0)) = some (.range, 0x318, 9, 7) := by decide

/-! Fields and copies (V-BF-36 to 76). -/

theorem test_rdbitsM : outcome (execRdbitsM 7 (ready0 bufBF 0 3 0)) = some (.ok, 0x51) := by decide
theorem test_rdbitsM_range :
    context (execRdbitsM 9 (ready0 bufBF 0 0x1F8 0)) = some (.range, 0x1F8, 9, 8) := by decide
theorem test_rdbitsL : outcome (execRdbitsL 12 (ready0 bufBF 0 0 0)) = some (.ok, 0xAB4) := by decide
theorem test_wrbitsM : bytesAfter 0 3 (execWrbitsM 9 (ready0 [] 0x1FF 6 0)) = some [0x03, 0xFE, 0x00] := by decide
theorem test_wrbitsM_range :
    context (execWrbitsM 2 (ready0 [] 3 0x1FF 0)) = some (.range, 0x1FF, 2, 1) := by decide
theorem test_wrbitsL : bytesAfter 0 3 (execWrbitsL 12 (ready0 [] 0xABC 6 0)) = some [0x00, 0xAF, 0x02] := by decide
theorem test_copybM :
    bytesAfter 0 4 (execCopybM (ready0 bufBF 0x10 0 4)) = some [0xBB, 0x45, 0xA0, 0x00] := by decide +kernel
theorem test_copybL :
    bytesAfter 0 5 (execCopybL (ready0 bufBF 0xC 0 0x14)) = some [0xB4, 0x5A, 0x40, 0xAB, 0x00] := by decide
theorem test_copybM_range :
    context (execCopybM (ready0 bufBF 0xA 0 0x1F9)) = some (.range, 0x1F9, 0xA, 7) := by decide

/-! Integers and conversions (V-INT). -/

theorem test_rdint : outcome (execRdint 3 false false (ready0 bufINT 0 0 0)) = some (.ok, 0x563412) := by decide
theorem test_rdint_signed_reversed :
    outcome (execRdint 2 true true (ready0 bufINT 0 4 0)) = some (.ok, 0xFFFFFFFFFFFF9ABC) := by decide
theorem test_wrint :
    bytesAfter 8 5 (execWrint 4 false (ready0 bufINT 0x11223344AABBCCDD 8 0)) = some [0xDD, 0xCC, 0xBB, 0xAA, 0x00] := by
  decide
theorem test_wrint_range :
    context (execWrint 3 false (ready0 bufINT 0xABCDEF 0x3E 0)) = some (.range, 0x1F0, 0x18, 0x10) := by decide
theorem test_b2by :
    outcome (execB2by (ready0 [] 0xFFFFFFFFFFFFFFFF 0 0)) = some (.ok, 0x2000000000000000) := by decide
theorem test_by2b : outcome (execBy2b (ready0 [] 0x1FFFFFFFFFFFFFFF 0 0)) = some (.ok, 0xFFFFFFFFFFFFFFF8) := by decide
theorem test_by2b_range :
    context (execBy2b (ready0 [] 0x2000000000000000 0 0)) = some (.range, 0, 0x2000000000000000, 0x1FFFFFFFFFFFFFFF) := by
  decide
theorem test_by2w : outcome (execBy2w (ready0 [] 9 0 0)) = some (.ok, 2) := by decide
theorem test_w2by : outcome (execW2by (ready0 [] 3 0 0)) = some (.ok, 0x18) := by decide
theorem test_nop : outcome (execNop (ready0 [] 0 0 0)) = some (.ok, 0) := by decide

/-! The reader (V-RD). -/

/-- A reader over 12 34 56 78 9A BC DE F0 as the vectors open it. -/
def reader (cap : Nat) (cache : List Byte) (byteIdx bitIdx srcPos : Nat) : Reader where
  own := false
  order := .mostSignificant
  cap := cap
  cache := cache
  byteIdx := byteIdx
  bitIdx := bitIdx
  srcPos := srcPos

/-- `ready0` with an open reader. -/
def readerReady (r : Reader) (a b : Word) : State := (ready0 [] a b 0).withReader r

/-- A running command whose request has just been answered. -/
def answered (s : State) (req : SrcRequest) (ans : SrcAnswer) : State := { s with port := .answered req ans }

-- V-RD-30: RD.OPEN SYS, 0 with OPA = 4 asks for the position, then opens.
theorem test_rdOpen_asks : asks (execRdOpen 0 false (ready0 [] 4 0 0)) = some .position := by decide
theorem test_rdOpen_opens :
    cursorAfter (execRdOpen 0 false (answered (ready0 [] 4 0 0) .position (.position (some 0))))
      = some ((0, 0), 4, 0, 0) := by decide
-- V-RD-60: closing an owned reader sends SrcClose.
theorem test_rdClose_sends :
    (match execRdClose (readerReady { reader 32 src8 8 0 8 with own := true } 0 0) with
      | .next s => some (s.reader, s.sent, s.fcode)
      | _ => none) = some (none, [.close], .ok) := by decide
-- V-RD-79, V-RD-80: RD.FILL recycles and polls for the free space.
theorem test_rdFill_asks :
    asks (execRdFill (readerReady (reader 4 [0x12, 0x34, 0x56, 0x78] 1 4 4) 0 0)) = some (.read 1 .poll) := by decide
theorem test_rdFill :
    outcome (execRdFill (answered (readerReady (reader 4 [0x34, 0x56, 0x78] 0 4 4) 0 0) (.read 1 .poll) (.bytes [0x9A])))
      = some (.ok, 0x1C) := by decide
-- V-RD-34, V-RD-35.
theorem test_rdAvail :
    outcome (execRdAvail (readerReady (reader 5 [0x34, 0x56, 0x78, 0x9A, 0xBC] 4 4 6) 0 0)) = some (.ok, 4) := by decide
theorem test_rdRemain :
    outcome (execRdRemain (answered (readerReady (reader 5 [0x34, 0x56, 0x78, 0x9A, 0xBC] 4 4 6) 0 0) .length (.length (some 8))))
      = some (.ok, 0x14) := by decide
-- V-RD-50, V-RD-51.
theorem test_rdPeek_reversed :
    outcome (execRdPeek 32 true (readerReady (reader 32 src8 0 0 8) 0 0)) = some (.ok, 0x78563412) := by decide
theorem test_rdPeek_asks :
    asks (execRdPeek 32 false (readerReady (reader 32 [] 0 0 0) 0 0)) = some (.read 32 .blocking) := by decide
-- V-RD-33: growth, recycling and a top-up of two bytes; then the result and the new cursor.
theorem test_rdRead_grows_and_recycles :
    (fun s => (asks s, cursorAfter s)) (execRdRead 32 false (readerReady (reader 4 [0x12, 0x34, 0x56, 0x78] 1 4 4) 0 0))
      = (some (.read 2 .blocking), some ((0, 4), 5, 3, 4)) := by decide
theorem test_rdRead :
    (fun s => (outcome s, cursorAfter s))
      (execRdRead 32 false (answered (readerReady (reader 5 [0x34, 0x56, 0x78] 0 4 4) 0 0) (.read 2 .blocking) (.bytes [0x9A, 0xBC])))
      = (some (.ok, 0x456789AB), some ((4, 4), 5, 5, 6)) := by decide
-- V-RD-36 (in the window) and V-RD-43 (outside).
theorem test_rdSeek_window :
    cursorAfter (execRdSeek (readerReady (reader 5 [0x34, 0x56, 0x78, 0x9A, 0xBC] 4 4 6) 0xFFFFFFFFFFFFFFFC 0))
      = some ((4, 0), 5, 5, 6) := by decide
theorem test_rdSeek_asks :
    asks (execRdSeek (readerReady (reader 5 [0xDE, 0xF0] 2 0 8) 0xFFFFFFFFFFFFFFC0 0)) = some (.seek 0) := by decide
-- V-RD-71 and V-RD-74.
theorem test_rdAlign :
    cursorAfter (execRdAlign (answered (readerReady (reader 2 [] 0 3 4) 0 0) (.read 2 .blocking) (.bytes [0x9A, 0xBC])))
      = some ((1, 0), 2, 2, 6) := by decide
theorem test_rdAlign_endOfData :
    context (execRdAlign (answered (readerReady (reader 2 [] 0 4 8) 0 0) (.read 2 .blocking) (.bytes [])))
      = some (.endOfData, 0x44, 4, 0) := by decide
-- V-RD-84 (R249) and V-RD-87.
theorem test_rdCopyout :
    bytesAfter 0 4 (execRdCopyout (readerReady (reader 32 src8 0 4 8) 0x10 4)) = some [0x02, 0x34, 0x50, 0x00] := by decide +kernel
theorem test_rdCopyout_endOfData :
    context (execRdCopyout (answered (readerReady (reader 32 src8 2 4 8) 0x64 0x40) (.read 24 .blocking) (.bytes [])))
      = some (.endOfData, 0x14, 0x64, 0x2C) := by decide

/-! Whole steps. -/

-- R30, R341: SYSORD of the vectors' parameters.
theorem test_reset_sysord : State.reset.readReg 9 = some 0x809 := by decide
-- V-RD-30: RDCTL = 0x5 and RDWIN = 0x0000000400000000 after RD.OPEN SYS, 0 with OPA = 4 (R240).
theorem test_rdctl : (readerReady (reader 4 [] 0 0 0) 0 0).readReg 12 = some 5 := by decide
theorem test_rdwin : (readerReady (reader 4 [] 0 0 0) 0 0).readReg 14 = some 0x0000000400000000 := by decide
-- V-EX-9 through the step: a reader command while none is open.
theorem test_step_closed_reader :
    context (step (State.reset.withFetchWord 32 0x83)) = some (.illegalCommand, 0, 0x83, 0) := by decide
-- V-EX-1 through the step.
theorem test_step_undefined :
    context (step (State.reset.withFetchWord 32 0x09)) = some (.illegalCommand, 0, 9, 0) := by decide
-- V-EX-14: ConfigurationFault comes before decoding.
theorem test_step_configuration :
    context (step ((State.resetWith { Params.vectors with sysByteOrder := none } []).withFetchWord 32 0x820))
      = some (.configuration, 0, 0x820, 0) := by decide
-- R340: the answer to an abandoned request is ignored.
theorem test_stale_answer_ignored :
    asks (step { (readerReady (reader 32 [] 0 0 0) 0 0) with
      cmd := 0x186, port := .waiting (.read 32 .blocking), sent := [.read 32 .blocking, .position]
      inputs := [.answer 1 (.position (some 0))] }) = some (.read 32 .blocking) := by decide
-- R350: a CMD write while BUSY is held.
theorem test_command_held_while_busy :
    (match step { (ready0 [] 0 0 0) with inputs := [.host (.writeReg 0 0x81)] } with
      | .next s => some (s.held, s.cmd)
      | _ => none) = some ([0x81], 0) := by decide
-- R352: a write of OPA acts while BUSY = 1 and a command word is held, and the running command keeps its latched operand.
theorem test_operand_written_while_held :
    (match step { (ready0 [] 5 0 0) with held := [0x81], inputs := [.host (.writeReg 2 7)] } with
      | .next s => some (s.opa, s.latchA, s.busy)
      | _ => none) = some (7, 5, true) := by decide
-- R81: WRINT 1 at byte 1 races with a host write of 0xEE there: the byte ends with the command's value 0xAA or the host's.
theorem test_race_settled :
    ([true, false].map fun yields =>
      bytesAfter 1 1 (step { (ready0 bufBF 0xAA 1 0) with cmd := 0x131, raced := [.write 1 0xEE yields] }))
      = [some [0xAA], some [0xEE]] := by decide
-- R62: a host access outside BUF is refused.
theorem test_host_outside_buf :
    (match step { State.reset with inputs := [.host (.readByte 64)] } with
      | .refused r => some r
      | _ => none) = some (.outsideBuf 64) := by decide

/-! ### Witnesses

For each statement with hypotheses, states and operands that meet them: for each of its clauses one, at a boundary of its range.
The names are those of Certificates/Slice0/Obligations.lean. -/

/-- The word of a command, its latched operands, and a turn of the block to come. -/
def turn (w : CmdWord) (s : State) (turns : List Input) : State := { s with cmd := w, inputs := turns }

/-- The state that a step leaves. -/
def stateAfter : Result → State
  | .next s => s
  | .fault _ => State.reset
  | .refused _ => State.reset

/-- A reader with `n` cached bytes of an endless source of the byte 0xA5. -/
def repeating (cap n byteIdx bitIdx : Nat) : Reader := reader cap (List.replicate n 0xA5) byteIdx bitIdx n

/-- The source of `repeating`. -/
def source : Nat → Byte := fun _ => 0xA5

/-- The cache of `repeating` is a window of its source. -/
theorem repeating_window (s : State) (cap n byteIdx bitIdx : Nat) (h : s.reader = some (repeating cap n byteIdx bitIdx)) :
    s.windowOf source := by
  intro r hr j hj
  obtain rfl : repeating cap n byteIdx bitIdx = r := Option.some.inj (h.symm.trans hr)
  have hj : j < n := by simpa [Reader.clen, repeating, reader] using hj
  simp [Reader.byteAt, repeating, reader, source, List.getD_eq_getElem?_getD, hj]

theorem witness_DecodeOfEncode : (Instr.rdOpen 2 true).wellFormed = true ∧ (Instr.rdPeek 127 true).wellFormed = true := by decide

theorem witness_EncodeOfDecode : decode 0x00018430 = .ok (.rdint 4 true true) := by decide

theorem witness_StepRunsDecoded :
    (let s := turn 0x38 (ready0 [] 9 0 0) [.run];
      s.inputs = .run :: [] ∧ s.busy = true ∧ s.port = .idle ∧ s.cfgf = false ∧ decode s.cmd = .ok .b2by)
    ∧ (let s := turn 0x38 (ready0 [] 9 0 0) [];
      s.inputs = [] ∧ s.busy = true ∧ s.port = .idle ∧ s.cfgf = false ∧ decode s.cmd = .ok .b2by)
    ∧ (let s := { turn 0x84 (readerReady (reader 4 [] 0 0 0) 0 0) [.answer 1 (.length (some 8))] with
          port := .waiting .length, sent := [.length] };
      s.inputs = .answer s.sent.length (.length (some 8)) :: [] ∧ s.port = .waiting .length
        ∧ SrcRequest.length.allows (.length (some 8)) = true ∧ s.cfgf = false ∧ decode s.cmd = .ok .rdRemain)
    ∧ State.reset.cfgf = false ∧ decode 0x38 = .ok .b2by
    ∧ (let s := ready0 [] 9 0 0; outcome (exec .b2by s) = some (.ok, 2) ∧ s.raced = [])
    ∧ asks (exec .rdRemain (readerReady (reader 4 [] 0 0 0) 0 0)) = some .length := by decide

theorem witness_BitReversals :
    (let s := fun v => ready0 [] v 0 0;
      (s 0x100).cfgf = false ∧ 2 ^ 8 - 1 < (s 0x100).latchA.toNat ∧ (s 0xFF).latchA.toNat ≤ 2 ^ 8 - 1
        ∧ 2 ^ 16 - 1 < (s 0x10000).latchA.toNat ∧ (s 0xFFFF).latchA.toNat ≤ 2 ^ 16 - 1
        ∧ 2 ^ 32 - 1 < (s 0x100000000).latchA.toNat ∧ (s 0xFFFFFFFF).latchA.toNat ≤ 2 ^ 32 - 1) := by decide

theorem witness_PopulationCount :
    (let s := fun v => ready0 [] v 0 0;
      (s 0x100).cfgf = false ∧ 0xFF < (s 0x100).latchA.toNat ∧ (s 0xFF).latchA.toNat ≤ 0xFF) := by decide

theorem witness_ByteSwaps :
    (let s := fun v => ready0 [] v 0 0;
      (s 0).cfgf = false ∧ 2 ^ (8 * 2) - 1 < (s 0x10000).latchA.toNat ∧ (s 0xFFFF).latchA.toNat ≤ 2 ^ (8 * 2) - 1
        ∧ 2 ^ (8 * 4) - 1 < (s 0x100000000).latchA.toNat ∧ (s 0xFFFFFFFF).latchA.toNat ≤ 2 ^ (8 * 4) - 1) := by decide

theorem witness_TableCommandLaws :
    (let s := ready0 [] 0x12 0 0;
      s.cfgf = false ∧ s.latchA.toNat < 2 ^ 8 ∧ s.latchA.toNat ≤ 0xFF)
    ∧ (let s := ready0 [] 0x1234 0 0;
      s.cfgf = false ∧ s.latchA.toNat < 2 ^ 16 ∧ (0x482C : Word).toNat < 2 ^ 16
        ∧ (0x482C : Word).extractLsb' 0 8 = rev (s.latchA.extractLsb' 0 8)
        ∧ (0x482C : Word).extractLsb' 8 8 = rev (s.latchA.extractLsb' 8 8)) := by decide

theorem witness_FieldPrimitives : (64 : Nat) ≤ 64 := by decide

theorem witness_GetbitResult :
    (let s := fun p v => ready p bufBF 0 v 0;
      (s lsParams 0).cfgf = false ∧ lsParams.sysBitOrder = some .leastSignificant
        ∧ 7 < (8 : BitVec 7).toNat ∧ (s index8Params 63).cfgf = false ∧ index8Params.sysBitOrder = some .mostSignificant
        ∧ 8 < (9 : BitVec 7).toNat ∧ (8 : BitVec 7).toNat ≤ 8 ∧ (7 : BitVec 7).toNat ≤ 7
        ∧ (s index8Params 64).params.bufBytes ≤ (s index8Params 64).latchB.toNat
        ∧ (s index8Params 63).latchB.toNat < (s index8Params 63).params.bufBytes) := by decide

theorem witness_SetClearToggle :
    (let s := fun v => ready0 bufBF 0 v 0;
      (s 0).cfgf = false ∧ (s 0).params.sysBitOrder = some .mostSignificant ∧ 7 < (8 : BitVec 7).toNat
        ∧ (7 : BitVec 7).toNat ≤ 7 ∧ (s 64).params.bufBytes ≤ (s 64).latchB.toNat
        ∧ (s 63).latchB.toNat < (s 63).params.bufBytes ∧ (ready index8Params [] 0 63 0).params.acceptIndex8 = true) := by decide

theorem witness_ExchangeBit :
    (let s := fun u v => ready0 bufBF u v 0;
      (s 1 63).cfgf = false ∧ (s 1 63).params.sysBitOrder = some .mostSignificant ∧ 7 < (8 : BitVec 7).toNat
        ∧ 1 < (s 2 63).latchA.toNat ∧ (s 1 63).latchA.toNat ≤ 1 ∧ (s 1 64).params.bufBytes ≤ (s 1 64).latchB.toNat
        ∧ (s 1 63).latchB.toNat < (s 1 63).params.bufBytes ∧ (7 : BitVec 7).toNat ≤ 7) := by decide

theorem witness_FieldReads :
    (let s := fun v => ready0 bufBF 0 v 0;
      (s 0).cfgf = false ∧ 64 < (65 : BitVec 7).toNat
        ∧ 8 * (s 0x1F8).params.bufBytes < (s 0x1F8).latchB.toNat + (9 : BitVec 7).toNat
        ∧ (s 0x1F8).latchB.toNat + (8 : BitVec 7).toNat ≤ 8 * (s 0x1F8).params.bufBytes
        ∧ (s 0x1C0).latchB.toNat + (64 : BitVec 7).toNat ≤ 8 * (s 0x1C0).params.bufBytes) := by decide

theorem witness_FieldWrites :
    (let s := fun v => ready0 bufBF 0x1FF v 0;
      (s 0).cfgf = false ∧ 64 < (65 : BitVec 7).toNat
        ∧ 8 * (s 0x1FF).params.bufBytes < (s 0x1FF).latchB.toNat + (2 : BitVec 7).toNat
        ∧ (s 0x1FF).latchB.toNat + (1 : BitVec 7).toNat ≤ 8 * (s 0x1FF).params.bufBytes) := by decide

theorem witness_FieldLaws :
    (let s := ready0 bufBF 0x1FF 0x1C0 0;
      s.cfgf = false ∧ (64 : BitVec 7).toNat ≤ 64 ∧ s.latchB.toNat + (64 : BitVec 7).toNat ≤ 8 * s.params.bufBytes
        ∧ s.latchB.toNat % 8 = 0 ∧ s.latchB.toNat + 8 * 8 ≤ 8 * s.params.bufBytes) := by decide

theorem witness_BitCopies :
    (let s := fun n p d => ready0 bufBF n p d;
      (s 0 0 0).cfgf = false ∧ (s 0 0 0).latchA.toNat = 0
        ∧ 8 * (s 10 0x1F7 0).params.bufBytes < (s 10 0x1F7 0).latchB.toNat + (s 10 0x1F7 0).latchA.toNat
        ∧ (s 10 0x1F6 0).latchB.toNat + (s 10 0x1F6 0).latchA.toNat ≤ 8 * (s 10 0x1F6 0).params.bufBytes
        ∧ 8 * (s 10 0 0x1F7).params.bufBytes < (s 10 0 0x1F7).latchC.toNat + (s 10 0 0x1F7).latchA.toNat
        ∧ (s 10 0 0x1F6).latchC.toNat + (s 10 0 0x1F6).latchA.toNat ≤ 8 * (s 10 0 0x1F6).params.bufBytes) := by decide

theorem witness_IntegerReads :
    (let s := fun v => ready0 bufINT 0 v 0;
      (s 0).cfgf = false ∧ 8 < (9 : BitVec 7).toNat
        ∧ (s 57).params.bufBytes < (s 57).latchB.toNat + (8 : BitVec 7).toNat
        ∧ (s 56).latchB.toNat + (8 : BitVec 7).toNat ≤ (s 56).params.bufBytes) := by decide

theorem witness_IntegerWrites :
    (let s := fun v => ready0 [] 0x11223344AABBCCDD v 0;
      (s 0).cfgf = false ∧ 8 < (9 : BitVec 7).toNat
        ∧ (s 63).params.bufBytes < (s 63).latchB.toNat + (2 : BitVec 7).toNat
        ∧ (s 63).latchB.toNat + (1 : BitVec 7).toNat ≤ (s 63).params.bufBytes) := by decide

theorem witness_IntegerLaws :
    (let s := ready0 [] 0x11223344AABBCCDD 56 0;
      s.cfgf = false ∧ (8 : BitVec 7).toNat ≤ 8 ∧ s.latchB.toNat + (8 : BitVec 7).toNat ≤ s.params.bufBytes) := by decide

theorem witness_AlignedFieldsAreIntegers :
    (ready0 bufINT 0 0 0).cfgf = false ∧ (8 : Nat) ≤ 8 ∧ 56 + 8 ≤ (ready0 bufINT 0 0 0).params.bufBytes ∧ 8 * 56 < 2 ^ 64 := by
  decide

theorem witness_UnitConversions :
    (let s := fun v => ready0 [] v 0 0;
      (s 0).cfgf = false ∧ 2 ^ 64 - 1 < 8 * (s 0x2000000000000000).latchA.toNat
        ∧ 8 * (s 0x1FFFFFFFFFFFFFFF).latchA.toNat ≤ 2 ^ 64 - 1
        ∧ 2 ^ 64 - 1 < (s 0x2000000000000000).latchA.toNat * 8
        ∧ (s 0x1FFFFFFFFFFFFFFF).latchA.toNat * 8 ≤ 2 ^ 64 - 1) := by decide

theorem witness_NopResult :
    (ready0 [] 0 0 0).cfgf = false ∧ (State.resetWith { Params.vectors with sysBitOrder := none } []).cfgf = true
      ∧ (0x100 : CmdWord) ≠ 0 ∧ (0x100 : CmdWord).extractLsb' 0 8 = 0 := by decide

theorem witness_ReaderArithmetic : (reader 5 [0x34, 0x56, 0x78, 0x9A, 0xBC] 4 4 6).ok Params.vectors := by decide

theorem witness_OpenReader :
    (let s := fun v => ready0 [] v 0 0;
      (s 64).cfgf = false ∧ (2 : BitVec 2) ≠ 3 ∧ (s 64).params.sysBitOrder = some .mostSignificant
        ∧ (readerReady (reader 4 [] 0 0 0) 4 0).reader.isSome = true ∧ (s 64).reader = none
        ∧ (s 65).params.cacheMax < (s 65).latchA.toNat ∧ (s 64).latchA.toNat ≤ (s 64).params.cacheMax ∧ (s 64).port = .idle
        ∧ (answered (s 0) .position (.position none)).port = .answered .position (.position none)) := by decide

theorem witness_CloseReader :
    (ready0 [] 0 0 0).cfgf = false ∧ (ready0 [] 0 0 0).reader = none
      ∧ (readerReady (reader 4 [] 0 0 0) 0 0).reader = some (reader 4 [] 0 0 0)
      ∧ (readerReady { reader 4 [] 0 0 0 with own := true } 0 0).reader = some { reader 4 [] 0 0 0 with own := true } := by
  decide

theorem witness_FillReader :
    (let s := fun r => readerReady r 0 0;
      let r := reader 4 [0x12, 0x34, 0x56, 0x78] 1 4 4;
      let f := reader 4 [0x12, 0x34, 0x56, 0x78] 0 4 4;
      (s r).cfgf = false ∧ (s r).reader = some r ∧ r.ok (s r).params ∧ (s r).port = .idle ∧ (r.cache.drop r.byteIdx).length < r.cap
        ∧ f.ok (s f).params ∧ (f.cache.drop f.byteIdx).length = f.cap
        ∧ (answered (s r) (.read 1 .poll) (.bytes [])).port = .answered (.read 1 .poll) (.bytes [])) := by decide

theorem witness_AvailAndRemain :
    (let s := readerReady (reader 4 [0x12, 0x34, 0x56, 0x78] 1 4 4) 0 0;
      s.cfgf = false ∧ s.reader = some (reader 4 [0x12, 0x34, 0x56, 0x78] 1 4 4) ∧ s.port = .idle
        ∧ (answered s .length (.length none)).port = .answered .length (.length none)
        ∧ (answered s .length (.length (some 0))).port = .answered .length (.length (some 0))) := by decide

theorem witness_PeekAndRead :
    (let r := reader 32 src8 0 0 8;
      let s := readerReady r 0 0;
      s.cfgf = false ∧ s.reader = some r ∧ r.ok s.params ∧ s.port = .idle ∧ 64 < (65 : BitVec 7).toNat
        ∧ 1 ≤ (64 : BitVec 7).toNat ∧ (64 : BitVec 7).toNat ≤ 64 ∧ (64 : BitVec 7).toNat ≤ r.avail) := by decide

theorem witness_EnsureAsks :
    (let r := reader 4 [0x12, 0x34, 0x56, 0x78] 1 4 4;
      let s := readerReady r 0 0;
      s.cfgf = false ∧ s.params.legal ∧ s.reader = some r ∧ r.ok s.params ∧ s.port = .idle
        ∧ ensuredBits (.rdRead 21 false) r = some 21 ∧ r.avail < 21)
    ∧ (let r := reader 2 [] 0 4 8;
      let s := readerReady r 0 0;
      s.cfgf = false ∧ s.params.legal ∧ s.reader = some r ∧ r.ok s.params ∧ s.port = .idle
        ∧ ensuredBits .rdAlign r = some 4 ∧ r.avail < 4)
    ∧ (let r := reader 32 src8 0 0 8;
      let s := readerReady r 65 0;
      s.cfgf = false ∧ s.params.legal ∧ s.reader = some r ∧ r.ok s.params ∧ s.port = .idle
        ∧ s.latchB.toNat + s.latchA.toNat ≤ 8 * s.params.bufBytes ∧ r.avail < s.latchA.toNat) := by decide

theorem witness_AnswerGoesOn :
    (let r := reader 5 [0x34, 0x56, 0x78] 0 4 4;
      let s := fun bs => answered (readerReady r 0 0) (.read 2 .blocking) (.bytes bs);
      (s [0x9A]).cfgf = false ∧ (s [0x9A]).reader = some r ∧ ensuredBits (.rdRead 32 false) r = some 32
        ∧ (s [0x9A]).port = .answered (.read 2 .blocking) (.bytes [0x9A]) ∧ ([0x9A] : List Byte) ≠ []
        ∧ 8 * ((r.pulled [0x9A]).cache.length - r.byteIdx) < r.bitIdx + 32
        ∧ r.bitIdx + 32 ≤ 8 * ((r.pulled [0x9A, 0xBC]).cache.length - r.byteIdx)
        ∧ ensuredBits .rdAlign r = some 4 ∧ r.bitIdx + 4 ≤ 8 * ((r.pulled [0x9A]).cache.length - r.byteIdx)) := by decide

theorem witness_EndOfData :
    (let r := reader 32 [0xAA] 1 0 1;
      let s := answered (readerReady r 0x64 0x40) (.read 31 .blocking) (.bytes []);
      s.cfgf = false ∧ s.reader = some r ∧ s.port = .answered (.read 31 .blocking) (.bytes [])
        ∧ ensuredBits (.rdRead 1 false) r = some 1 ∧ 1 ≤ s.latchA.toNat
        ∧ s.latchB.toNat + s.latchA.toNat ≤ 8 * s.params.bufBytes ∧ s.busy = true
        ∧ context (exec (.rdRead 1 false) s) = some (.endOfData, 8, 1, 0)) := by decide

theorem witness_PeekReadSource :
    (let s := readerReady (repeating 32 8 0 0) 0 0;
      s.cfgf = false ∧ s.busy = true ∧ s.params.legal ∧ s.reader = some (repeating 32 8 0 0)
        ∧ (repeating 32 8 0 0).ok s.params ∧ s.port = .idle
        ∧ outcome (exec (.rdRead 64 false) s) = some (.ok, 0xA5A5A5A5A5A5A5A5))
    ∧ (readerReady (repeating 32 8 0 0) 0 0).windowOf source
    ∧ (let s := answered (readerReady (repeating 32 0 0 0) 0 0) (.read 32 .blocking) (.bytes [0xA5]);
      s.cfgf = false ∧ s.busy = true ∧ s.params.legal ∧ s.reader = some (repeating 32 0 0 0) ∧ (repeating 32 0 0 0).ok s.params
        ∧ s.port = .answered (.read 32 .blocking) (.bytes [0xA5])
        ∧ ([0xA5] : List Byte).length ≤ (repeating 32 0 0 0).cap - (repeating 32 0 0 0).cache.length
        ∧ (∀ j, j < 1 → ([0xA5] : List Byte).getD j 0 = source ((repeating 32 0 0 0).srcPos + j))
        ∧ outcome (exec (.rdPeek 8 false) s) = some (.ok, 0xA5))
    ∧ (answered (readerReady (repeating 32 0 0 0) 0 0) (.read 32 .blocking) (.bytes [0xA5])).windowOf source :=
  ⟨by decide +kernel, repeating_window _ 32 8 0 0 rfl, by decide, repeating_window _ 32 0 0 0 rfl⟩

theorem witness_SeekReader :
    (let r := reader 5 [0x34, 0x56, 0x78, 0x9A, 0xBC] 4 4 6;
      let s := fun v => readerReady r v 0;
      (s 0).cfgf = false ∧ (s 0).reader = some r
        ∧ (r.abs : Int) + (s 0xFFFFFFFFFFFFFFD3).latchA.toInt = -1
        ∧ (48 : Int) = (r.abs : Int) + (s 4).latchA.toInt ∧ 8 * (r.srcPos - r.cache.length) ≤ 48 ∧ 48 ≤ 8 * r.srcPos
        ∧ (49 : Int) = (r.abs : Int) + (s 5).latchA.toInt ∧ 8 * r.srcPos < 49 ∧ 49 / 8 < 2 ^ 64
        ∧ (7 : Int) = (r.abs : Int) + (s 0xFFFFFFFFFFFFFFDB).latchA.toInt ∧ 7 < 8 * (r.srcPos - r.cache.length)
        ∧ (answered (s 5) (.seek 6) (.seek true)).port = .answered (.seek 6) (.seek true)
        ∧ (answered (s 5) (.seek 6) (.seek false)).port = .answered (.seek 6) (.seek false)) := by decide

theorem witness_AlignReader :
    (let r := fun b => reader 5 [0x34, 0x56, 0x78, 0x9A, 0xBC] 4 b 6;
      let s := fun b => readerReady (r b) 0 0;
      (s 0).cfgf = false ∧ (s 0).reader = some (r 0) ∧ (r 0).ok (s 0).params ∧ (r 0).bitIdx = 0
        ∧ (s 7).reader = some (r 7) ∧ (r 7).ok (s 7).params ∧ 1 ≤ (r 7).bitIdx ∧ (r 7).byteIdx < (r 7).cache.length
        ∧ (s 7).port = .idle) := by decide

theorem witness_CopyoutCached :
    (let r := reader 32 src8 0 4 8;
      let s := fun n d => readerReady r n d;
      (s 0 0).cfgf = false ∧ (s 0 0).reader = some r ∧ r.ok (s 0 0).params ∧ (s 0 0).latchA.toNat = 0
        ∧ 8 * (s 60 0x1C5).params.bufBytes < (s 60 0x1C5).latchB.toNat + (s 60 0x1C5).latchA.toNat
        ∧ (s 60 0x1C4).latchB.toNat + (s 60 0x1C4).latchA.toNat ≤ 8 * (s 60 0x1C4).params.bufBytes
        ∧ (s 60 0x1C4).latchA.toNat ≤ r.avail ∧ (s 60 0x1C4).port = .idle) := by decide

theorem witness_CopyoutSource :
    (let r := repeating 32 8 0 0;
      let s := readerReady r 65 0;
      s.cfgf = false ∧ s.params.legal ∧ s.busy = true ∧ s.reader = some r ∧ r.ok s.params ∧ 1 ≤ s.latchA.toNat
        ∧ s.latchB.toNat + s.latchA.toNat ≤ 8 * s.params.bufBytes ∧ s.copied < s.latchA.toNat ∧ s.copied % 64 = 0
        ∧ s.port = .idle ∧ s.copied = 0 ∧ asks (exec .rdCopyout s) = some (.read 24 .blocking))
    ∧ (readerReady (repeating 32 8 0 0) 65 0).windowOf source
    ∧ (let r := repeating 32 8 8 0;
      let s := { answered (readerReady r 65 0) (.read 24 .blocking) (.bytes [0xA5]) with copied := 64 };
      s.cfgf = false ∧ s.params.legal ∧ s.busy = true ∧ s.reader = some r ∧ r.ok s.params ∧ 1 ≤ s.latchA.toNat
        ∧ s.latchB.toNat + s.latchA.toNat ≤ 8 * s.params.bufBytes ∧ s.copied < s.latchA.toNat ∧ s.copied % 64 = 0
        ∧ s.port = .answered (.read 24 .blocking) (.bytes [0xA5]) ∧ ([0xA5] : List Byte).length ≤ r.cap - r.cache.length
        ∧ (∀ j, j < 1 → ([0xA5] : List Byte).getD j 0 = source (r.srcPos + j))
        ∧ outcome (exec .rdCopyout s) = some (.ok, 65))
    ∧ State.windowOf source
        { answered (readerReady (repeating 32 8 8 0) 65 0) (.read 24 .blocking) (.bytes [0xA5]) with copied := 64 } :=
  ⟨by decide, repeating_window _ 32 8 0 0 rfl, by decide, repeating_window _ 32 8 8 0 rfl⟩

/-- RD.READ 8 waiting for its first byte; the answer comes next. -/
def waitingRead : State :=
  { turn 0x886 (readerReady (repeating 32 0 0 0) 0 0) [.answer 1 (.bytes [0xA5])] with
    port := .waiting (.read 32 .blocking), sent := [.read 32 .blocking] }

/-- `waitingRead` meets the invariant. -/
theorem waitingRead_inv : Inv waitingRead where
  params := by decide
  cfgf := rfl
  bufWf := rfl
  bufWithin := rfl
  beforeWf := rfl
  reader := fun r h => by cases h; decide
  port := ⟨rfl, ⟨.rdRead 8 false, by decide, rfl⟩, rfl, by decide⟩
  quiet := fun h => by cases h
  raced := fun _ h => by cases h
  noSink := by decide
  configOnly := fun h => by cases h

theorem witness_WindowKept :
    Inv waitingRead ∧ waitingRead.windowOf source ∧ waitingRead.answersFrom source
      ∧ outcome (step waitingRead) = some (.ok, 0xA5) :=
  ⟨waitingRead_inv, repeating_window _ 32 0 0 0 rfl,
    fun _ _ j hj => by have hj : j < 1 := hj; interval_cases j; rfl, by decide⟩

theorem witness_InvariantKept : Inv waitingRead ∧ outcome (step waitingRead) = some (.ok, 0xA5) :=
  ⟨waitingRead_inv, by decide⟩

theorem witness_InvariantAtReset :
    Params.legal lsParams ∧ Memory.wf bufBF = true ∧ Memory.within lsParams.bufBytes bufBF = true := by decide

theorem witness_ConfigurationFault :
    (let s := fun t => turn 0xFF { State.resetWith { Params.vectors with sysBitOrder := none } [] with busy := true } t;
      (s []).cfgf = true ∧ (s []).busy = true ∧ (s []).port = .idle ∧ (s []).raced = [] ∧ (s []).inputs = [] ∧ (s [.run]).inputs = .run :: []) := by
  decide

theorem witness_IllegalCommand :
    (let s := fun t => turn 0x09 (ready0 [] 0 0 0) t;
      (s []).cfgf = false ∧ (s []).busy = true ∧ (s []).port = .idle ∧ (s []).raced = [] ∧ (s []).inputs = []
        ∧ decode (s []).cmd = .error .undefinedOp ∧ (s []).reader = none ∧ (s [.run]).inputs = .run :: [])
    ∧ isReaderCommand .rdCopyout = true ∧ (∀ ord own, Instr.rdCopyout ≠ .rdOpen ord own) ∧ Instr.rdCopyout ≠ .rdClose
    ∧ (readerReady (reader 4 [] 0 0 0) 0 0).reader.isSome = true := by decide

theorem witness_CommandEndsOrWaits :
    (readerReady (reader 32 [] 0 0 0) 0 0).busy = true ∧ (readerReady (reader 32 [] 0 0 0) 0 0).port = .idle
      ∧ asks (exec (.rdRead 1 false) (readerReady (reader 32 [] 0 0 0) 0 0)) = some (.read 32 .blocking)
      ∧ outcome (exec .rdAvail (readerReady (reader 32 [] 0 0 0) 0 0)) = some (.ok, 0) := by decide

theorem witness_FaultChangesNothingElse :
    (ready0 [] 0x100 0 0).busy = true
      ∧ context (exec .popcB (ready0 [] 0x100 0 0)) = some (.range, 0, 0x100, 0xFF)
      ∧ context (exec .popcB (ready0 [] 0xFF 0 0)) = some (.ok, 0, 0, 0) := by decide

theorem witness_HostRegistersKept : outcome (exec (.rdbitsM 7) (ready0 bufBF 0 3 0)) = some (.ok, 0x51) := by decide

theorem witness_FamilyFrames :
    writesBuf (.rdbitsM 7) = false ∧ hasResult (.setbit 0) = false ∧ isReaderCommand (.setbit 0) = false
      ∧ outcome (exec (.rdbitsM 7) (ready0 bufBF 0 3 0)) = some (.ok, 0x51)
      ∧ outcome (exec (.setbit 0) (ready0 bufBF 0 3 0)) = some (.ok, 0) := by decide

theorem witness_ByteOrderIrrelevant : outcome (exec (.rdint 3 false false) (ready0 bufINT 0 0 0)) = some (.ok, 0x563412) := by
  decide

theorem witness_OperandsLatched :
    outcome (exec .rdAvail (readerReady (reader 32 [] 0 0 0) 0 0)) = some (.ok, 0) ∧ usesOpa .rdAvail = false
      ∧ usesOpb .rdAvail = false ∧ usesOpc .rdAvail = false := by decide

theorem witness_UntouchedBytes :
    (let s := turn 0x820 (ready0 bufBF 0 8 0) [];
      s.cfgf = false ∧ s.busy = true ∧ decode s.cmd = .ok (.rdbitsM 8) ∧ s.uses 0 = false ∧ s.uses 1 = true
        ∧ outcome (exec (.rdbitsM 8) s) = some (.ok, 0x5A))
    ∧ (let s := turn 0x24 (ready0 bufBF 8 8 0) [];
      s.cfgf = false ∧ s.busy = true ∧ decode s.cmd = .ok .copybM ∧ s.uses 1 = true
        ∧ outcome (exec .copybM s) = some (.ok, 0) ∧ s.wrote (stateAfter (exec .copybM s)) 0 = true
        ∧ s.wrote (stateAfter (exec .copybM s)) 1 = false) := by decide

theorem witness_RegisterReads :
    Params.vectors.legal ∧ (readerReady (reader 5 src8 4 4 8) 0 0).reader = some (reader 5 src8 4 4 8)
      ∧ (reader 8 src8 8 0 8).ok Params.vectors ∧ (8 : Nat) < 2 ^ 64 ∧ State.reset.reader = none ∧ (15 : Nat) < 16 := by decide

theorem witness_HostAccesses :
    (let s := fun a => turn 0x820 (ready0 bufBF 0 8 0) [.host a];
      (s (.readReg 15)).inputs = .host (.readReg 15) :: []
        ∧ (s (.readReg 15)).readReg 15 = some 0 ∧ (15 : Nat) < 16
        ∧ (s (.readByte 0)).uses 0 = false ∧ (0 : Nat) < (s (.readByte 0)).params.bufBytes
        ∧ (s (.readByte 63)).uses 63 = false ∧ (63 : Nat) < (s (.readByte 63)).params.bufBytes
        ∧ (s (.readByte 64)).params.bufBytes ≤ 64) := by decide

theorem witness_Handshake :
    (let s := fun b t => { turn 0 State.reset t with busy := b };
      (s false [.host (.writeReg 0 0x81)]).busy = false ∧ (s false [.host (.writeReg 0 0x81)]).held = []
        ∧ (s true [.host (.writeReg 0 0x81)]).busy = true
        ∧ ({ s false [.run] with held := [0x81] }).held = 0x81 :: [] ∧ (s false [.run]).inputs = .run :: []
        ∧ ({ s false [] with held := [0x81] }).held = 0x81 :: [] ∧ (s false []).inputs = []) := by decide

theorem witness_BufRaces :
    (let s := fun a => turn 0x131 (ready0 bufBF 0xAA 1 0) [.host a];
      (s (.readByte 1)).uses 1 = true ∧ (s (.readByte 1)).inputs = .host (.readByte 1) :: []
        ∧ (s (.writeByte 1 0xEE)).uses 1 = true ∧ (s (.writeByte 1 0xEE)).inputs = .host (.writeByte 1 0xEE) :: [])
    ∧ (let s := turn 0x131 (ready0 bufBF 0xAA 1 0) [];
      let t := stateAfter (exec (.wrint 1 false) s);
      outcome (exec (.wrint 1 false) s) = some (.ok, 0) ∧ t.busy = false ∧ t.raced = [] ∧ s.wrote t 1 = true
        ∧ s.wrote t 2 = false
        ∧ ({ t with raced := [.read 1, .write 1 0xEE true] } : State).raced = .read 1 :: [.write 1 0xEE true]
        ∧ ({ t with raced := [.write 1 0xEE true] } : State).raced = .write 1 0xEE true :: []) := by decide

theorem witness_WaitingStays :
    waitingRead.busy = true ∧ waitingRead.port = .waiting (.read 32 .blocking) ∧ waitingRead.sent.length ≠ 2
      ∧ (let s : State := { waitingRead with
            sent := [.read 32 .blocking, .position], inputs := [.answer 1 (.position none)] };
        s.busy = true ∧ s.port = .waiting (.read 32 .blocking) ∧ s.inputs = .answer 1 (.position none) :: []
          ∧ 1 ≠ s.sent.length) := by decide

theorem witness_ResetState :
    ({ waitingRead with inputs := [.reset [(0, 1)], .answer 1 (.bytes [0xA5])] } : State).inputs
      = .reset [(0, 1)] :: [.answer 1 (.bytes [0xA5])] := by decide

theorem witness_StopsOnlyOutside :
    step { waitingRead with inputs := [.answer 1 (.position none)] } = .fault .sourceContract
      ∧ step { State.reset with inputs := [.host (.readReg 16)] } = .refused (.noSuchRegister 16) :=
  ⟨rfl, rfl⟩

end Sys2Proof.Tests
end

section
/-! The host's accesses, the CMD handshake and the block's turn as steps of the machine. -/

namespace Sys2Proof.Machine

variable {s : State} {rest : List Input}

/-! ### The turn that a step takes (spec/70_reset_and_hazards.md R358) -/

theorem step_unscheduled (h : s.inputs = []) : step s = s.ownTurn := by
  simp only [step, State.takeTurn, h]

theorem step_run (h : s.inputs = .run :: rest) : step s = State.ownTurn { s with inputs := rest } := by
  simp only [step, State.takeTurn, h, State.popInput_eq h]

theorem step_answer {n : Nat} {a : SrcAnswer} (h : s.inputs = .answer n a :: rest) :
    step s = State.answerTurn { s with inputs := rest } n a := by
  simp only [step, State.takeTurn, h, State.popInput_eq h]

theorem step_host {a : HostAccess} (h : s.inputs = .host a :: rest) :
    step s = State.hostTurn { s with inputs := rest } a := by
  simp only [step, State.takeTurn, h, State.popInput_eq h]

theorem step_reset {contents : List Host.Cell} (h : s.inputs = .reset contents :: rest) :
    step s = .next (State.resetTurn { s with inputs := rest } contents) := by
  simp only [step, State.takeTurn, h, State.popInput_eq h]

/-! ### What an access does when it is performed -/

theorem State.perform_readReg {k : Nat} {v : Word} (h : s.readReg k = some v) :
    s.perform (.readReg k) = .next { s with replies := .reg k v :: s.replies } := by
  simp only [State.perform, h]

theorem State.perform_readReg_none {k : Nat} (h : 15 < k) : s.perform (.readReg k) = .refused (.noSuchRegister k) := by
  simp only [State.perform, (s.readReg_eq_none k).2 h]

/-- A write of CMD is the acceptance of its low 32 bits (spec/10_state.md R23). -/
theorem State.perform_writeCmd (v : Word) : s.perform (.writeReg 0 v) = .next (s.accept (v.setWidth 32)) := rfl

theorem State.perform_writeReg {k : Nat} (h1 : 1 ≤ k) (h15 : k ≤ 15) (v : Word) :
    s.perform (.writeReg k v) = .next (s.writeReg k v) :=
  (if_neg (by omega)).trans (if_neg (by omega))

theorem State.perform_writeReg_none {k : Nat} (h : 15 < k) (v : Word) :
    s.perform (.writeReg k v) = .refused (.noSuchRegister k) :=
  if_pos h

/-- The registers that the host only reads ignore a write (spec/10_state.md R22). -/
theorem State.writeReg_readOnly {k : Nat} (h : k = 1 ∨ 5 ≤ k) (v : Word) : s.writeReg k v = s := by
  unfold State.writeReg
  split
  case h_4 => rfl
  all_goals omega

theorem State.perform_readByte {x : Nat} (h : x < s.params.bufBytes) :
    s.perform (.readByte x) = .next { s with replies := .byte x (s.buf.read x) :: s.replies } :=
  if_pos h

theorem State.perform_writeByte {x : Nat} (h : x < s.params.bufBytes) (b : Byte) :
    s.perform (.writeByte x b) = .next (s.withBuf (s.buf.write x b)) :=
  if_pos h

theorem State.perform_readByte_outside {x : Nat} (h : s.params.bufBytes ≤ x) :
    s.perform (.readByte x) = .refused (.outsideBuf x) :=
  if_neg (by omega)

theorem State.perform_writeByte_outside {x : Nat} (h : s.params.bufBytes ≤ x) (b : Byte) :
    s.perform (.writeByte x b) = .refused (.outsideBuf x) :=
  if_neg (by omega)

/-! ### The bytes that the running command uses -/

/-- While BUSY = 0 no byte of BUF is in use. -/
theorem State.uses_of_not_busy (hb : s.busy = false) (x : Nat) : s.uses x = false := by
  simp [State.uses, hb]

/-- No command uses a byte outside BUF. -/
theorem State.uses_eq_false_of_le {x : Nat} (h : s.params.bufBytes ≤ x) : s.uses x = false :=
  Bool.eq_false_iff.2 fun hu => by
    have := State.lt_of_uses hu
    omega

/-- A racing access goes to a byte of BUF, one that the running command uses. -/
theorem State.races_iff {a : HostAccess} : s.races a = true ↔ ∃ x, a.bufAddr = some x ∧ s.uses x = true := by
  unfold State.races
  cases a.bufAddr <;> simp

/-! ### The host's turn -/

theorem step_readReg {k : Nat} (h : s.inputs = .host (.readReg k) :: rest) :
    step s = State.perform { s with inputs := rest } (.readReg k) :=
  step_host_now h (by simp) rfl

theorem step_writeReg {k : Nat} {v : Word} (h : s.inputs = .host (.writeReg k v) :: rest) (hk : 1 ≤ k) :
    step s = State.perform { s with inputs := rest } (.writeReg k v) :=
  step_host_now h (fun w e => by injection e with e; omega) rfl

/-- A write of a register other than CMD takes effect, or is ignored, at once (spec/10_state.md R22, R25 to R27). -/
theorem step_writeReg_next {k : Nat} {v : Word} (h : s.inputs = .host (.writeReg k v) :: rest) (h1 : 1 ≤ k)
    (h15 : k ≤ 15) : step s = .next (State.writeReg { s with inputs := rest } k v) := by
  rw [step_writeReg h h1, State.perform_writeReg h1 h15]

theorem step_readByte {x : Nat} (h : s.inputs = .host (.readByte x) :: rest) (hu : s.uses x = false) :
    step s = State.perform { s with inputs := rest } (.readByte x) :=
  step_host_now h (by simp) hu

theorem step_writeByte {x : Nat} {b : Byte} (h : s.inputs = .host (.writeByte x b) :: rest) (hu : s.uses x = false) :
    step s = State.perform { s with inputs := rest } (.writeByte x b) :=
  step_host_now h (by simp) hu

/-- A write of CMD is accepted while BUSY = 0 and no command word is held (spec/70_reset_and_hazards.md R350). -/
theorem State.hostTurn_accepts (hb : s.busy = false) (hh : s.held = []) (v : Word) :
    s.hostTurn (.writeReg 0 v) = .next (s.accept (v.setWidth 32)) := by
  rw [State.hostTurn, if_neg (by simp [hb, hh]), State.perform_writeCmd]

/-- A write of CMD is held while BUSY = 1 and behind a held command word (spec/70_reset_and_hazards.md R350). -/
theorem State.hostTurn_holds (h : s.busy = true ∨ s.held ≠ []) (v : Word) :
    s.hostTurn (.writeReg 0 v) = .next (s.hold (v.setWidth 32)) := by
  rw [State.hostTurn, if_pos (by simpa using h)]

/-! ### The block's turn -/

/-- What a command leaves, from the answer it gives. -/
theorem leaves_of_exec {i : Instr} {t : State} (h : exec i s = .next t) : Leaves i s t := by
  obtain ⟨u, e, hu⟩ := exec_leaves i s
  rw [e] at h
  injection h with h
  exact h ▸ hu

/-- What a step of a command can change: STATUS, RES, the fault context, BUF, the reader and the source port
(spec/10_state.md R22). -/
theorem Leaves.frame {i : Instr} {t : State} (h : Leaves i s t) :
    t = { s with
      busy := t.busy, fcode := t.fcode, res := t.res, foff := t.foff, fcnt := t.fcnt, favail := t.favail, buf := t.buf
      reader := t.reader, port := t.port, copied := t.copied, sent := t.sent } := by
  cases h <;> rfl

theorem State.commandStep_decoded {i : Instr} (hc : s.cfgf = false) (hi : decode s.cmd = .ok i) :
    s.commandStep = exec i s := by
  unfold State.commandStep
  rw [hc, hi]
  rfl

theorem State.runCommand_decoded {i : Instr} (hc : s.cfgf = false) (hi : decode s.cmd = .ok i) :
    s.runCommand = s.finish (exec i s) := by
  rw [State.runCommand, State.commandStep_decoded hc hi]

/-- The block's turn at an accepted command (spec/70_reset_and_hazards.md R351). -/
theorem State.ownTurn_decoded {i : Instr} (hb : s.busy = true) (hp : s.port = .idle) (hc : s.cfgf = false)
    (hi : decode s.cmd = .ok i) : s.ownTurn = s.finish (exec i s) := by
  unfold State.ownTurn State.blockTurn
  rw [if_pos hb, hp]
  exact State.runCommand_decoded hc hi

/-- The turn that consumes the answer to the outstanding request (spec/70_reset_and_hazards.md R358). -/
theorem State.answerTurn_consumes {req : SrcRequest} {a : SrcAnswer} (hp : s.port = .waiting req)
    (ha : req.allows a = true) :
    s.answerTurn s.sent.length a = State.runCommand { s with port := .answered req a } := by
  unfold State.answerTurn
  rw [hp]
  dsimp only
  rw [if_neg (by simp), if_pos ha]

/-- The block's turn while nothing runs takes the first held command word (spec/70_reset_and_hazards.md R350). -/
theorem State.ownTurn_accepts {w : CmdWord} {later : List CmdWord} (hb : s.busy = false) (hh : s.held = w :: later) :
    s.ownTurn = .next (State.accept { s with held := later } w) := by
  unfold State.ownTurn
  rw [hb, hh]
  rfl

/-- A command word of 32 bits is loaded as it is. -/
theorem State.withFetchWord_eq (w : CmdWord) : s.withFetchWord 32 w.toNat = s.loadCommand w := by
  rw [State.withFetchWord, Nat.mod_eq_of_lt w.isLt, BitVec.ofNat_toNat, BitVec.setWidth_eq]

end Sys2Proof.Machine

namespace Sys2Proof.Proofs

open Sys2Proof.Machine

/-- Settles O49, from what a step of a command can change. -/
theorem hostRegistersKept : Obligations.HostRegistersKept := by
  unfold Obligations.HostRegistersKept
  intro s t i h
  rw [(leaves_of_exec h).frame]
  exact ⟨rfl, rfl, rfl, rfl, rfl, rfl, rfl, rfl, rfl, rfl, rfl, rfl, rfl, rfl, rfl⟩

/-- Settles O55, access by access. -/
theorem hostAccesses : Obligations.HostAccesses := by
  unfold Obligations.HostAccesses
  intro s rest v k x b
  have unused : s.busy = false ∨ s.uses x = false → s.uses x = false := fun h =>
    h.elim (fun hb => State.uses_of_not_busy hb x) id
  refine ⟨fun h y hy => ?_, fun h hk => ?_, fun h => ?_, fun h => ?_, fun h => ?_, fun h hk => ?_, fun h hk => ?_,
    fun h hu hx => ?_, fun h hu hx => ?_, fun h hx => ?_, fun h hx => ?_⟩
  · rw [step_readReg h]
    exact State.perform_readReg (s := { s with inputs := rest }) hy
  · rw [step_readReg h, State.perform_readReg_none hk]
  · exact step_writeReg_next h (by omega) (by omega)
  · exact step_writeReg_next h (by omega) (by omega)
  · exact step_writeReg_next h (by omega) (by omega)
  · rw [step_writeReg_next h (by omega) (by omega), State.writeReg_readOnly (by omega)]
  · rw [step_writeReg h (by omega), State.perform_writeReg_none hk]
  · rw [step_readByte h (unused hu)]
    exact State.perform_readByte hx
  · refine ⟨s.buf.write x b, fun a => Memory.read_write s.buf x a b, ?_⟩
    rw [step_writeByte h (unused hu)]
    exact State.perform_writeByte (s := { s with inputs := rest }) hx b
  · rw [step_readByte h (State.uses_eq_false_of_le hx)]
    exact State.perform_readByte_outside hx
  · rw [step_writeByte h (State.uses_eq_false_of_le hx)]
    exact State.perform_writeByte_outside (s := { s with inputs := rest }) hx b

/-- Settles O7, turn by turn. -/
theorem stepRunsDecoded : Obligations.StepRunsDecoded := by
  unfold Obligations.StepRunsDecoded
  refine ⟨fun s i rest h hb hp hc hi => ?_, fun s i h hb hp hc hi => ?_, fun s i rest req a h hp ha hc hi => ?_,
    fun s i w hc hi => ?_, fun s t i h hq => ?_⟩
  · rw [step_run h]
    exact State.ownTurn_decoded hb hp hc hi
  · rw [step_unscheduled h]
    exact State.ownTurn_decoded hb hp hc hi
  · rw [step_answer h]
    exact (State.answerTurn_consumes (s := { s with inputs := rest }) hp ha).trans (State.runCommand_decoded hc hi)
  · rw [State.withFetchWord_eq, step_run rfl]
    exact State.ownTurn_decoded (s := s.accept w) rfl rfl hc hi
  · have hraced : t.raced = s.raced := (congrArg State.raced (leaves_of_exec h).frame :)
    rw [h, State.finish]
    cases hb : t.busy
    · have hnone : s.raced = [] := hq.resolve_right (by simp [hb])
      exact congrArg Host.Outcome.next (State.settle_none _ (hraced.trans hnone))
    · rfl

/-- Settles O56: the host's turn at a write of CMD, and the block's turn at a held word. -/
theorem handshake : Obligations.Handshake := by
  unfold Obligations.Handshake
  refine fun s rest v => ⟨fun h hb hh => ?_, fun h hbh => ?_, fun w later hb hh => ⟨fun h => ?_, fun h => ?_⟩⟩
  · rw [step_host h]
    exact State.hostTurn_accepts (s := { s with inputs := rest }) hb hh v
  · rw [step_host h]
    exact State.hostTurn_holds (s := { s with inputs := rest }) hbh v
  · rw [step_run h]
    exact State.ownTurn_accepts (s := { s with inputs := rest }) hb hh
  · rw [step_unscheduled h]
    exact State.ownTurn_accepts hb hh

end Sys2Proof.Proofs
end

section
/-! The reader's derived quantities and its phases (spec/10_state.md R43, R44). -/

namespace Sys2Proof.Machine

theorem Reader.w0_add_clen {p : Params} {r : Reader} (h : r.ok p) : r.w0 + r.clen = r.srcPos := by
  obtain ⟨-, -, -, -, -, hpos⟩ := h
  unfold Reader.w0
  omega

/-- AVAIL where the cursor stands on a cached byte: the bits from the cursor to the end of the cache. -/
theorem Reader.avail_add_bitIdx {p : Params} {r : Reader} (h : r.ok p) (hb : r.byteIdx < r.clen) :
    r.avail + r.bitIdx = 8 * (r.clen - r.byteIdx) := by
  obtain ⟨hbit, -, -, -, -, -⟩ := h
  rw [Reader.avail, if_pos hb]
  omega

theorem Reader.phase_eq_empty_iff (r : Reader) : r.phase = .empty ↔ r.avail = 0 := by
  unfold Reader.phase
  split
  · simp [*]
  · split <;> simp [*]

theorem Reader.phase_eq_filled_iff (r : Reader) :
    r.phase = .filled ↔ 0 < r.avail ∧ r.byteIdx = 0 ∧ r.bitIdx = 0 := by
  unfold Reader.phase
  split
  · simp [*]
  · split <;> simp [*, Nat.pos_iff_ne_zero]

theorem Reader.phase_eq_partiallyConsumed_iff (r : Reader) :
    r.phase = .partiallyConsumed ↔ 0 < r.avail ∧ ¬(r.byteIdx = 0 ∧ r.bitIdx = 0) := by
  unfold Reader.phase
  split
  · simp [*]
  · split <;> simp [*, Nat.pos_iff_ne_zero]

end Sys2Proof.Machine

namespace Sys2Proof.Proofs

open Sys2Proof.Machine

/-- Settles O28: the derived quantities, the phases, recycling and an advance. -/
theorem readerArithmetic : Obligations.ReaderArithmetic := by
  unfold Obligations.ReaderArithmetic
  intro p r ok
  refine ⟨Reader.w0_add_clen ok, rfl, ?_, r.phase_eq_empty_iff, r.phase_eq_filled_iff,
    r.phase_eq_partiallyConsumed_iff,
    ⟨List.length_drop, rfl, rfl, rfl, rfl, Reader.abs_recycle ok, Reader.avail_recycle ok, fun j _ => List.getElem?_drop⟩,
    fun n => ⟨r.abs_advance n, Nat.mod_lt _ (by omega), rfl, rfl, rfl⟩⟩
  split
  next hb => exact Reader.avail_add_bitIdx ok hb
  next hb => exact if_neg hb

end Sys2Proof.Proofs
end

section
/-! What the host reads (spec/10_state.md R22 to R38): the fields of the registers that are laid out in fields. The simp calls
leave the sums of widths in a concatenation as they are (`-Nat.reduceAdd`), since the lemmas about `++` match on them. -/

namespace Sys2Proof.Machine

open BitVec

/-- STATUS, field by field (spec/10_state.md R24). -/
theorem statusWord_fields (s : State) :
    (statusWord s).getLsbD 0 = s.busy ∧ (statusWord s).getLsbD 1 = s.cfgf ∧ (statusWord s).extractLsb' 2 2 = 0
      ∧ (statusWord s).extractLsb' 4 4 = s.fcode.code ∧ (statusWord s).extractLsb' 8 56 = 0 := by
  unfold statusWord
  refine ⟨?_, ?_, ?_, ?_, ?_⟩ <;>
    simp [-getLsbD_eq_getElem, getLsbD_append, extractLsb'_append_eq_of_le, extractLsb'_append_eq_of_add_le, -Nat.reduceAdd]

/-- SYSORD, field by field (spec/10_state.md R30 to R32). -/
theorem sysordWord_fields (s : State) :
    (sysordWord s).extractLsb' 0 2 = BitOrder.code s.params.sysBitOrder
      ∧ (sysordWord s).extractLsb' 2 3 = ByteOrder.code s.params.sysByteOrder
      ∧ (sysordWord s).extractLsb' 5 3 = 0
      ∧ (sysordWord s).extractLsb' 8 8 = BitVec.ofNat 8 s.params.wordBytes.toNat
      ∧ (sysordWord s).getLsbD 16 = s.params.acceptIndex8
      ∧ (sysordWord s).extractLsb' 17 47 = 0 := by
  unfold sysordWord
  refine ⟨?_, ?_, ?_, ?_, ?_, ?_⟩ <;>
    simp [-getLsbD_eq_getElem, getLsbD_append, extractLsb'_append_eq_of_le, extractLsb'_append_eq_of_add_le, -Nat.reduceAdd]

/-- RDCTL with a reader, field by field (spec/10_state.md R35). -/
theorem rdctlWord_fields {s : State} {r : Reader} (h : s.reader = some r) :
    (rdctlWord s).getLsbD 0 = true ∧ (rdctlWord s).getLsbD 1 = r.own
      ∧ (rdctlWord s).extractLsb' 2 2 = BitOrder.code (some r.order) ∧ (rdctlWord s).extractLsb' 4 60 = 0 := by
  simp only [rdctlWord, h]
  refine ⟨?_, ?_, ?_, ?_⟩ <;>
    simp [-getLsbD_eq_getElem, getLsbD_append, extractLsb'_append_eq_of_le, extractLsb'_append_eq_of_add_le, -Nat.reduceAdd]

/-- RDCUR with a reader, field by field (spec/10_state.md R36). -/
theorem rdcurWord_fields {s : State} {r : Reader} (h : s.reader = some r) :
    (rdcurWord s).extractLsb' 0 3 = BitVec.ofNat 3 r.bitIdx ∧ (rdcurWord s).extractLsb' 3 29 = 0
      ∧ (rdcurWord s).extractLsb' 32 32 = BitVec.ofNat 32 r.byteIdx := by
  simp only [rdcurWord, h]
  refine ⟨?_, ?_, ?_⟩ <;>
    simp [extractLsb'_append_eq_of_le, extractLsb'_append_eq_of_add_le, -Nat.reduceAdd]

/-- RDWIN with a reader, field by field (spec/10_state.md R37). -/
theorem rdwinWord_fields {s : State} {r : Reader} (h : s.reader = some r) :
    (rdwinWord s).extractLsb' 0 32 = BitVec.ofNat 32 r.clen
      ∧ (rdwinWord s).extractLsb' 32 32 = BitVec.ofNat 32 r.cap := by
  simp only [rdwinWord, h]
  exact ⟨extractLsb'_append_eq_right, extractLsb'_append_eq_left⟩

/-- RDSRC with a reader whose SRC_POS fits (spec/10_state.md R38). -/
theorem rdsrcWord_of_lt {s : State} {r : Reader} (h : s.reader = some r) (hq : r.srcPos < 2 ^ 64) :
    rdsrcWord s = BitVec.ofNat 64 r.srcPos := by
  simp only [rdsrcWord, h, if_pos hq]

/-- A number below 2^w is what a w-bit field holds of it. -/
theorem toNat_ofNat_of_lt {w n : Nat} (h : n < 2 ^ w) : (BitVec.ofNat w n).toNat = n := by
  rw [toNat_ofNat, Nat.mod_eq_of_lt h]

end Sys2Proof.Machine

namespace Sys2Proof.Proofs

open Sys2Proof.Machine

/-- Settles O54, register by register. -/
theorem registerReads : Obligations.RegisterReads := by
  unfold Obligations.RegisterReads
  intro s
  refine ⟨⟨_, rfl, rfl⟩, ⟨_, rfl, ?_⟩, rfl, rfl, rfl, rfl, rfl, rfl, rfl, ⟨_, rfl, ?_⟩, fun hp => ?_, fun hn => ?_,
    fun r hr hp ok => ?_, fun k => (s.readReg_eq_none k).2⟩
  · obtain ⟨hbusy, hcfgf, hlow, hfcode, hhigh⟩ := statusWord_fields s
    refine ⟨hbusy, hcfgf, hlow, hfcode.trans ?_, hhigh⟩
    cases s.fcode <;> rfl
  · obtain ⟨hbit, hbyte, hlow, hword, hidx, hhigh⟩ := sysordWord_fields s
    refine ⟨hbit.trans ?_, hbyte.trans ?_, hlow, hword.trans ?_, hidx, hhigh⟩
    · rcases s.params.sysBitOrder with _ | _ | _ <;> rfl
    · rcases s.params.sysByteOrder with _ | _ | _ | _ | _ <;> rfl
    · cases s.params.wordBytes <;> rfl
  · obtain ⟨-, hbuf, -, hcache⟩ := hp
    exact ⟨⟨_, rfl, toNat_ofNat_of_lt (by omega)⟩, ⟨_, rfl, toNat_ofNat_of_lt (by omega)⟩⟩
  · simp [State.readReg, rdctlWord, rdcurWord, rdwinWord, rdsrcWord, hn]
  · obtain ⟨-, -, -, hcache⟩ := hp
    obtain ⟨hbit, hbyte, hlen, hcap, -, -⟩ := ok
    obtain ⟨hopen, hown, hord, hctl⟩ := rdctlWord_fields hr
    obtain ⟨hcurBit, hcurGap, hcurByte⟩ := rdcurWord_fields hr
    obtain ⟨hwinLen, hwinCap⟩ := rdwinWord_fields hr
    refine ⟨⟨_, rfl, hopen, hown, hord.trans ?_, hctl⟩, ⟨_, rfl, ?_, hcurGap, ?_⟩, ⟨_, rfl, ?_, ?_⟩,
      fun hq => ⟨_, rfl, ?_⟩⟩
    · cases r.order <;> rfl
    · rw [hcurBit, toNat_ofNat_of_lt (by omega)]
    · rw [hcurByte, toNat_ofNat_of_lt (by omega)]
    · rw [hwinLen, toNat_ofNat_of_lt (by omega), Reader.clen]
    · rw [hwinCap, toNat_ofNat_of_lt (by omega)]
    · rw [rdsrcWord_of_lt hr hq, toNat_ofNat_of_lt hq]

end Sys2Proof.Proofs
end

section
/-! Every step keeps `Inv`, turn by turn (spec/70_reset_and_hazards.md R358): the host's accesses, the block's step with and
without an answer, and reset. -/

namespace Sys2Proof.Machine

/-! ### What the invariant does not speak of, and what the host changes -/

/-- The operand registers, the held command words, the turns to come, the replies and the draw counter are free. -/
theorem Inv.withHostSide {s : State} (h : Inv s) (opa opb opc : Word) (held : List CmdWord) (inputs : List Input)
    (replies : List HostReply) (draws : Nat) :
    Inv { s with
      opa := opa, opb := opb, opc := opc, held := held, inputs := inputs, replies := replies, draws := draws } :=
  ⟨h.params, h.cfgf, h.bufWf, h.bufWithin, h.beforeWf, h.reader, h.port, h.quiet, h.raced, h.noSink, h.configOnly⟩

theorem Inv.withBuf {s : State} {m : Memory} (h : Inv s) (hwf : m.wf = true) (hin : m.within s.params.bufBytes = true) :
    Inv (s.withBuf m) :=
  ⟨h.params, h.cfgf, hwf, hin, h.beforeWf, h.reader, h.port, h.quiet, h.raced, h.noSink, h.configOnly⟩

theorem Inv.withBefore {s : State} {m : Memory} (h : Inv s) (hwf : m.wf = true) : Inv { s with before := m } :=
  ⟨h.params, h.cfgf, h.bufWf, h.bufWithin, hwf, h.reader, h.port, h.quiet, h.raced, h.noSink, h.configOnly⟩

/-- An access to a byte in use may be left to the end of the command (spec/20_memory.md R81). -/
theorem Inv.defer {s : State} {d : RacedAccess} (h : Inv s) (hd : s.uses d.addr = true) : Inv (s.defer d) := by
  refine ⟨h.params, h.cfgf, h.bufWf, h.bufWithin, h.beforeWf, h.reader, h.port, h.quiet, fun a ha => ?_, h.noSink,
    h.configOnly⟩
  rcases List.mem_append.1 ha with ha | ha
  · exact h.raced a ha
  · obtain rfl := List.mem_singleton.1 ha
    exact hd

/-- While BUSY = 0 no access is left to the end of a command. -/
theorem Inv.raced_of_not_busy {s : State} (h : Inv s) (hb : s.busy = false) : s.raced = [] :=
  List.eq_nil_iff_forall_not_mem.2 fun a ha => by
    have := h.raced a ha
    rw [State.uses_of_not_busy hb] at this
    cases this

/-- The acceptance of a command word while BUSY = 0 (spec/70_reset_and_hazards.md R350 to R352). -/
theorem Inv.accept {s : State} (h : Inv s) (hb : s.busy = false) (w : CmdWord) : Inv (s.accept w) where
  params := h.params
  cfgf := h.cfgf
  bufWf := h.bufWf
  bufWithin := h.bufWithin
  beforeWf := h.bufWf
  reader := h.reader
  port := trivial
  quiet := fun hq => by cases hq
  raced := fun a ha => by
    have ha : a ∈ s.raced := ha
    rw [h.raced_of_not_busy hb] at ha
    cases ha
  noSink := h.noSink
  configOnly := h.configOnly

/-- An access that is performed; a write of CMD only while BUSY = 0. -/
theorem Inv.perform {s t : State} {a : HostAccess} (h : Inv s) (hc : ∀ v, a = .writeReg 0 v → s.busy = false)
    (e : s.perform a = .next t) : Inv t := by
  rcases State.perform_cases e with ⟨v, ha, rfl⟩ | ⟨k, v, -, -, -, rfl⟩ | ⟨k, v, -, -, rfl⟩ | ⟨x, b, -, hx, rfl⟩
    | ⟨x, -, -, rfl⟩
  · exact h.accept (hc v ha) _
  · unfold State.writeReg
    split
    · exact h.withHostSide ..
    · exact h.withHostSide ..
    · exact h.withHostSide ..
    · exact h
  · exact h.withHostSide ..
  · exact h.withBuf (Memory.wf_write h.bufWf _ _) (Memory.within_write h.bufWithin hx _)
  · exact h.withHostSide ..

/-- A racing access, whatever its outcome (spec/20_memory.md R81). -/
theorem Inv.race {s t : State} {a : HostAccess} {o : RaceOutcome} (h : Inv s) (hr : s.races a = true)
    (e : s.race o a = .next t) : Inv t := by
  obtain ⟨x, hx, hu⟩ := State.races_iff.1 hr
  rcases State.race_cases e with ⟨y, -, rfl⟩ | ⟨d, hd, rfl⟩ | ⟨m, hm, e⟩
  · exact h.withHostSide ..
  · exact h.defer (by rw [hd x hx]; exact hu)
  · exact (h.withBefore (hm h.beforeWf)).perform (fun v ha => by rw [ha] at hx; cases hx) e

/-- The host's turn: the access is held, races or is performed (spec/70_reset_and_hazards.md R350 to R354). -/
theorem Inv.hostTurn {s t : State} {a : HostAccess} (h : Inv s) (e : s.hostTurn a = .next t) : Inv t := by
  unfold State.hostTurn at e
  split at e
  next v =>
    split at e
    next => injection e with e; subst e; exact h.withHostSide ..
    next hb =>
      simp only [Bool.or_eq_true, not_or, Bool.not_eq_true] at hb
      exact h.perform (fun _ _ => hb.1) e
  next hc =>
    split at e
    next hr => exact Inv.race (h.withHostSide s.opa s.opb s.opc s.held s.inputs s.replies (s.draws + 1)) hr e
    next => exact h.perform (fun v ha => absurd ha (hc v)) e

/-! ### The step of the running command -/

/-- What is on the port when the running command of `s` makes its step: nothing, or its request with an answer within the
contract (spec/20_memory.md R71, spec/70_reset_and_hazards.md R358). -/
inductive State.RunsWith (s : State) : Port → Prop
  | start : s.RunsWith .idle
  | answer {req : SrcRequest} {a : SrcAnswer} (hp : s.port = .waiting req) (ha : req.allows a = true) :
    s.RunsWith (.answered req a)

/-- What the invariant says of an outstanding request (spec/20_memory.md R71, spec/43_reader.md R235). -/
theorem Inv.waiting {s : State} {req : SrcRequest} (h : Inv s) (hw : s.port = .waiting req) :
    s.busy = true ∧ (∃ i, decode s.cmd = .ok i ∧ awaits i req = true)
      ∧ ∀ n mode, req = .read n mode → n ≤ s.freeSpace := by
  have hport := h.port
  unfold State.portOk at hport
  rw [hw] at hport
  obtain ⟨hb, hi, hfree⟩ := hport
  refine ⟨hb, hi, fun n mode hq => ?_⟩
  subst hq
  exact hfree.2

/-- No answer stays on the port. -/
theorem Inv.not_answered {s : State} {req : SrcRequest} {a : SrcAnswer} (h : Inv s) : s.port ≠ .answered req a :=
  fun hp => by
    have hport := h.port
    rw [State.portOk, hp] at hport
    exact hport

/-- An answer within the contract of the one request fits into the cache (spec/43_reader.md R235). -/
theorem Inv.answerFits {s : State} {p : Port} (h : Inv s) (hp : s.RunsWith p) :
    State.answerFits { s with port := p } := by
  intro n mode bs hb r hr
  cases hp with
  | start => cases hb
  | answer hw ha =>
    cases hb
    obtain ⟨-, -, hfree⟩ := h.waiting hw
    have hlen : bs.length ≤ n := of_decide_eq_true ha
    have hspace : s.freeSpace = r.cap - r.clen := by
      have hr : s.reader = some r := hr
      simp only [State.freeSpace, hr]
    exact hspace ▸ hlen.trans (hfree n mode rfl)

/-- The running command goes on: with its own request and an answer within the contract on the port, it does not stay as it
is (spec/70_reset_and_hazards.md R358). -/
theorem Inv.awaited {s : State} {p : Port} {i : Instr} (h : Inv s) (hp : s.RunsWith p) (hi : decode s.cmd = .ok i) :
    p = .idle ∨ ∃ req a, p = .answered req a ∧ awaits i req = true ∧ req.allows a = true := by
  cases hp with
  | start => exact .inl rfl
  | @answer req a hw ha =>
    obtain ⟨-, ⟨j, hj, haw⟩, -⟩ := h.waiting hw
    rw [hi] at hj
    cases hj
    exact .inr ⟨req, a, rfl, haw, ha⟩

/-- The BUF ranges that a command names depend on its operands and, for RD.COPYOUT, on there being a reader; so the bytes that
a command uses stay in use while it waits. -/
theorem State.uses_asks {s : State} {i : Instr} {r : Option Reader} (hi : decode s.cmd = .ok i)
    (hr : i = .rdCopyout → r.isSome = true) (m : Memory) (d : Nat) (p : Port) (out : List SrcRequest) {x : Nat}
    (h : s.uses x = true) : State.uses { s with buf := m, reader := r, copied := d, port := p, sent := out } x = true := by
  have named : namedRanges i { s with buf := m, reader := r, copied := d, port := p, sent := out } = namedRanges i s
      ∨ namedRanges i s = [] := by
    cases i
    case rdCopyout =>
      cases hs : s.reader.isSome
      · exact .inr (by simp [namedRanges, hs])
      · exact .inl (by simp [namedRanges, hs, hr rfl, State.uA, State.uB])
    all_goals exact .inl rfl
  simp only [State.uses, hi, Bool.and_eq_true] at h ⊢
  obtain ⟨hbusy, hany⟩ := h
  refine ⟨hbusy, ?_⟩
  rcases named with e | e
  · unfold bufRanges at hany ⊢
    rw [e]
    exact hany
  · simp [bufRanges, e] at hany

/-- A fault that a command raises is not SinkWriteFault, and ConfigurationFault only with CFGF = 1
(spec/60_exceptions.md R301, R304). -/
theorem Inv.fault_of_mayRaise {s : State} {p : Port} {i : Instr} {f : FCode} (h : Inv s)
    (hf : MayRaise i { s with port := p } f) : f ≠ .sinkWrite ∧ (f = .configuration → s.cfgf = true) := by
  rcases hf with ⟨rfl, hc⟩ | rfl | ⟨rfl, -⟩ | ⟨rfl, -⟩
  · refine ⟨by simp, fun _ => hc.elim id fun ho => ?_⟩
    have ho : s.params.sysBitOrder = none := ho
    simp [h.cfgf, Params.orderUnknown, ho]
  · simp
  · simp
  · simp

/-- The end of a command, with the racing accesses left to it put aside. -/
theorem Inv.ended {s : State} {m : Memory} {r : Option Reader} {f : FCode} (h : Inv s) (hwf : m.wf = true)
    (hin : m.within s.params.bufBytes = true) (hr : ∀ c, r = some c → c.ok s.params)
    (hf : f ≠ .sinkWrite ∧ (f = .configuration → s.cfgf = true)) (res foff fcnt favail : Word) (out : List SrcRequest) :
    Inv { s with
      busy := false, fcode := f, port := .idle, copied := 0, buf := m, reader := r, res := res
      foff := foff, fcnt := fcnt, favail := favail, sent := out, raced := [] } :=
  ⟨h.params, h.cfgf, hwf, hin, h.beforeWf, hr, trivial, fun _ => ⟨rfl, rfl⟩, nofun, hf.1, hf.2⟩

/-- A fault with nothing else changed. -/
theorem Inv.raised {s : State} {f : FCode} (h : Inv s) (p : Port) (hf : f ≠ .sinkWrite ∧ (f = .configuration → s.cfgf = true))
    (res : Word) (a b c : Nat) :
    Inv { State.raise { s with port := p, res := res } f a b c with raced := [] } :=
  h.ended h.bufWf h.bufWithin h.reader hf ..

/-- The step of a decoded command in which it ends or sends its next request. -/
theorem Inv.of_leaves {s t : State} {p : Port} {i : Instr} (h : Inv s) (hb : s.busy = true) (hi : decode s.cmd = .ok i)
    (hp : s.RunsWith p) (hl : Leaves i { s with port := p } t) :
    if t.busy then Inv t else Inv { t with raced := [] } := by
  have reader : ∀ {r}, ReaderLeft i { s with port := p } r → ∀ c, r = some c → c.ok s.params := fun ⟨_, hr⟩ c hc =>
    (hr h.params h.reader (h.answerFits hp) c hc).1
  cases hl with
  | fault f a b c hf => exact h.raised p (h.fault_of_mayRaise hf) s.res a b c
  | short a b c v => exact h.raised p (by simp) v a b c
  | ends m v r out hm hr =>
    obtain ⟨-, hwf, hin⟩ := hm
    exact h.ended (hwf h.bufWf) (hin h.bufWithin) (reader hr) (by simp) ..
  | asks m r done req hm hr hrd ha hq =>
    dsimp only
    rw [if_pos hb]
    obtain ⟨-, hwf, hin⟩ := hm
    have opened : i = .rdCopyout → r.isSome = true := fun hc => by
      subst hc
      obtain ⟨-, -, -, copyout⟩ := awaits_blocking req
      obtain ⟨n, rfl⟩ := copyout.1 ha
      obtain ⟨c, rfl, -⟩ := hq n .blocking rfl
      rfl
    refine ⟨h.params, h.cfgf, hwf h.bufWf, hin h.bufWithin, h.beforeWf, reader hr, ⟨hb, ⟨i, hi, ha⟩, ?_⟩,
      fun hidle => ?_, fun a ha => State.uses_asks hi opened _ _ _ _ (h.raced a ha), h.noSink, h.configOnly⟩
    · split
      next n mode =>
        obtain ⟨c, rfl, hn⟩ := hq n mode rfl
        exact ⟨rfl, hn⟩
      next => trivial
    · rw [hb] at hidle
      cases hidle
  | stays hport _ hn =>
    rcases h.awaited hp hi with rfl | ⟨req, a, rfl, haw, hal⟩
    · exact absurd rfl hport
    · rw [hn req a rfl haw] at hal
      cases hal

/-- One step of the command in CMD, before the racing accesses are settled. -/
theorem Inv.commandStep {s t : State} {p : Port} (h : Inv s) (hb : s.busy = true) (hp : s.RunsWith p)
    (e : State.commandStep { s with port := p } = .next t) :
    (if t.busy then Inv t else Inv { t with raced := [] }) ∧ t.raced = s.raced ∧ t.params = s.params := by
  unfold State.commandStep at e
  split at e
  next hc =>
    injection e with e
    subst e
    exact ⟨h.raised p ⟨by simp, fun _ => hc⟩ s.res .., rfl, rfl⟩
  next =>
    split at e
    next =>
      injection e with e
      subst e
      exact ⟨h.raised p (by simp) s.res .., rfl, rfl⟩
    next i hi =>
      have hl := leaves_of_exec e
      exact ⟨h.of_leaves hb hi hp hl, (congrArg State.raced hl.frame :), (congrArg State.params hl.frame :)⟩

/-- The accesses left to the end of the command take their effect. -/
theorem Inv.settle {t : State} (h : Inv { t with raced := [] }) (hr : ∀ a ∈ t.raced, a.addr < t.params.bufBytes)
    (w : Nat → Bool) : Inv (t.settle w) := by
  obtain ⟨m, out, e, hwf, hin⟩ := t.settle_spec w
  rw [e]
  exact (h.withBuf (hwf h.bufWf) (hin hr h.bufWithin)).withHostSide _ _ _ _ _ out _

/-- The step of the running command, with what its ending settles (spec/20_memory.md R76, R81). -/
theorem Inv.runCommand {s t : State} {p : Port} (h : Inv s) (hb : s.busy = true) (hp : s.RunsWith p)
    (e : State.runCommand { s with port := p } = .next t) : Inv t := by
  obtain ⟨u, hu, hrun⟩ := State.runCommand_next { s with port := p }
  obtain ⟨hinv, hraced, hparams⟩ := h.commandStep hb hp hu
  rw [hrun] at e
  injection e with e
  subst e
  split at hinv
  next hbusy => rw [if_pos hbusy]; exact hinv
  next hbusy =>
    rw [if_neg hbusy]
    refine hinv.settle (fun a ha => ?_) _
    rw [hparams]
    exact State.lt_of_uses (h.raced a (hraced ▸ ha))

/-! ### The turns -/

/-- The block's turn, and the acceptance of a held command word. -/
theorem Inv.ownTurn {s t : State} (h : Inv s) (e : s.ownTurn = .next t) : Inv t := by
  unfold State.ownTurn at e
  split at e
  next hb =>
    unfold State.blockTurn at e
    split at e
    next => injection e with e; exact e ▸ h
    next hp =>
      refine h.runCommand hb .start ?_
      rw [← hp]
      exact e
    next hp => exact absurd hp h.not_answered
  next hb =>
    split at e
    next => injection e with e; exact e ▸ h
    next w rest _ =>
      injection e with e
      subst e
      exact (h.withHostSide s.opa s.opb s.opc rest s.inputs s.replies s.draws).accept (Bool.not_eq_true _ ▸ hb) w

/-- The turn of an answer: consumed by the running command, ignored, or outside its contract. -/
theorem Inv.answerTurn {s t : State} {n : Nat} {a : SrcAnswer} (h : Inv s) (e : s.answerTurn n a = .next t) : Inv t := by
  unfold State.answerTurn at e
  split at e
  next req hw =>
    split at e
    next => injection e with e; exact e ▸ h
    next =>
      split at e
      next ha =>
        obtain ⟨hb, -, -⟩ := h.waiting hw
        exact h.runCommand hb (.answer hw ha) e
      next => cases e
  next => injection e with e; exact e ▸ h
  next => injection e with e; exact e ▸ h

/-- The reset state of legal parameters, with any contents of BUF (spec/70_reset_and_hazards.md R341, R342). -/
theorem Inv.resetWith {p : Params} {m : Memory} (hp : p.legal) (hwf : m.wf = true) (hin : m.within p.bufBytes = true) :
    Inv (State.resetWith p m) :=
  ⟨hp, rfl, hwf, hin, hwf, nofun, trivial, fun _ => ⟨rfl, rfl⟩, nofun, nofun, nofun⟩

theorem Inv.resetTurn {s : State} (h : Inv s) (contents : List Host.Cell) : Inv (s.resetTurn contents) := by
  have hr := Inv.resetWith h.params (Memory.wf_ofCells s.params.bufBytes contents) (Memory.within_ofCells _ contents)
  exact ⟨hr.params, hr.cfgf, hr.bufWf, hr.bufWithin, hr.beforeWf, hr.reader, hr.port, hr.quiet, hr.raced, hr.noSink,
    hr.configOnly⟩

end Sys2Proof.Machine

namespace Sys2Proof.Proofs

open Sys2Proof.Machine

/-- Settles O43, by the turn that the step takes. -/
theorem invariantKept : Obligations.InvariantKept := by
  unfold Obligations.InvariantKept
  intro s t h e
  cases hin : s.inputs with
  | nil =>
    rw [step_unscheduled hin] at e
    exact h.ownTurn e
  | cons x rest =>
    have hpop : Inv { s with inputs := rest } := h.withHostSide s.opa s.opb s.opc s.held rest s.replies s.draws
    cases x with
    | run =>
      rw [step_run hin] at e
      exact hpop.ownTurn e
    | host a =>
      rw [step_host hin] at e
      exact hpop.hostTurn e
    | answer n a =>
      rw [step_answer hin] at e
      exact hpop.answerTurn e
    | reset contents =>
      rw [step_reset hin] at e
      injection e with e
      subst e
      exact hpop.resetTurn contents

end Sys2Proof.Proofs
end

section
/-! Bits and fields of BUF (spec/20_memory.md R64 to R66): what the position map, the field operations and a byte-aligned field
of whole bytes give. -/

namespace Sys2Proof.Machine

/-- A byte-aligned field of whole bytes is, under MostSignificant, their big-endian number (spec/20_memory.md R66). -/
theorem readField_most_aligned (f : Nat → Byte) (a k : Nat) :
    readField .mostSignificant f (8 * a) (8 * k) = assemble (fun i => f (intAddr true a k i)) k := by
  refine Nat.eq_of_testBit_eq fun j => ?_
  rw [readField_most_testBit, assemble_testBit]
  by_cases hj : j < 8 * k
  · have hbyte : (8 * a + (8 * k - 1 - j)) / 8 = a + k - 1 - j / 8 := by omega
    have hbit : 7 - (8 * a + (8 * k - 1 - j)) % 8 = j % 8 := by omega
    simp only [bitGet, BitOrder.phys, intAddr, if_true, hbyte, hbit]
  · simp [hj]

/-- A byte-aligned field of whole bytes is, under LeastSignificant, their little-endian number (spec/20_memory.md R66). -/
theorem readField_least_aligned (f : Nat → Byte) (a k : Nat) :
    readField .leastSignificant f (8 * a) (8 * k) = assemble (fun i => f (intAddr false a k i)) k := by
  refine Nat.eq_of_testBit_eq fun j => ?_
  have hbyte : (8 * a + j) / 8 = a + j / 8 := by omega
  have hbit : (8 * a + j) % 8 = j % 8 := by omega
  rw [readField_least_testBit, assemble_testBit, bitGet, hbyte, hbit]
  rfl

/-- RDBITS of a field inside BUF, the empty field included (spec/41_bitfield.md R167, R168). -/
theorem exec_rdbits_inside {s : State} {n : BitVec 7} (hc : s.cfgf = false) (hn : n.toNat ≤ 64)
    (hb : s.latchB.toNat + n.toNat ≤ 8 * s.params.bufBytes) :
    exec (.rdbitsM n) s = .next (s.completeWith
        (BitVec.ofNat 64 (readField .mostSignificant s.buf.read s.latchB.toNat n.toNat)))
      ∧ exec (.rdbitsL n) s = .next (s.completeWith
        (BitVec.ofNat 64 (readField .leastSignificant s.buf.read s.latchB.toNat n.toNat))) := by
  have field : ∀ o, s.unlessConfigFault (s.readBits o n.toNat)
      = s.completeWith (BitVec.ofNat 64 (readField o s.buf.read s.latchB.toNat n.toNat)) := fun o => by
    rw [State.unlessConfigFault_off hc]
    rcases s.readBits_cases o n.toNat with ⟨h, -⟩ | ⟨h0, e⟩ | ⟨-, -, -, e⟩
    · omega
    · rw [e, h0]
      rfl
    · exact e
  exact ⟨congrArg Host.Outcome.next (field _), congrArg Host.Outcome.next (field _)⟩

/-- RDINT without sign, of bytes inside BUF, the size 0 included (spec/42_integer.md R201). -/
theorem exec_rdint_inside {s : State} {n : BitVec 7} (r : Bool) (hc : s.cfgf = false) (hn : n.toNat ≤ 8)
    (hb : s.latchB.toNat + n.toNat ≤ s.params.bufBytes) :
    exec (.rdint n r false) s = .next (s.completeWith
      (BitVec.ofNat 64 (assemble (fun i => s.buf.read (intAddr r s.latchB.toNat n.toNat i)) n.toNat))) := by
  refine congrArg Host.Outcome.next ((State.unlessConfigFault_off hc).trans ?_)
  rcases s.intCommand_cases n.toNat (s.completeWith 0) (s.completeWith (extendInt false n.toNat
    (assemble (fun i => s.bufByte (intAddr r s.uB n.toNat i)) n.toNat))) with ⟨h, -⟩ | ⟨h0, e⟩ | ⟨-, -, -, e⟩
  · omega
  · rw [e, h0]
    rfl
  · exact e

end Sys2Proof.Machine

namespace Sys2Proof.Proofs

open Sys2Proof.Machine

/-- Settles O13: the maps are their definitions, and a bit that is put is a run of one bit. -/
theorem positionMap : Obligations.PositionMap := by
  unfold Obligations.PositionMap
  exact ⟨fun _ _ => ⟨rfl, rfl⟩, fun o m p v => bitsReplaced_bitPut o p v m, rfl, rfl⟩

/-- Settles O14: reading by the bits of readField, writing as a run of bits put. -/
theorem fieldPrimitives : Obligations.FieldPrimitives := by
  unfold Obligations.FieldPrimitives
  refine fun o p n hn => ⟨fun M => ⟨readField_lt o M p n, fieldValue_readField o M p hn⟩, fun m v => ?_⟩
  have written := bitsReplaced_putBits o p n (fieldBit o n v) m
  cases o with
  | mostSignificant => exact written
  | leastSignificant => exact written

/-- Settles O25: both readers of the bytes give the same number. -/
theorem alignedFieldsAreIntegers : Obligations.AlignedFieldsAreIntegers := by
  unfold Obligations.AlignedFieldsAreIntegers
  intro s k a hc hk hb ha
  have hbits : (BitVec.ofNat 7 (8 * k)).toNat = 8 * k := toNat_ofNat_of_lt (by omega)
  have hsize : (BitVec.ofNat 7 k).toNat = k := toNat_ofNat_of_lt (by omega)
  have hpos : (BitVec.ofNat 64 (8 * a)).toNat = 8 * a := toNat_ofNat_of_lt ha
  have haddr : (BitVec.ofNat 64 a).toNat = a := toNat_ofNat_of_lt (by omega)
  obtain ⟨most, least⟩ := exec_rdbits_inside (s := { s with latchB := BitVec.ofNat 64 (8 * a) })
    (n := BitVec.ofNat 7 (8 * k)) hc (by omega) (by dsimp only; omega)
  have int := fun r => exec_rdint_inside (s := { s with latchB := BitVec.ofNat 64 a }) (n := BitVec.ofNat 7 k) r hc
    (by omega) (by dsimp only; omega)
  refine ⟨_, _, _, _, most, int true, least, int false, rfl, rfl, ?_, rfl, rfl, ?_⟩
  · simp only [State.completeWith_res, hbits, hsize, hpos, haddr, readField_most_aligned]
  · simp only [State.completeWith_res, hbits, hsize, hpos, haddr, readField_least_aligned]

end Sys2Proof.Proofs
end

section
/-! What a step of a command can leave of BUF, RES, the reader and the source port (spec/20_memory.md R60, R81,
spec/30_encoding.md R98). -/

namespace Sys2Proof.Machine

variable {i : Instr} {s t : State}

/-! ### Families of commands -/

/-- Only the writing commands change BUF (spec/20_memory.md R60). -/
theorem Leaves.buf_of_not_writesBuf (h : Leaves i s t) (hw : writesBuf i = false) : t.buf = s.buf := by
  cases h with
  | fault => rfl
  | short => rfl
  | ends m v r out hm => exact hm.1 hw
  | asks m r done req hm => exact hm.1 hw
  | stays => rfl

/-- Only the commands with a result change RES (spec/30_encoding.md R98). -/
theorem Leaves.res_of_not_hasResult (h : Leaves i s t) (hn : hasResult i = false) : t.res = s.res := by
  cases h with
  | fault => rfl
  | short a b c v hi => subst hi; cases hn
  | ends m v r out hm hr hv => exact hv hn
  | asks => rfl
  | stays => rfl

/-- A command that is no reader command leaves the reader and the source port, and ends (spec/60_exceptions.md R307). -/
theorem Leaves.ended_of_not_reader (h : Leaves i s t) (hn : isReaderCommand i = false) :
    t.reader = s.reader ∧ t.sent = s.sent ∧ t.busy = false := by
  cases h with
  | fault => exact ⟨rfl, rfl, rfl⟩
  | short a b c v hi => subst hi; cases hn
  | ends m v r out hm hr hv ho => exact ⟨hr.1 hn, ho hn, rfl⟩
  | asks m r done req hm hr hi => rw [hn] at hi; cases hi
  | stays hp hi => rw [hn] at hi; cases hi

/-! ### The bytes that an ended command has written -/

/-- The step in which a command ends with a fault leaves BUF (spec/60_exceptions.md R311). -/
theorem Leaves.buf_of_faulted (h : Leaves i s t) (hs : s.busy = true) (ht : t.busy = false) (hf : t.fcode ≠ .ok) :
    t.buf = s.buf := by
  cases h with
  | fault => rfl
  | short => rfl
  | ends => exact absurd rfl hf
  | asks => exact absurd (hs.symm.trans ht) (by simp)
  | stays => rfl

/-- COPYB leaves the bytes outside its destination (spec/41_bitfield.md R172, R173). -/
theorem State.read_copyBlock_outside (o : BitOrder) {x : Nat} (hx : Clear x s.uC s.uA) :
    (s.copyBlock o).buf.read x = s.buf.read x := by
  rcases s.copyBlock_cases o with ⟨-, e⟩ | ⟨-, -, e⟩ | ⟨-, -, -, e⟩ | ⟨hn, -, -, e⟩
  · rw [e]; rfl
  · rw [e]; rfl
  · rw [e]; rfl
  · rw [e]
    exact read_putBits_outside _ _ _ _ _ (hx.resolve_left (by unfold State.uA; omega))

theorem read_exec_copyb_outside {x : Nat} (hi : i = .copybM ∨ i = .copybL) (h : exec i s = .next t)
    (hx : Clear x s.uC s.uA) : t.buf.read x = s.buf.read x := by
  have either : ∀ o, (s.unlessConfigFault (s.copyBlock o)).buf.read x = s.buf.read x := fun o => by
    rcases s.unlessConfigFault_cases (s.copyBlock o) with ⟨-, e⟩ | ⟨-, e⟩
    · rw [e]; rfl
    · rw [e]; exact s.read_copyBlock_outside o hx
  rcases hi with rfl | rfl
  · injection h with h; subst h; exact either _
  · injection h with h; subst h; exact either _

/-- A state that still waits, or has raised a fault, or has ended with all n bits copied, which RES counts. -/
def CopiedAll (s t : State) : Prop := t.busy = s.busy ∨ t.fcode ≠ .ok ∨ t.res = BitVec.ofNat 64 s.uA

theorem CopiedAll.copyChunks {u : State} (chunks d : Nat) (r : Reader) (hb : u.busy = s.busy)
    (hr : u.reader.isSome = true) : CopiedAll s (State.copyChunks s.uA d chunks r u) := by
  obtain ⟨m, c, -, -, -, e | ⟨done, -, e⟩⟩ := State.copyChunks_shape s.uA d chunks r u hr
  · rw [e]; exact .inr (.inr rfl)
  · rw [e]; exact .inl hb

/-- RD.COPYOUT that ends OK has copied all its bits (spec/43_reader.md R249). -/
theorem copiedAll_of_exec (h : exec .rdCopyout s = .next t) : CopiedAll s t := by
  injection h with h
  subst h
  rcases s.unlessConfigFault_cases _ with ⟨-, e⟩ | ⟨-, e⟩
  · rw [e]; exact .inr (.inl (by simp [State.raiseConfiguration]))
  rw [e]
  cases hr : s.reader with
  | none => rw [State.ifOpen_none hr]; exact .inr (.inl (by simp [State.raiseIllegal]))
  | some r =>
    rw [State.ifOpen_some hr]
    split
    next h0 => rw [CopiedAll, h0]; exact .inr (.inr rfl)
    next =>
      rcases s.ifInBuf_cases _ s.uB s.uA with ⟨-, e⟩ | ⟨-, e⟩
      · rw [e]; exact .inr (.inl (by simp))
      rw [e]
      split
      next => exact .copyChunks _ _ _ rfl (by simp)
      next n bs hp =>
        split
        next => exact .inr (.inl (by simp))
        next =>
          rcases (r.absorb bs).topUp_cases (s.chunk s.uA) with ⟨e, -⟩ | ⟨e, -⟩
          · rw [e]; exact .copyChunks _ _ _ rfl rfl
          · rw [e]; exact .inl rfl
      next => exact .inl rfl

/-- A byte that the running command uses is in one of its ranges. -/
theorem State.uses_decoded {x : Nat} (hi : decode s.cmd = .ok i) (hu : s.uses x = true) :
    (bufRanges i s).any (inRange x) = true := by
  simp only [State.uses, hi, Bool.and_eq_true] at hu
  exact hu.2

theorem State.wrote_decoded {x : Nat} (hi : decode s.cmd = .ok i) :
    s.wrote t x = (writtenRanges i s t).any (inRange x) := by
  simp only [State.wrote, hi]

theorem namedRanges_of_bufRanges {f : Nat × Nat → Bool} (h : (bufRanges i s).any f = true) :
    (namedRanges i s).any f = true := by
  unfold bufRanges at h
  split at h
  next => exact h
  next => cases h

/-- A byte in use that an ended command is not taken to have written is as it was before its last step
(spec/20_memory.md R81). -/
theorem read_of_not_wrote {x : Nat} (hs : s.busy = true) (hi : decode s.cmd = .ok i) (h : exec i s = .next t)
    (hu : s.uses x = true) (ht : t.busy = false) (hw : s.wrote t x = false) : t.buf.read x = s.buf.read x := by
  have hl := leaves_of_exec h
  by_cases hf : t.fcode = .ok
  case neg => rw [hl.buf_of_faulted hs ht hf]
  have hany := State.uses_decoded hi hu
  rw [State.wrote_decoded hi] at hw
  cases i with
  | setbit | clrbit | tglbit | xchbit | wrbitsM | wrbitsL | wrint =>
    -- these have written all that they use
    simp only [writtenRanges, if_pos hf] at hw
    rw [hw] at hany
    cases hany
  | copybM | copybL =>
    simp only [writtenRanges, if_pos hf, List.any_cons, List.any_nil, Bool.or_false] at hw
    exact read_exec_copyb_outside (by simp) h (clear_of_inRange hw)
  | rdCopyout =>
    have hres : t.res = BitVec.ofNat 64 s.uA := by
      rcases copiedAll_of_exec h with hb | hb | hb
      · rw [hs, ht] at hb; cases hb
      · exact absurd hf hb
      · exact hb
    have hcount : t.res.toNat = s.uA := by rw [hres]; exact toNat_ofNat_of_lt s.latchA.isLt
    simp only [writtenRanges, hf, true_or, if_true, hcount, List.any_cons, List.any_nil, Bool.or_false] at hw
    have hany := namedRanges_of_bufRanges hany
    simp only [namedRanges] at hany
    split at hany
    next => simp [hw] at hany
    next => cases hany
  | _ => rw [hl.buf_of_not_writesBuf rfl]

end Sys2Proof.Machine

namespace Sys2Proof.Proofs

open Sys2Proof.Machine

/-- Settles O50, from what a step of a command can leave. -/
theorem familyFrames : Obligations.FamilyFrames := by
  unfold Obligations.FamilyFrames
  intro s t i h
  have hl := leaves_of_exec h
  exact ⟨fun hw a => by rw [hl.buf_of_not_writesBuf hw], hl.res_of_not_hasResult, hl.ended_of_not_reader⟩

/-- Settles O53: a byte that is not in use by comparing two runs, one in use by what the ended command has written. -/
theorem untouchedBytes : Obligations.UntouchedBytes := by
  unfold Obligations.UntouchedBytes
  intro s t i x b hc hs hi h
  have kept : s.uses x = false → t.buf.read x = s.buf.read x := fun hu => by
    have same : AwayMem x (s.buf.read x) s.buf s.buf := fun a => by split <;> simp [*]
    obtain ⟨u, hu', haway⟩ := exec_away same hc hs hi hu h
    obtain rfl : t = u := Host.Outcome.next.inj (h.symm.trans hu')
    exact (haway.2 x).trans (if_pos rfl)
  refine ⟨fun hu => ⟨kept hu, exec_away (.write_same s.buf) hc hs hi hu h⟩, fun ht hw => ?_⟩
  cases hu : s.uses x with
  | false => exact kept hu
  | true => exact read_of_not_wrote hs hi h hu ht hw

end Sys2Proof.Proofs
end

section
/-! The races of the host with the running command (spec/20_memory.md R76, R81), and where the model stops (spec/20_memory.md R62,
R71 to R74, spec/93_implementation_defined.md I12). -/

namespace Sys2Proof.Machine

variable {s t : State}

/-! ### A racing access -/

/-- A racing read gives the old byte, the byte as it stands, or is left to the end of the command (spec/20_memory.md R81). -/
theorem State.race_readByte (o : RaceOutcome) {x : Nat} (hx : x < s.params.bufBytes) :
    s.race o (.readByte x) = .next { s with replies := .byte x (s.before.read x) :: s.replies }
    ∨ s.torn x = false ∧ s.race o (.readByte x) = .next { s with replies := .byte x (s.buf.read x) :: s.replies }
    ∨ s.race o (.readByte x) = .next (s.defer (.read x)) := by
  cases o with
  | early => exact .inl rfl
  | now =>
    cases ht : s.torn x with
    | true => exact .inr (.inr (if_pos ht))
    | false => exact .inr (.inl ⟨rfl, (if_neg (by simp [ht])).trans (State.perform_readByte hx)⟩)
  | late => exact .inr (.inr rfl)

/-- A racing write is left to the end of the command, or acts at once, on the old byte too (spec/20_memory.md R81). -/
theorem State.race_writeByte (o : RaceOutcome) {x : Nat} (b : Byte) (hx : x < s.params.bufBytes) :
    (∃ yields, s.race o (.writeByte x b) = .next (s.defer (.write x b yields)))
    ∨ s.torn x = false ∧ s.race o (.writeByte x b)
        = .next { s with buf := s.buf.write x b, before := s.before.write x b } := by
  cases o with
  | early => exact .inl ⟨true, rfl⟩
  | now =>
    cases ht : s.torn x with
    | true => exact .inl ⟨false, if_pos ht⟩
    | false =>
      exact .inr ⟨rfl, (if_neg (by simp [ht])).trans
        (State.perform_writeByte (s := { s with before := s.before.write x b }) hx b)⟩
  | late => exact .inl ⟨false, rfl⟩

/-! ### The accesses left to the end of the command -/

theorem State.finish_ended (hb : t.busy = false) : s.finish (.next t) = .next (t.settle (s.wrote t)) := by
  simp only [State.finish, hb, Bool.false_eq_true, if_false]

/-- The first access left to the end of the command takes its effect before the others. -/
theorem State.finish_cons {a : RacedAccess} {later : List RacedAccess} {u : State} (hb : t.busy = false)
    (h : t.raced = a :: later)
    (hu : { State.settleOne (s.wrote t) { t with raced := [] } a with raced := later } = u)
    (hub : u.busy = false) (hw : s.wrote u = s.wrote t) : s.finish (.next t) = s.finish (.next u) := by
  rw [State.finish_ended hb, State.finish_ended hub, hw, State.settle_cons _ h, hu]

/-! ### Where the model stops -/

/-- An access that is performed is refused only outside the registers and BUF (spec/93_implementation_defined.md I12). -/
def RefusedAccess (s : State) (a : HostAccess) (r : Refusal) : Prop :=
  (∃ k v, a = .writeReg k v ∧ 15 < k ∧ r = .noSuchRegister k)
  ∨ (∃ k, a = .readReg k ∧ 15 < k ∧ r = .noSuchRegister k)
  ∨ (∃ x b, a = .writeByte x b ∧ s.params.bufBytes ≤ x ∧ r = .outsideBuf x)
  ∨ ∃ x, a = .readByte x ∧ s.params.bufBytes ≤ x ∧ r = .outsideBuf x

/-- The outcome is a next state, or a refusal that the access earns. -/
def NextOrRefused (s : State) (a : HostAccess) (o : Result) : Prop :=
  (∃ t, o = .next t) ∨ ∃ r, o = .refused r ∧ RefusedAccess s a r

theorem State.perform_stops (a : HostAccess) : NextOrRefused s a (s.perform a) := by
  cases a with
  | writeReg k v =>
    rcases Nat.lt_or_ge 15 k with hk | hk
    · exact .inr ⟨_, State.perform_writeReg_none hk v, .inl ⟨k, v, rfl, hk, rfl⟩⟩
    · rcases Nat.eq_zero_or_pos k with rfl | h1
      · exact .inl ⟨_, State.perform_writeCmd v⟩
      · exact .inl ⟨_, State.perform_writeReg h1 hk v⟩
  | readReg k =>
    cases hv : s.readReg k with
    | none =>
      have hk := (s.readReg_eq_none k).1 hv
      exact .inr ⟨_, State.perform_readReg_none hk, .inr (.inl ⟨k, rfl, hk, rfl⟩)⟩
    | some v => exact .inl ⟨_, State.perform_readReg hv⟩
  | writeByte x b =>
    rcases Nat.lt_or_ge x s.params.bufBytes with hx | hx
    · exact .inl ⟨_, State.perform_writeByte hx b⟩
    · exact .inr ⟨_, State.perform_writeByte_outside hx b, .inr (.inr (.inl ⟨x, b, rfl, hx, rfl⟩))⟩
  | readByte x =>
    rcases Nat.lt_or_ge x s.params.bufBytes with hx | hx
    · exact .inl ⟨_, State.perform_readByte hx⟩
    · exact .inr ⟨_, State.perform_readByte_outside hx, .inr (.inr (.inr ⟨x, rfl, hx, rfl⟩))⟩

/-- A racing access goes to a byte inside BUF, so it is never refused. -/
theorem State.race_next (o : RaceOutcome) {a : HostAccess} (hr : s.races a = true) : ∃ t, s.race o a = .next t := by
  obtain ⟨x, hx, hu⟩ := State.races_iff.1 hr
  have hx' := State.lt_of_uses hu
  cases a with
  | readByte y =>
    cases hx
    rcases State.race_readByte o hx' with e | ⟨-, e⟩ | e
    · exact ⟨_, e⟩
    · exact ⟨_, e⟩
    · exact ⟨_, e⟩
  | writeByte y b =>
    cases hx
    rcases State.race_writeByte o b hx' with ⟨_, e⟩ | ⟨-, e⟩
    · exact ⟨_, e⟩
    · exact ⟨_, e⟩
  | writeReg k v => cases hx
  | readReg k => cases hx

theorem State.hostTurn_stops (a : HostAccess) : NextOrRefused s a (s.hostTurn a) := by
  unfold State.hostTurn
  split
  next v =>
    split
    next => exact .inl ⟨_, rfl⟩
    next => exact State.perform_stops _
  next =>
    split
    next hr => exact .inl (State.race_next (s := { s with draws := s.draws + 1 }) _ hr)
    next => exact State.perform_stops a

/-- A command never stops the machine (spec/60_exceptions.md R307). -/
theorem State.runCommand_answers (s : State) : ∃ t, s.runCommand = .next t := by
  obtain ⟨t, -, e⟩ := s.runCommand_next
  exact ⟨_, e⟩

theorem State.ownTurn_next (s : State) : ∃ t, s.ownTurn = .next t := by
  unfold State.ownTurn
  split
  next =>
    unfold State.blockTurn
    split
    next => exact ⟨_, rfl⟩
    next => exact s.runCommand_answers
    next => exact s.runCommand_answers
  next =>
    split
    next => exact ⟨_, rfl⟩
    next => exact ⟨_, rfl⟩

/-- An answer stops the machine only with a fault, and only outside the contract of the outstanding request. -/
theorem State.answerTurn_stops (s : State) (n : Nat) (a : SrcAnswer) :
    (∃ t, s.answerTurn n a = .next t)
    ∨ ∃ req, s.port = .waiting req ∧ n = s.sent.length ∧ req.allows a = false
      ∧ s.answerTurn n a = .fault .sourceContract := by
  unfold State.answerTurn
  split
  next req hp =>
    split
    next => exact .inl ⟨_, rfl⟩
    next hn =>
      split
      next => exact .inl (State.runCommand_answers _)
      next ha => exact .inr ⟨req, hp, not_not.1 hn, Bool.eq_false_iff.2 ha, rfl⟩
  next => exact .inl ⟨_, rfl⟩
  next => exact .inl ⟨_, rfl⟩

/-- Everything that a step can answer: a next state, a fault on an answer outside its contract, or the refusal of a host
access. -/
theorem step_stops (s : State) :
    (∃ t, step s = .next t)
    ∨ (∃ req a rest, s.inputs = .answer s.sent.length a :: rest ∧ s.port = .waiting req ∧ req.allows a = false
        ∧ step s = .fault .sourceContract)
    ∨ ∃ a rest r, s.inputs = .host a :: rest ∧ RefusedAccess s a r ∧ step s = .refused r := by
  cases hin : s.inputs with
  | nil => rw [step_unscheduled hin]; exact .inl s.ownTurn_next
  | cons x rest =>
    cases x with
    | run => rw [step_run hin]; exact .inl (State.ownTurn_next _)
    | reset contents => rw [step_reset hin]; exact .inl ⟨_, rfl⟩
    | host a =>
      rw [step_host hin]
      rcases State.hostTurn_stops (s := { s with inputs := rest }) a with ⟨t, e⟩ | ⟨r, e, hr⟩
      · exact .inl ⟨t, e⟩
      · exact .inr (.inr ⟨a, rest, r, rfl, hr, e⟩)
    | answer n a =>
      rw [step_answer hin]
      rcases State.answerTurn_stops { s with inputs := rest } n a with ⟨t, e⟩ | ⟨req, hp, hn, ha, e⟩
      · exact .inl ⟨t, e⟩
      · subst hn
        exact .inr (.inl ⟨req, a, rest, rfl, hp, ha, e⟩)

end Sys2Proof.Machine

namespace Sys2Proof.Proofs

open Sys2Proof.Machine

/-- Settles O57: the host's turn at a byte in use, and the first of the accesses left to the end of the command. -/
theorem bufRaces : Obligations.BufRaces := by
  unfold Obligations.BufRaces
  refine ⟨fun s rest x b hu => ⟨fun h => ?_, fun h => ?_⟩, fun s t hb => ⟨fun hr => ?_, fun x later => ⟨fun hr => ?_,
    fun b yields hr => ⟨fun hy => ?_, fun hy => ?_⟩⟩⟩⟩
  · rw [step_host_race h hu]
    exact State.race_readByte (s := { s with inputs := rest, draws := s.draws + 1 }) _ (State.lt_of_uses hu)
  · rw [step_host_race h hu]
    rcases State.race_writeByte (s := { s with inputs := rest, draws := s.draws + 1 }) (Config.raceOutcome s.draws) b
      (State.lt_of_uses hu) with e | ⟨ht, e⟩
    · exact .inl e
    · exact .inr ⟨ht, _, _, fun a => Memory.read_write s.buf x a b, fun a => Memory.read_write s.before x a b, e⟩
  · rw [State.finish_ended hb, State.settle_none _ hr]
  · exact State.finish_cons hb hr rfl hb rfl
  · exact State.finish_cons hb hr (by simp only [State.settleOne, hy, Bool.and_self, if_true]) hb rfl
  · have hact : (yields && s.wrote t x) = false := by rcases hy with hy | hy <;> simp [hy]
    exact ⟨t.buf.write x b, fun a => Memory.read_write t.buf x a b,
      State.finish_cons hb hr (by simp only [State.settleOne, hact, Bool.false_eq_true, if_false]; rfl) hb rfl⟩

/-- Settles O60, from everything that a step can answer. -/
theorem stopsOnlyOutside : Obligations.StopsOnlyOutside := by
  unfold Obligations.StopsOnlyOutside
  refine ⟨fun s f h => ?_, fun s r h => ?_⟩
  · rcases step_stops s with ⟨t, e⟩ | ⟨req, a, rest, hin, hp, ha, -⟩ | ⟨a, rest, q, -, -, e⟩
    · cases h.symm.trans e
    · exact ⟨req, a, rest, hin, hp, ha⟩
    · cases h.symm.trans e
  · rcases step_stops s with ⟨t, e⟩ | ⟨req, a, rest, -, -, -, e⟩ | ⟨a, rest, q, hin, hq, e⟩
    · cases h.symm.trans e
    · cases h.symm.trans e
    · cases h.symm.trans e
      exact ⟨a, rest, hin, hq⟩

end Sys2Proof.Proofs
end

section
/-! Commands and their words: the fields of a word, the opcode map, and its match and mask rows
(spec/30_encoding.md R90 to R103). -/

namespace Sys2Proof

/-! ### The fields of a word (spec/30_encoding.md R91) -/

/-- Each bit of a word is the bit of the field that stands there. -/
theorem Fields.getLsbD_toWord (f : Fields) (k : Nat) : f.toWord.getLsbD k =
    if k < 8 then f.op.getLsbD k else if k < 15 then f.cnt.getLsbD (k - 8) else if k < 16 then f.rev
    else if k < 17 then f.sgn else if k < 19 then f.ord.getLsbD (k - 17) else if k < 20 then f.own
    else f.reserved.getLsbD (k - 20) := by
  simp only [Fields.toWord, BitVec.getLsbD_append, BitVec.getLsbD_ofBool]
  grind

@[simp] theorem Fields.ofWord_toWord (f : Fields) : Fields.ofWord f.toWord = f := by
  have hop : f.toWord.extractLsb' 0 8 = f.op := by
    ext k hk; rw [BitVec.getElem_extractLsb', Fields.getLsbD_toWord]; grind
  have hcnt : f.toWord.extractLsb' 8 7 = f.cnt := by
    ext k hk; rw [BitVec.getElem_extractLsb', Fields.getLsbD_toWord]; grind
  have hord : f.toWord.extractLsb' 17 2 = f.ord := by
    ext k hk; rw [BitVec.getElem_extractLsb', Fields.getLsbD_toWord]; grind
  have hres : f.toWord.extractLsb' 20 12 = f.reserved := by
    ext k hk; rw [BitVec.getElem_extractLsb', Fields.getLsbD_toWord]; grind
  simp only [Fields.ofWord, hop, hcnt, hord, hres, Fields.getLsbD_toWord]
  rfl

@[simp] theorem Fields.toWord_ofWord (w : CmdWord) : (Fields.ofWord w).toWord = w := by
  refine BitVec.eq_of_getLsbD_eq fun k hk => ?_
  simp only [Fields.getLsbD_toWord, Fields.ofWord, BitVec.getLsbD_extractLsb']
  grind

/-- The rule of R103, for every word: its fields shifted to their places. -/
theorem Fields.toWord_eq_or (f : Fields) : f.toWord =
    f.op.setWidth 32 ||| f.cnt.setWidth 32 <<< 8 ||| (BitVec.ofBool f.rev).setWidth 32 <<< 15
      ||| (BitVec.ofBool f.sgn).setWidth 32 <<< 16 ||| f.ord.setWidth 32 <<< 17
      ||| (BitVec.ofBool f.own).setWidth 32 <<< 19 ||| f.reserved.setWidth 32 <<< 20 := by
  refine BitVec.eq_of_getLsbD_eq fun k hk => ?_
  simp only [Fields.getLsbD_toWord, BitVec.getLsbD_or, BitVec.getLsbD_shiftLeft, BitVec.getLsbD_setWidth,
    BitVec.getLsbD_ofBool]
  grind

theorem Fields.ofWord_inj {v w : CmdWord} : Fields.ofWord v = Fields.ofWord w ↔ v = w :=
  (Function.LeftInverse.injective Fields.toWord_ofWord).eq_iff

theorem Fields.ofWord_and (w m : CmdWord) : Fields.ofWord (w &&& m) =
    { op := (Fields.ofWord w).op &&& (Fields.ofWord m).op, cnt := (Fields.ofWord w).cnt &&& (Fields.ofWord m).cnt
      rev := (Fields.ofWord w).rev && (Fields.ofWord m).rev, sgn := (Fields.ofWord w).sgn && (Fields.ofWord m).sgn
      ord := (Fields.ofWord w).ord &&& (Fields.ofWord m).ord, own := (Fields.ofWord w).own && (Fields.ofWord m).own
      reserved := (Fields.ofWord w).reserved &&& (Fields.ofWord m).reserved } := by
  simp [Fields.ofWord, BitVec.extractLsb'_and]

/-- A row's match value is its OP number, with every other field 0. -/
theorem Fields.ofWord_opcode (op : BitVec 8) : Fields.ofWord (op.setWidth 32) =
    { op := op, cnt := 0, rev := false, sgn := false, ord := 0, own := false, reserved := 0 } := by
  revert op; decide

/-! ### The formats (spec/30_encoding.md R92, R99) -/

theorem Fields.eq_of_onlyOp {f : Fields} (h : f.onlyOp = true) :
    f = { op := f.op, cnt := 0, rev := false, sgn := false, ord := 0, own := false, reserved := 0 } := by
  obtain ⟨op, cnt, rev, sgn, ord, own, reserved⟩ := f
  simp_all [Fields.onlyOp]

theorem Fields.eq_of_onlyCnt {f : Fields} (h : f.onlyCnt = true) :
    f = { f with rev := false, sgn := false, ord := 0, own := false, reserved := 0 } := by
  obtain ⟨op, cnt, rev, sgn, ord, own, reserved⟩ := f
  simp_all [Fields.onlyCnt]

theorem Fields.eq_of_onlyCntRev {f : Fields} (h : f.onlyCntRev = true) :
    f = { f with sgn := false, ord := 0, own := false, reserved := 0 } := by
  obtain ⟨op, cnt, rev, sgn, ord, own, reserved⟩ := f
  simp_all [Fields.onlyCntRev]

theorem Fields.eq_of_onlyCntRevSgn {f : Fields} (h : f.onlyCntRevSgn = true) :
    f = { f with ord := 0, own := false, reserved := 0 } := by
  obtain ⟨op, cnt, rev, sgn, ord, own, reserved⟩ := f
  simp_all [Fields.onlyCntRevSgn]

theorem Fields.eq_of_onlyOrdOwn {f : Fields} (h : f.onlyOrdOwn = true) :
    f = { f with cnt := 0, rev := false, sgn := false, reserved := 0 } := by
  obtain ⟨op, cnt, rev, sgn, ord, own, reserved⟩ := f
  simp_all [Fields.onlyOrdOwn]

/-! ### The opcode map (spec/30_encoding.md R99, R100) -/

theorem Instr.ifClean_eq_ok {i j : Instr} {clean : Bool} : i.ifClean clean = .ok j ↔ clean = true ∧ i = j := by
  cases clean <;> simp [Instr.ifClean]

theorem Fields.decodeOpen_eq_ok {f : Fields} {j : Instr} :
    f.decodeOpen = .ok j ↔ f.onlyOrdOwn = true ∧ f.ord ≠ 3 ∧ .rdOpen f.ord f.own = j := by
  unfold Fields.decodeOpen
  cases f.onlyOrdOwn with
  | false => simp
  | true => by_cases h : f.ord = 3#2 <;> simp [h]

/-- The decoder reads a well-formed command back from its fields. -/
theorem Fields.decode_fields {i : Instr} (h : i.wellFormed = true) : i.fields.decode = .ok i := by
  cases i with
  | rdOpen ord own => exact Fields.decodeOpen_eq_ok.2 ⟨rfl, bne_iff_ne.1 h, rfl⟩
  | _ => rfl

/-- A branch of the opcode map other than RD.OPEN's: if the fields that the format of `i` does not use are 0, the fields
are those of the command that the branch answers. -/
theorem Fields.fields_of_ifClean {f : Fields} {i j : Instr} {clean : Bool} (h : i.ifClean clean = .ok j)
    (hop : f.op.toNat = i.opcode.toNat) (hwf : i.wellFormed = true)
    (hf : clean = true → f = { i.fields with op := f.op }) : j.wellFormed = true ∧ j.fields = f := by
  obtain ⟨hclean, rfl⟩ := Instr.ifClean_eq_ok.1 h
  rw [hf hclean, BitVec.eq_of_toNat_eq hop]
  exact ⟨hwf, rfl⟩

/-- Fields that decode are those of a well-formed command. -/
theorem Fields.fields_of_decode {f : Fields} {i : Instr} (h : f.decode = .ok i) :
    i.wellFormed = true ∧ i.fields = f := by
  unfold Fields.decode at h
  split at h
  -- the branches by format: CRS, CR, C, OW, a reserved OP; the others are of format Z
  case h_21 hop => exact Fields.fields_of_ifClean h hop rfl Fields.eq_of_onlyCntRevSgn
  case h_22 hop | h_32 hop | h_33 hop => exact Fields.fields_of_ifClean h hop rfl Fields.eq_of_onlyCntRev
  case h_10 hop | h_11 hop | h_12 hop | h_13 hop | h_14 hop | h_15 hop | h_16 hop | h_17 hop | h_18 hop =>
    exact Fields.fields_of_ifClean h hop rfl Fields.eq_of_onlyCnt
  case h_27 hop =>
    obtain ⟨hclean, hord, rfl⟩ := Fields.decodeOpen_eq_ok.1 h
    have hop : f.op = 0x80 := BitVec.eq_of_toNat_eq hop
    rw [Fields.eq_of_onlyOrdOwn hclean, hop]
    exact ⟨bne_iff_ne.2 hord, rfl⟩
  case h_37 => cases h
  all_goals next hop => exact Fields.fields_of_ifClean h hop rfl Fields.eq_of_onlyOp

/-- Decoding undoes encoding, and only what encoding gives decodes (spec/30_encoding.md R90, R92). -/
theorem decode_eq_ok_iff {w : CmdWord} {i : Instr} : decode w = .ok i ↔ i.wellFormed = true ∧ encode i = w := by
  constructor
  · intro h
    obtain ⟨hwf, hf⟩ := Fields.fields_of_decode h
    exact ⟨hwf, by rw [encode, hf, Fields.toWord_ofWord]⟩
  · rintro ⟨hwf, rfl⟩
    rw [decode, encode, Fields.ofWord_toWord, Fields.decode_fields hwf]

/-! ### The match and mask rows (spec/30_encoding.md R99) -/

/-- A masked word is a match value exactly when its fields, masked field by field, are that OP number and else 0. -/
theorem Fields.and_eq_opcode_iff {w m : CmdWord} {op : BitVec 8} (hm : (Fields.ofWord m).op = 0xFF) :
    w &&& m = op.setWidth 32 ↔ (Fields.ofWord w).op = op ∧ (Fields.ofWord (w &&& m)).onlyOp = true := by
  rw [← Fields.ofWord_inj, Fields.ofWord_opcode]
  have hop : (Fields.ofWord (w &&& m)).op = (Fields.ofWord w).op := by
    rw [Fields.ofWord_and, hm]
    exact BitVec.and_allOnes
  constructor
  · intro h
    rw [← hop, h]
    exact ⟨rfl, rfl⟩
  · rintro ⟨rfl, h⟩
    rw [Fields.eq_of_onlyOp h, hop]

/-- A row matches a word exactly when the word has its OP number and the bits that the mask keeps outside OP are 0. -/
theorem Fields.mem_rows_iff {w m : CmdWord} {rows : List CmdWord} {ops : List (BitVec 8)}
    (hm : (Fields.ofWord m).op = 0xFF) (hrows : rows = ops.map (·.setWidth 32)) :
    w &&& m ∈ rows ↔ (Fields.ofWord w).op ∈ ops ∧ (Fields.ofWord (w &&& m)).onlyOp = true := by
  rw [hrows, List.mem_map]
  constructor
  · rintro ⟨op, hmem, h⟩
    obtain ⟨rfl, hclean⟩ := (Fields.and_eq_opcode_iff hm).1 h.symm
    exact ⟨hmem, hclean⟩
  · rintro ⟨hmem, hclean⟩
    exact ⟨_, hmem, ((Fields.and_eq_opcode_iff hm).2 ⟨rfl, hclean⟩).symm⟩

/-- The mask of format Z keeps the whole word. -/
theorem Fields.mem_wholeRows_iff {w : CmdWord} {rows : List CmdWord} {ops : List (BitVec 8)}
    (hrows : rows = ops.map (·.setWidth 32)) :
    w ∈ rows ↔ (Fields.ofWord w).op ∈ ops ∧ (Fields.ofWord w).onlyOp = true := by
  have hall : w &&& .allOnes 32 = w := BitVec.and_allOnes
  have h := Fields.mem_rows_iff (w := w) (m := .allOnes 32) (by decide) hrows
  rwa [hall] at h

theorem Fields.onlyOp_and_maskCnt (w : CmdWord) :
    (Fields.ofWord (w &&& 0xFFFF80FF)).onlyOp = (Fields.ofWord w).onlyCnt := by
  have hm : Fields.ofWord 0xFFFF80FF = ⟨.allOnes 8, 0, true, true, .allOnes 2, true, .allOnes 12⟩ := by decide
  rw [Fields.ofWord_and, hm]
  simp [Fields.onlyOp, Fields.onlyCnt, -BitVec.reduceAllOnes]

theorem Fields.onlyOp_and_maskCntRev (w : CmdWord) :
    (Fields.ofWord (w &&& 0xFFFF00FF)).onlyOp = (Fields.ofWord w).onlyCntRev := by
  have hm : Fields.ofWord 0xFFFF00FF = ⟨.allOnes 8, 0, false, true, .allOnes 2, true, .allOnes 12⟩ := by decide
  rw [Fields.ofWord_and, hm]
  simp [Fields.onlyOp, Fields.onlyCntRev, -BitVec.reduceAllOnes]

theorem Fields.onlyOp_and_maskCntRevSgn (w : CmdWord) :
    (Fields.ofWord (w &&& 0xFFFE00FF)).onlyOp = (Fields.ofWord w).onlyCntRevSgn := by
  have hm : Fields.ofWord 0xFFFE00FF = ⟨.allOnes 8, 0, false, false, .allOnes 2, true, .allOnes 12⟩ := by decide
  rw [Fields.ofWord_and, hm]
  simp [Fields.onlyOp, Fields.onlyCntRevSgn, -BitVec.reduceAllOnes]

theorem Fields.onlyOp_and_maskOrdOwn (w : CmdWord) :
    (Fields.ofWord (w &&& 0xFFF1FFFF)).onlyOp = (Fields.ofWord w).onlyOrdOwn := by
  have hm : Fields.ofWord 0xFFF1FFFF = ⟨.allOnes 8, .allOnes 7, true, true, 0, false, .allOnes 12⟩ := by decide
  rw [Fields.ofWord_and, hm]
  simp [Fields.onlyOp, Fields.onlyOrdOwn, -BitVec.reduceAllOnes]

/-- The opcode map format by format: the OP numbers of each, and the fields that it leaves 0. -/
theorem Fields.decodes_iff {f : Fields} : (∃ i, f.decode = .ok i) ↔
    (f.op ∈ ([0x00, 0x01, 0x02, 0x03, 0x04, 0x05, 0x06, 0x07, 0x08, 0x24, 0x25, 0x38, 0x39, 0x3A, 0x3B,
        0x81, 0x82, 0x83, 0x84, 0x87, 0x88, 0x89] : List (BitVec 8)) ∧ f.onlyOp = true)
      ∨ (f.op ∈ ([0x10, 0x11, 0x12, 0x13, 0x14, 0x20, 0x21, 0x22, 0x23] : List (BitVec 8)) ∧ f.onlyCnt = true)
      ∨ (f.op = 0x30 ∧ f.onlyCntRevSgn = true)
      ∨ (f.op ∈ ([0x31, 0x85, 0x86] : List (BitVec 8)) ∧ f.onlyCntRev = true)
      ∨ ((f.op = 0x80 ∧ f.onlyOrdOwn = true) ∧ f.ord ≠ 3) := by
  constructor
  · rintro ⟨i, h⟩
    obtain ⟨hwf, rfl⟩ := Fields.fields_of_decode h
    cases i with
    | getbit | setbit | clrbit | tglbit | xchbit | rdbitsM | rdbitsL | wrbitsM | wrbitsL =>
      exact .inr (.inl ⟨by simp [Instr.fields, Instr.opcode], rfl⟩)
    | rdint => exact .inr (.inr (.inl ⟨rfl, rfl⟩))
    | wrint | rdPeek | rdRead => exact .inr (.inr (.inr (.inl ⟨by simp [Instr.fields, Instr.opcode], rfl⟩)))
    | rdOpen => exact .inr (.inr (.inr (.inr ⟨⟨rfl, rfl⟩, bne_iff_ne.1 hwf⟩)))
    | _ => exact .inl ⟨by decide, rfl⟩
  · obtain ⟨op, cnt, rev, sgn, ord, own, reserved⟩ := f
    rintro (⟨hop, h⟩ | ⟨hop, h⟩ | ⟨hop, h⟩ | ⟨hop, h⟩ | ⟨⟨hop, h⟩, hord⟩)
    · rw [Fields.eq_of_onlyOp h]
      fin_cases hop <;> exact ⟨_, rfl⟩
    · rw [Fields.eq_of_onlyCnt h]
      fin_cases hop <;> exact ⟨_, rfl⟩
    · rw [Fields.eq_of_onlyCntRevSgn h]
      cases hop
      exact ⟨_, rfl⟩
    · rw [Fields.eq_of_onlyCntRev h]
      fin_cases hop <;> exact ⟨_, rfl⟩
    · cases hop
      exact ⟨_, Fields.decodeOpen_eq_ok.2 ⟨h, hord, rfl⟩⟩

/-! ### Pseudo-instructions (spec/30_encoding.md R111, R118) -/

/-- A pseudo-instruction with an operand: the host's write of OPA, then that of its word to CMD. -/
theorem Machine.Pseudo.expand_eq {p : Machine.Pseudo} {v c : Word} (h : p.operand = some v)
    (hc : (encode p.command).setWidth 64 = c) : p.expand = [.writeReg 2 v, .writeReg 0 c] := by
  rw [Machine.Pseudo.expand, h, hc]
  rfl

end Sys2Proof

namespace Sys2Proof.Proofs

open Sys2Proof.Machine

/-- Settles O1: the fields of a word are those it was made of, and the decoder reads a command back from its fields. -/
theorem decodeOfEncode : Obligations.DecodeOfEncode := by
  unfold Obligations.DecodeOfEncode
  intro i hwf
  exact decode_eq_ok_iff.2 ⟨hwf, rfl⟩

/-- Settles O2, from the decoder's branches. -/
theorem encodeOfDecode : Obligations.EncodeOfDecode := by
  unfold Obligations.EncodeOfDecode
  intro w i h
  exact decode_eq_ok_iff.1 h

/-- Settles O4: each format's rows say which OP numbers it has and which fields it leaves 0. -/
theorem commandWords : Obligations.CommandWords := by
  unfold Obligations.CommandWords
  intro w
  rw [decode, Fields.decodes_iff]
  refine or_congr ?_ (or_congr ?_ (or_congr ?_ (or_congr ?_ (and_congr_left' ?_))))
  · exact (Fields.mem_wholeRows_iff rfl).symm
  · rw [← Fields.onlyOp_and_maskCnt]
    exact (Fields.mem_rows_iff rfl rfl).symm
  · rw [← Fields.onlyOp_and_maskCntRevSgn]
    exact (Fields.and_eq_opcode_iff rfl).symm
  · rw [← Fields.onlyOp_and_maskCntRev]
    exact (Fields.mem_rows_iff rfl rfl).symm
  · rw [← Fields.onlyOp_and_maskOrdOwn]
    exact (Fields.and_eq_opcode_iff rfl).symm

/-- Settles O3: the rule for a word of any fields, of which a command leaves the reserved ones 0. -/
theorem encodingFormula : Obligations.EncodingFormula := by
  unfold Obligations.EncodingFormula
  refine ⟨fun i => ?_, by decide, by decide, by decide, by decide, by decide, by decide⟩
  have hreserved : i.fields.reserved = 0 := rfl
  have hzero : (0 : BitVec 12).setWidth 32 <<< 20 = (0 : CmdWord) := by decide
  rw [encode, Fields.toWord_eq_or, hreserved, hzero]
  exact BitVec.or_zero

/-- Settles O5: four of the words and RD.OPEN's are encodings; the other two are rejected by evaluation. -/
theorem writtenWords : Obligations.WrittenWords := by
  unfold Obligations.WrittenWords
  exact ⟨decodeOfEncode .copybM rfl, decodeOfEncode (.rdbitsM 12) rfl, decodeOfEncode (.rdint 4 true true) rfl,
    decodeOfEncode (.rdPeek 32 true) rfl, decodeOfEncode (.rdOpen 2 true) rfl, by decide, by decide⟩

/-- Settles O6: a fixed width or a variant picks one of finitely many words; a count and an operand stand as they are. -/
theorem pseudoInstructions : Obligations.PseudoInstructions := by
  unfold Obligations.PseudoInstructions
  have hseek : (encode .rdSeek).setWidth 64 = (0x87 : Word) := by decide
  have hopen : (encode (.rdOpen 0 false)).setWidth 64 = (0x80 : Word) := by decide
  refine ⟨by decide, by decide, fun n => ⟨rfl, rfl⟩, by decide, by decide, by decide, by decide, fun n => ⟨rfl, rfl⟩,
    by decide, by decide, by decide, fun w => ?_, by decide, rfl, rfl,
    fun n => ⟨Pseudo.expand_eq rfl hseek, Pseudo.expand_eq rfl hseek⟩, Pseudo.expand_eq rfl hopen⟩
  cases w <;> decide

end Sys2Proof.Proofs
end

section
/-! The table commands: the entries of REV and POP, and BREV and BSWP as one reversal of bytes, each passed through a map
(spec/40_lut.md R130 to R145). -/

namespace Sys2Proof.Machine

/-! ### The entries of the ROMs (spec/40_lut.md R130 to R134) -/

/-- spec/40_lut.md R134: reversing a byte twice gives it back. -/
@[simp] theorem rev_rev (v : Byte) : rev (rev v) = v := by
  refine BitVec.eq_of_getLsbD_eq fun k hk => ?_
  rw [rev_bit _ hk, rev_bit _ (by omega), show 7 - (7 - k) = k by omega]

/-- spec/40_lut.md R131. -/
theorem rev_shift (v : Byte) : rev v = rev (v >>> 1) >>> 1 ||| (v &&& 1) <<< 7 := by
  refine BitVec.eq_of_getLsbD_eq fun k hk => ?_
  rw [rev_bit _ hk, BitVec.getLsbD_or, BitVec.getLsbD_ushiftRight, BitVec.getLsbD_shiftLeft]
  rcases Nat.lt_or_ge k 7 with h | h
  · rw [rev_bit _ (by omega), BitVec.getLsbD_ushiftRight, show 1 + (7 - (1 + k)) = 7 - k by omega]
    simp [h]
  · obtain rfl : k = 7 := by omega
    simp

/-- The bytes that read the same in both directions (spec/40_lut.md R131), among all 256. -/
theorem rev_eq_self_iff : ∀ v : Byte, rev v = v ↔
    v ∈ ([0x00, 0x18, 0x24, 0x3C, 0x42, 0x5A, 0x66, 0x7E, 0x81, 0x99, 0xA5, 0xBD, 0xC3, 0xDB, 0xE7, 0xFF] : List Byte) := by
  decide +kernel

/-- spec/40_lut.md R132, checked on all 256 entries. -/
theorem pop_toNat : ∀ v : Byte, (pop v).toNat = ((List.range 8).filter fun k => v.getLsbD k).length := by
  decide +kernel

/-- spec/40_lut.md R133, checked on all 256 entries. -/
theorem pop_shift : ∀ v : Byte, pop v = pop (v >>> 1) + (v &&& 1) := by
  decide +kernel

/-- spec/40_lut.md R134: a byte and its reversal have the same bits set, in the opposite order. -/
@[simp] theorem pop_rev (v : Byte) : pop (rev v) = pop v := by
  have hbits : (List.range 8).filter (fun k => (rev v).getLsbD k) = (List.range 8).filter fun k => v.getLsbD (7 - k) :=
    List.filter_congr fun k hk => rev_bit v (List.mem_range.1 hk)
  have hback : List.range 8 = ((List.range 8).map (7 - ·)).reverse := by decide
  refine BitVec.eq_of_toNat_eq ?_
  rw [pop_toNat, pop_toNat, hbits]
  conv_rhs => rw [hback]
  rw [List.filter_reverse, List.length_reverse, List.filter_map, List.length_map]
  rfl

/-! ### Bytes of a word -/

/-- A word is below 2^n exactly when its bits from n on are clear. -/
theorem toNat_lt_two_pow_iff {v : Word} {n : Nat} : v.toNat < 2 ^ n ↔ ∀ k, n ≤ k → v.getLsbD k = false :=
  ⟨fun h _ hk => Nat.testBit_lt_two_pow (h.trans_le (Nat.pow_le_pow_right (by decide) hk)),
    fun h => Nat.lt_pow_two_of_testBit _ h⟩

/-- Byte 0 of a byte widened to a word is that byte. -/
theorem byteOf_setWidth_zero (b : Byte) : byteOf (b.setWidth 64) 0 = b := by
  refine BitVec.eq_of_getLsbD_eq fun k hk => ?_
  rw [byteOf_bit_lt _ _ _ hk, BitVec.getLsbD_setWidth]
  simp [show k < 64 by omega]

/-! ### Bytes in the opposite order -/

/-- Byte i of `r` is byte m - 1 - i of `v` passed through `g` for i < m, and 0 above: what BREV (with REV for `g`) and BSWP
(with the identity) have in common (spec/40_lut.md R137 to R144). -/
def SwappedThrough (g : Byte → Byte) (m : Nat) (v r : Word) : Prop :=
  ∀ k, r.getLsbD k = (decide (k < 8 * m) && (g (byteOf v (m - 1 - k / 8))).getLsbD (k % 8))

variable {g : Byte → Byte} {m : Nat} {v r : Word}

theorem swappedThrough_byte (g : Byte → Byte) (v : Word) : SwappedThrough g 1 v ((g (byteOf v 0)).setWidth 64) := by
  intro k
  rw [BitVec.getLsbD_setWidth]
  rcases Nat.lt_or_ge k 8 with h | h
  · simp [h, show k < 64 by omega, Nat.mod_eq_of_lt h]
  · simp [Nat.not_lt.2 h, BitVec.getLsbD_of_ge _ k h]

/-- With REV on each byte, the bits are in the opposite order (spec/40_lut.md R139 to R141). -/
theorem SwappedThrough.reversedBits (h : SwappedThrough rev m v r) : ReversedBits (8 * m) v r := by
  intro k
  rw [h k]
  by_cases hk : k < 8 * m
  · rw [rev_bit _ (by omega), byteOf_bit_lt _ _ _ (by omega),
      show 8 * (m - 1 - k / 8) + (7 - k % 8) = 8 * m - 1 - k by omega]
  · simp [hk]

/-- With the bytes as they are, they are in the opposite order (spec/40_lut.md R142 to R144). -/
theorem SwappedThrough.swappedBytes (h : SwappedThrough id m v r) : SwappedBytes m v r := by
  intro k
  rw [h k, id_eq, byteOf_bit_lt _ _ _ (by omega)]

theorem SwappedThrough.byteOf_eq (h : SwappedThrough g m v r) {j : Nat} (hj : j < m) :
    byteOf r j = g (byteOf v (m - 1 - j)) := by
  refine BitVec.eq_of_getLsbD_eq fun k hk => ?_
  rw [byteOf_bit_lt _ _ _ hk, h, show (8 * j + k) / 8 = j by omega, show (8 * j + k) % 8 = k by omega]
  simp [show 8 * j + k < 8 * m by omega]

theorem SwappedThrough.toNat_lt (h : SwappedThrough g m v r) : r.toNat < 2 ^ (8 * m) :=
  toNat_lt_two_pow_iff.2 fun k hk => by rw [h k]; simp [Nat.not_lt.2 hk]

/-- The bytes below m decide a word that has no others. -/
theorem eq_of_byteOf_eq {v w : Word} (hv : v.toNat < 2 ^ (8 * m)) (hw : w.toNat < 2 ^ (8 * m))
    (h : ∀ j, j < m → byteOf v j = byteOf w j) : v = w := by
  refine BitVec.eq_of_getLsbD_eq fun k _ => ?_
  rcases Nat.lt_or_ge k (8 * m) with hk | hk
  · have hbyte := congrArg (·.getLsbD (k % 8)) (h (k / 8) (by omega))
    simpa [byteOf_bit_lt _ _ _ (Nat.mod_lt k (by decide : 0 < 8)), Nat.div_add_mod] using hbyte
  · rw [toNat_lt_two_pow_iff.1 hv k hk, toNat_lt_two_pow_iff.1 hw k hk]

/-- Twice through a map that is its own inverse gives the operand back (spec/40_lut.md R145). -/
theorem SwappedThrough.twice {w : Word} (hg : ∀ b, g (g b) = b) (h : SwappedThrough g m v r)
    (h' : SwappedThrough g m r w) (hv : v.toNat < 2 ^ (8 * m)) : w = v := by
  refine eq_of_byteOf_eq h'.toNat_lt hv fun j hj => ?_
  rw [h'.byteOf_eq hj, h.byteOf_eq (by omega), hg, show m - 1 - (m - 1 - j) = j by omega]

/-- The map may be applied to the bytes before they change places (spec/40_lut.md R145). -/
theorem SwappedThrough.eq_of_mapped {v' r' : Word} (h : SwappedThrough g m v r) (h' : SwappedThrough id m v' r')
    (hmap : ∀ j, j < m → byteOf v' j = g (byteOf v j)) : r' = r := by
  refine eq_of_byteOf_eq h'.toNat_lt h.toNat_lt fun j hj => ?_
  rw [h'.byteOf_eq hj, h.byteOf_eq hj, id_eq, hmap _ (by omega)]

/-! ### How the commands end -/

/-- A table command whose operand is too large (spec/40_lut.md, template). -/
theorem exec_lut_above {c : Instr} {s : State} {limit : Nat} {f : Word → Word}
    (he : exec c s = .next (s.unlessConfigFault (s.lutCommand limit f))) (hc : s.cfgf = false)
    (h : limit < s.latchA.toNat) : exec c s = .next (s.faulted .range 0 s.latchA.toNat limit) := by
  rw [he, State.unlessConfigFault_off hc]
  rcases s.lutCommand_cases limit f with ⟨-, e⟩ | ⟨hle, -⟩
  · exact congrArg _ e
  · omega

/-- A table command whose operand is legal (spec/40_lut.md, template). -/
theorem exec_lut_within {c : Instr} {s : State} {limit : Nat} {f : Word → Word}
    (he : exec c s = .next (s.unlessConfigFault (s.lutCommand limit f))) (hc : s.cfgf = false)
    (h : s.latchA.toNat ≤ limit) : exec c s = .next (s.endedWith (f s.latchA)) := by
  rw [he, State.unlessConfigFault_off hc]
  rcases s.lutCommand_cases limit f with ⟨hlt, -⟩ | ⟨-, e⟩
  · omega
  · exact congrArg _ e

/-- The command `c` takes operands of m bytes: RangeFault for a larger one, else a result that stands in the relation `R` to
the operand; and nothing else changed. -/
def EndsIn (c : Instr) (m : Nat) (R : Word → Word → Prop) : Prop :=
  ∀ s : State, s.cfgf = false →
    (2 ^ (8 * m) - 1 < s.latchA.toNat → exec c s = .next (s.faulted .range 0 s.latchA.toNat (2 ^ (8 * m) - 1)))
    ∧ (s.latchA.toNat ≤ 2 ^ (8 * m) - 1 → ∃ r, R s.latchA r ∧ exec c s = .next (s.endedWith r))

theorem EndsIn.mono {c : Instr} {R R' : Word → Word → Prop} (h : EndsIn c m R) (hR : ∀ {v r}, R v r → R' v r) :
    EndsIn c m R' := fun s hc =>
  (h s hc).imp_right fun hle hs => (hle hs).imp fun _ => And.imp_left hR

/-- The command `c` reverses the m bytes of its operand, each passed through `g`. -/
abbrev Reverses (c : Instr) (g : Byte → Byte) (m : Nat) : Prop := EndsIn c m (SwappedThrough g m)

theorem Reverses.of_lut {c : Instr} {f : Word → Word}
    (he : ∀ s, exec c s = .next (s.unlessConfigFault (s.lutCommand (2 ^ (8 * m) - 1) f)))
    (hf : ∀ v, SwappedThrough g m v (f v)) : Reverses c g m := fun s hc =>
  ⟨exec_lut_above (he s) hc, fun h => ⟨_, hf s.latchA, exec_lut_within (he s) hc h⟩⟩

/-- The commands on all eight bytes have no operand to reject. -/
theorem Reverses.of_completeWith {c : Instr} {f : Word → Word}
    (he : ∀ s, exec c s = .next (s.unlessConfigFault (s.completeWith (f s.latchA))))
    (hf : ∀ v, SwappedThrough g 8 v (f v)) : Reverses c g 8 := fun s hc => by
  have hlt := s.latchA.isLt
  refine ⟨fun h => by omega, fun _ => ⟨_, hf s.latchA, ?_⟩⟩
  rw [he, State.unlessConfigFault_off hc]
  rfl

theorem reverses_brevB : Reverses .brevB rev 1 := .of_lut (fun _ => rfl) (swappedThrough_byte rev)
theorem reverses_brevS : Reverses .brevS rev 2 := .of_lut (fun _ => rfl) (swap16_bit rev)
theorem reverses_brevI : Reverses .brevI rev 4 := .of_lut (fun _ => rfl) (swap32_bit rev)
theorem reverses_brevL : Reverses .brevL rev 8 := .of_completeWith (fun _ => rfl) (swap64_bit rev)
theorem reverses_bswpS : Reverses .bswpS id 2 := .of_lut (fun _ => rfl) (swap16_bit id)
theorem reverses_bswpI : Reverses .bswpI id 4 := .of_lut (fun _ => rfl) (swap32_bit id)
theorem reverses_bswpL : Reverses .bswpL id 8 := .of_completeWith (fun _ => rfl) (swap64_bit id)

theorem Reverses.exec_of_lt {c : Instr} (h : Reverses c g m) {s : State} (hc : s.cfgf = false)
    (hlt : s.latchA.toNat < 2 ^ (8 * m)) :
    ∃ r, SwappedThrough g m s.latchA r ∧ exec c s = .next (s.endedWith r) :=
  (h s hc).2 (Nat.le_sub_one_of_lt hlt)

/-- POPC.B of a legal operand (spec/40_lut.md R138). -/
theorem exec_popcB_within {s : State} (hc : s.cfgf = false) (h : s.latchA.toNat ≤ 0xFF) :
    exec .popcB s = .next (s.endedWith ((pop (byteOf s.latchA 0)).setWidth 64)) :=
  exec_lut_within (f := fun v => (pop (byteOf v 0)).setWidth 64) rfl hc h

/-- The result of POPC.B is the number of set bits of a legal operand (spec/40_lut.md R138). -/
theorem pop_byteOf_eq_count (v : Word) : (pop (byteOf v 0)).setWidth 64
    = BitVec.ofNat 64 ((List.range 8).filter fun k => v.getLsbD k).length := by
  have hbits : (List.range 8).filter (fun k => (byteOf v 0).getLsbD k) = (List.range 8).filter fun k => v.getLsbD k :=
    List.filter_congr fun k hk => by rw [byteOf_bit_lt _ _ _ (List.mem_range.1 hk), Nat.mul_zero, Nat.zero_add]
  rw [← BitVec.ofNat_toNat, pop_toNat, hbits]

/-! ### The laws of the commands (spec/40_lut.md R145) -/

/-- A reversal through a map that is its own inverse, run on its own result. -/
theorem Reverses.involutive {c : Instr} (h : Reverses c g m) (hg : ∀ b, g (g b) = b) {s : State} (hc : s.cfgf = false)
    (hlt : s.latchA.toNat < 2 ^ (8 * m)) :
    ∃ t u, exec c s = .next t ∧ exec c { t with latchA := t.res } = .next u ∧ u.fcode = .ok ∧ u.res = s.latchA := by
  obtain ⟨r, hr, e⟩ := h.exec_of_lt hc hlt
  obtain ⟨w, hw, e'⟩ := h.exec_of_lt (s := { s.endedWith r with latchA := r }) hc hr.toNat_lt
  exact ⟨_, _, e, e', rfl, hr.twice hg hw hlt⟩

/-- A reversal through `g` is the plain reversal of the value whose bytes have passed through `g`. -/
theorem Reverses.eq_of_mapped {c d : Instr} (h : Reverses c g m) (h' : Reverses d id m) {s : State} {v : Word}
    (hc : s.cfgf = false) (hlt : s.latchA.toNat < 2 ^ (8 * m)) (hv : v.toNat < 2 ^ (8 * m))
    (hmap : ∀ j, 8 * j < 8 * m → v.extractLsb' (8 * j) 8 = g (s.latchA.extractLsb' (8 * j) 8)) :
    ∃ t u, exec c s = .next t ∧ exec d { s with latchA := v } = .next u ∧ t.fcode = .ok ∧ u.res = t.res := by
  obtain ⟨r, hr, e⟩ := h.exec_of_lt hc hlt
  obtain ⟨w, hw, e'⟩ := h'.exec_of_lt (s := { s with latchA := v }) hc hv
  exact ⟨_, _, e, e', rfl, hr.eq_of_mapped hw fun j hj => hmap j (by omega)⟩

/-- POPC.B after BREV.B. -/
theorem exec_popcB_brevB {s : State} (hc : s.cfgf = false) (h : s.latchA.toNat ≤ 0xFF) :
    ∃ t u v, exec .brevB s = .next t ∧ exec .popcB { s with latchA := t.res } = .next u ∧ exec .popcB s = .next v
      ∧ v.fcode = .ok ∧ u.res = v.res := by
  obtain ⟨r, hr, e⟩ := (reverses_brevB s hc).2 h
  have hbyte : byteOf r 0 = rev (byteOf s.latchA 0) := hr.byteOf_eq Nat.one_pos
  refine ⟨_, _, _, e, exec_popcB_within (s := { s with latchA := r }) hc (Nat.le_of_lt_succ hr.toNat_lt),
    exec_popcB_within hc h, rfl, ?_⟩
  simp only [hbyte, pop_rev]

end Sys2Proof.Machine

namespace Sys2Proof.Proofs

open Sys2Proof.Machine

/-- Settles O12: the laws of a reversal of bytes, at each width. -/
theorem tableCommandLaws : Obligations.TableCommandLaws := by
  unfold Obligations.TableCommandLaws
  refine ⟨fun c n hmem s hc hlt => ?_, fun c d n hmem s v hc hlt hv hmap => ?_, fun s => exec_popcB_brevB⟩
  · simp only [List.mem_cons, Prod.mk.injEq, List.not_mem_nil, or_false] at hmem
    rcases hmem with ⟨rfl, rfl⟩ | ⟨rfl, rfl⟩ | ⟨rfl, rfl⟩ | ⟨rfl, rfl⟩ | ⟨rfl, rfl⟩ | ⟨rfl, rfl⟩ | ⟨rfl, rfl⟩
    · exact reverses_brevB.involutive rev_rev hc hlt
    · exact reverses_brevS.involutive rev_rev hc hlt
    · exact reverses_brevI.involutive rev_rev hc hlt
    · exact reverses_brevL.involutive rev_rev hc hlt
    · exact reverses_bswpS.involutive (fun _ => rfl) hc hlt
    · exact reverses_bswpI.involutive (fun _ => rfl) hc hlt
    · exact reverses_bswpL.involutive (fun _ => rfl) hc hlt
  · simp only [List.mem_cons, Prod.mk.injEq, List.not_mem_nil, or_false] at hmem
    rcases hmem with ⟨rfl, rfl, rfl⟩ | ⟨rfl, rfl, rfl⟩ | ⟨rfl, rfl, rfl⟩
    · exact reverses_brevS.eq_of_mapped reverses_bswpS hc hlt hv hmap
    · exact reverses_brevI.eq_of_mapped reverses_bswpI hc hlt hv hmap
    · exact reverses_brevL.eq_of_mapped reverses_bswpL hc hlt hv hmap

/-- Settles O8: each width is the reversal of its bytes through REV. -/
theorem bitReversals : Obligations.BitReversals := by
  unfold Obligations.BitReversals
  refine ⟨⟨by decide, by decide, by decide, by decide⟩, fun c n hmem s hc => ?_,
    fun s hc => (reverses_brevL.mono SwappedThrough.reversedBits s hc).2 (Nat.le_of_lt_succ s.latchA.isLt)⟩
  simp only [List.mem_cons, Prod.mk.injEq, List.not_mem_nil, or_false] at hmem
  rcases hmem with ⟨rfl, rfl⟩ | ⟨rfl, rfl⟩ | ⟨rfl, rfl⟩
  · exact reverses_brevB.mono SwappedThrough.reversedBits s hc
  · exact reverses_brevS.mono SwappedThrough.reversedBits s hc
  · exact reverses_brevI.mono SwappedThrough.reversedBits s hc

/-- Settles O10: each width is the reversal of its bytes as they are. -/
theorem byteSwaps : Obligations.ByteSwaps := by
  unfold Obligations.ByteSwaps
  refine ⟨⟨by decide, by decide, by decide⟩, fun c n hmem s hc => ?_,
    fun s hc => (reverses_bswpL.mono SwappedThrough.swappedBytes s hc).2 (Nat.le_of_lt_succ s.latchA.isLt)⟩
  simp only [List.mem_cons, Prod.mk.injEq, List.not_mem_nil, or_false] at hmem
  rcases hmem with ⟨rfl, rfl⟩ | ⟨rfl, rfl⟩
  · exact reverses_bswpS.mono SwappedThrough.swappedBytes s hc
  · exact reverses_bswpI.mono SwappedThrough.swappedBytes s hc

/-- Settles O9: the range check, and the entry of POP as a count. -/
theorem populationCount : Obligations.PopulationCount := by
  unfold Obligations.PopulationCount
  refine ⟨by decide, fun s hc => ⟨exec_lut_above (f := fun v => (pop (byteOf v 0)).setWidth 64) rfl hc, fun hle => ?_⟩⟩
  rw [exec_popcB_within hc hle, pop_byteOf_eq_count]

/-- Settles O11: from the bits of REV and the counts of POP. -/
theorem tableContents : Obligations.TableContents := by
  unfold Obligations.TableContents
  refine ⟨fun v k => rev_bit v k.isLt, by decide, fun v _ => rev_shift v, rev_eq_self_iff, pop_toNat, by decide,
    fun v _ => pop_shift v, fun v => ⟨rev_rev v, (pop_rev v).symm, ?_⟩⟩
  rw [pop_rev]
  exact BitVec.two_mul.symm

end Sys2Proof.Proofs
end

section
/-! The single-bit commands: their words, and how they end (spec/30_encoding.md R99, R103, spec/41_bitfield.md R160 to R166). -/

namespace Sys2Proof

/-- The word of a command of format C or Z: its OP number and its count (spec/30_encoding.md R92, R103). -/
theorem decode_opcode_cnt {i : Instr} (hwf : i.wellFormed = true)
    (hf : i.fields = { op := i.opcode, cnt := i.cntField, rev := false, sgn := false, ord := 0, own := false, reserved := 0 }) :
    decode (i.opcode.setWidth 32 ||| i.cntField.setWidth 32 <<< 8) = .ok i := by
  refine decode_eq_ok_iff.2 ⟨hwf, ?_⟩
  rw [encode, hf, Fields.toWord_eq_or]
  simp

namespace Machine

variable {s skip body : State} {c : Instr} {i : Nat}

/-! ### The checks -/

/-- The RangeFault of a position in BUF, with the room that is left there (spec/60_exceptions.md R302). -/
theorem State.raise_availBuf (s : State) (p n : Nat) :
    s.raise .range p n (s.availBuf p) = s.faulted .range p n (s.roomAt p) := by
  rw [State.availBuf_eq]
  rfl

/-- The indices 0 to 7 are legal whatever ACCEPT_INDEX8 is (spec/41_bitfield.md R160). -/
theorem State.le_maxIndex (s : State) (h : i ≤ 7) : i ≤ s.maxIndex := by
  unfold State.maxIndex
  split <;> omega

/-- A single-bit command with an illegal index (spec/41_bitfield.md R160). -/
theorem exec_indexAbove (he : exec c s = .next (s.unlessConfigFault (s.ifIndex i body))) (hc : s.cfgf = false)
    (h : s.maxIndex < i) : exec c s = .next (s.faulted .range (8 * s.latchB.toNat) i s.maxIndex) := by
  rw [he, State.unlessConfigFault_off hc]
  rcases s.ifIndex_cases i body with ⟨-, e⟩ | ⟨hle, -⟩
  · exact congrArg _ e
  · omega

/-- A single-bit command with a legal index goes on to its other checks (spec/41_bitfield.md R160). -/
theorem exec_indexWithin (he : exec c s = .next (s.unlessConfigFault (s.ifIndex i body))) (hc : s.cfgf = false)
    (h : i ≤ s.maxIndex) : exec c s = .next body := by
  rw [he, State.unlessConfigFault_off hc]
  rcases s.ifIndex_cases i body with ⟨hlt, -⟩ | ⟨-, e⟩
  · omega
  · exact congrArg _ e

section Address

variable {f : BitOrder → Nat → State}

theorem State.atBit_outside (h : s.params.bufBytes ≤ s.latchB.toNat) :
    s.atBit i skip f = s.faulted .range (8 * s.latchB.toNat) 8 (s.roomAt (8 * s.latchB.toNat)) :=
  (if_pos h).trans (s.raise_availBuf _ _)

/-- Index 8 names no bit (spec/41_bitfield.md R166). -/
theorem State.atBit_eight (hi : i = 8) (h : s.latchB.toNat < s.params.bufBytes) : s.atBit i skip f = skip :=
  (if_neg (Nat.not_le.2 h)).trans (if_pos hi)

theorem State.atBit_inside {o : BitOrder} (ho : s.params.sysBitOrder = some o) (hi : i ≤ 7)
    (h : s.latchB.toNat < s.params.bufBytes) : s.atBit i skip f = f o (8 * s.latchB.toNat + i) := by
  rcases s.atBit_cases i skip f with ⟨hout, -⟩ | ⟨-, h8, -⟩ | ⟨-, -, hnone, -⟩ | ⟨o', -, -, ho', e⟩
  · omega
  · omega
  · cases ho.symm.trans hnone
  · cases ho.symm.trans ho'
    exact e

end Address

/-- A truth value in RES (spec/10_state.md R48). -/
theorem boolWord_eq_ite (b : Bool) : boolWord b = if b then 1 else 0 := by
  cases b <;> rfl

/-! ### How each command ends -/

section Ends

variable {n : BitVec 7} {o : BitOrder}

/-- GETBIT of a bit of BUF (spec/41_bitfield.md R161). -/
theorem exec_getbit_inside (hc : s.cfgf = false) (ho : s.params.sysBitOrder = some o) (hn : n.toNat ≤ 7)
    (h : s.latchB.toNat < s.params.bufBytes) : exec (.getbit n) s
      = .next (s.endedWith (if bitGet o s.buf.read (8 * s.latchB.toNat + n.toNat) then 1 else 0)) := by
  rw [exec_indexWithin rfl hc (s.le_maxIndex hn), State.atBit_inside ho hn h, boolWord_eq_ite]
  rfl

/-- SETBIT, CLRBIT and TGLBIT: the four ways one of them ends, for the map `f` that it applies to the bit
(spec/41_bitfield.md R160, R162 to R164, R166). -/
theorem changeBit_ends {f : Bool → Bool} (he : exec c s = .next (s.unlessConfigFault (s.changeBit i f)))
    (hc : s.cfgf = false) (ho : s.params.sysBitOrder = some o) :
    (s.maxIndex < i → exec c s = .next (s.faulted .range (8 * s.latchB.toNat) i s.maxIndex))
    ∧ (i ≤ s.maxIndex → s.params.bufBytes ≤ s.latchB.toNat →
        exec c s = .next (s.faulted .range (8 * s.latchB.toNat) 8 (s.roomAt (8 * s.latchB.toNat))))
    ∧ (i = 8 → i ≤ s.maxIndex → s.latchB.toNat < s.params.bufBytes → exec c s = .next s.endedOk)
    ∧ (i ≤ 7 → s.latchB.toNat < s.params.bufBytes →
        ∃ m, BitsReplaced o (8 * s.latchB.toNat + i) 1 (fun _ => f (bitGet o s.buf.read (8 * s.latchB.toNat + i))) s.buf m
          ∧ exec c s = .next { s.endedOk with buf := m }) := by
  refine ⟨exec_indexAbove he hc, fun hi h => ?_, fun h8 hi h => ?_, fun hi h => ?_⟩
  · rw [exec_indexWithin he hc hi, State.atBit_outside h]
  · rw [exec_indexWithin he hc hi, State.atBit_eight h8 h]
    rfl
  · refine ⟨_, bitsReplaced_bitPut .., ?_⟩
    rw [exec_indexWithin he hc (s.le_maxIndex hi), State.atBit_inside ho hi h]
    rfl

/-- XCHBIT with a legal index and operand goes on to the address (spec/41_bitfield.md R165). -/
theorem exec_xchbit_operandWithin (hc : s.cfgf = false) (hi : n.toNat ≤ s.maxIndex) (hA : s.latchA.toNat ≤ 1) :
    exec (.xchbit n) s = .next (s.atBit n.toNat (s.completeWith 0) fun o p =>
      (s.withBuf (s.buf.bitPut o p (decide (s.latchA.toNat = 1)))).completeWith (boolWord (bitGet o s.buf.read p))) :=
  (exec_indexWithin rfl hc hi).trans (congrArg Host.Outcome.next (if_neg (Nat.not_lt.2 hA)))

/-- XCHBIT with a legal index and an operand that is no bit (spec/41_bitfield.md R165). -/
theorem exec_xchbit_operandAbove (hc : s.cfgf = false) (hi : n.toNat ≤ s.maxIndex) (hA : 1 < s.latchA.toNat) :
    exec (.xchbit n) s = .next (s.faulted .range 0 s.latchA.toNat 1) :=
  (exec_indexWithin rfl hc hi).trans (congrArg Host.Outcome.next (if_pos hA))

end Ends

end Machine

end Sys2Proof

namespace Sys2Proof.Proofs

open Sys2Proof.Machine

/-- Settles O15: the index, then the address, then the bit. -/
theorem getbitResult : Obligations.GetbitResult := by
  unfold Obligations.GetbitResult
  refine ⟨fun n => decode_opcode_cnt (i := .getbit n) rfl rfl, fun s n o hc ho =>
    ⟨exec_indexAbove rfl hc, fun hi h => ?_, fun h8 hi h => ?_, exec_getbit_inside hc ho⟩⟩
  · rw [exec_indexWithin rfl hc hi, State.atBit_outside h]
  · rw [exec_indexWithin rfl hc hi, State.atBit_eight h8 h]
    rfl

/-- Settles O16: the three commands differ in the map that they apply to the bit. -/
theorem setClearToggle : Obligations.SetClearToggle := by
  unfold Obligations.SetClearToggle
  refine ⟨fun n => ⟨decode_opcode_cnt (i := .setbit n) rfl rfl, decode_opcode_cnt (i := .clrbit n) rfl rfl,
    decode_opcode_cnt (i := .tglbit n) rfl rfl⟩, fun c f hmem s n o hc ho => ?_⟩
  have he : exec (c n) s = .next (s.unlessConfigFault (s.changeBit n.toNat f)) := by
    simp only [List.mem_cons, Prod.mk.injEq, List.not_mem_nil, or_false] at hmem
    rcases hmem with ⟨rfl, rfl⟩ | ⟨rfl, rfl⟩ | ⟨rfl, rfl⟩
    · rfl
    · rfl
    · rfl
  exact changeBit_ends he hc ho

/-- Settles O17: the index, then the operand, then the address, then the bit. -/
theorem exchangeBit : Obligations.ExchangeBit := by
  unfold Obligations.ExchangeBit
  refine ⟨fun n => decode_opcode_cnt (i := .xchbit n) rfl rfl, fun s n o hc ho =>
    ⟨exec_indexAbove rfl hc, exec_xchbit_operandAbove hc, fun hi hA h => ?_, fun h8 hi hA h => ?_, fun hi hA h => ?_⟩⟩
  · rw [exec_xchbit_operandWithin hc hi hA, State.atBit_outside h]
  · rw [exec_xchbit_operandWithin hc hi hA, State.atBit_eight h8 h]
    rfl
  · refine ⟨_, bitsReplaced_bitPut .., ?_⟩
    rw [exec_xchbit_operandWithin hc (s.le_maxIndex hi) hA, State.atBit_inside ho hi h, boolWord_eq_ite]
    rfl

end Sys2Proof.Proofs
end

section
/-! The field commands and the bit copies: how they end, and the laws of the fields (spec/41_bitfield.md R167 to R173). -/

namespace Sys2Proof.Machine

variable {s : State} {o : BitOrder}

/-! ### How the commands end -/

/-- RDBITS and WRBITS check alike: the three ways a command ends whose cases are those of `State.readBits_cases` and
`State.writeBits_cases` (spec/41_bitfield.md R167 to R170). -/
theorem fieldCommand_ends {c : Instr} {n : Nat} {t empty body : State}
    (he : exec c s = .next (s.unlessConfigFault t)) (hc : s.cfgf = false)
    (ht : ((64 < n ∨ (1 ≤ n ∧ 8 * s.params.bufBytes < s.latchB.toNat + n))
        ∧ t = s.raise .range s.latchB.toNat n (s.availBuf s.latchB.toNat))
      ∨ (n = 0 ∧ t = empty)
      ∨ (1 ≤ n ∧ n ≤ 64 ∧ s.latchB.toNat + n ≤ 8 * s.params.bufBytes ∧ t = body)) :
    (64 < n ∨ (1 ≤ n ∧ 8 * s.params.bufBytes < s.latchB.toNat + n) →
      exec c s = .next (s.faulted .range s.latchB.toNat n (s.roomAt s.latchB.toNat)))
    ∧ (n = 0 → exec c s = .next empty)
    ∧ (1 ≤ n → n ≤ 64 → s.latchB.toNat + n ≤ 8 * s.params.bufBytes → exec c s = .next body) := by
  rw [he, State.unlessConfigFault_off hc]
  rcases ht with ⟨h, rfl⟩ | ⟨h, rfl⟩ | ⟨h1, h64, hb, rfl⟩
  · exact ⟨fun _ => congrArg _ (s.raise_availBuf _ _), fun _ => by omega, fun _ _ _ => by omega⟩
  · exact ⟨fun _ => by omega, fun _ => rfl, fun _ => by omega⟩
  · exact ⟨fun _ => by omega, fun _ => by omega, fun _ _ _ => rfl⟩

/-- `s` after WRBITS of n bits under order `o`, the empty field included (spec/41_bitfield.md R169, R170). -/
def State.fieldWritten (s : State) (o : BitOrder) (n : Nat) : State :=
  (s.withBuf (s.buf.writeField o s.latchB.toNat n s.latchA)).complete

/-- WRBITS of a field inside BUF, the empty field included (spec/41_bitfield.md R169, R170). -/
theorem exec_wrbits_inside {n : BitVec 7} (hc : s.cfgf = false) (hn : n.toNat ≤ 64)
    (hb : s.latchB.toNat + n.toNat ≤ 8 * s.params.bufBytes) :
    exec (.wrbitsM n) s = .next (s.fieldWritten .mostSignificant n.toNat)
      ∧ exec (.wrbitsL n) s = .next (s.fieldWritten .leastSignificant n.toNat) := by
  have field : ∀ o, s.unlessConfigFault (s.writeBits o n.toNat) = s.fieldWritten o n.toNat := fun o => by
    rw [State.unlessConfigFault_off hc]
    rcases s.writeBits_cases o n.toNat with ⟨h, -⟩ | ⟨h0, e⟩ | ⟨-, -, -, e⟩
    · omega
    · rw [e, h0]
      rfl
    · exact e
  exact ⟨congrArg Host.Outcome.next (field _), congrArg Host.Outcome.next (field _)⟩

/-- COPYB: the four ways it ends (spec/41_bitfield.md R172, R173). -/
theorem copyBlock_ends {c : Instr} (he : exec c s = .next (s.unlessConfigFault (s.copyBlock o))) (hc : s.cfgf = false) :
    (s.latchA.toNat = 0 → exec c s = .next s.endedOk)
    ∧ (1 ≤ s.latchA.toNat → 8 * s.params.bufBytes < s.latchB.toNat + s.latchA.toNat →
        exec c s = .next (s.faulted .range s.latchB.toNat s.latchA.toNat (s.roomAt s.latchB.toNat)))
    ∧ (1 ≤ s.latchA.toNat → s.latchB.toNat + s.latchA.toNat ≤ 8 * s.params.bufBytes →
        8 * s.params.bufBytes < s.latchC.toNat + s.latchA.toNat →
        exec c s = .next (s.faulted .range s.latchC.toNat s.latchA.toNat (s.roomAt s.latchC.toNat)))
    ∧ (1 ≤ s.latchA.toNat → s.latchB.toNat + s.latchA.toNat ≤ 8 * s.params.bufBytes →
        s.latchC.toNat + s.latchA.toNat ≤ 8 * s.params.bufBytes →
        ∃ m, BitsReplaced o s.latchC.toNat s.latchA.toNat (fun j => bitGet o s.buf.read (s.latchB.toNat + j)) s.buf m
          ∧ exec c s = .next { s.endedOk with buf := m }) := by
  rw [he, State.unlessConfigFault_off hc]
  rcases s.copyBlock_cases o with ⟨h0, e⟩ | ⟨h1, hp, e⟩ | ⟨h1, hp, hd, e⟩ | ⟨h1, hp, hd, e⟩
  · exact ⟨fun _ => congrArg _ e, fun _ => by omega, fun _ => by omega, fun _ => by omega⟩
  · exact ⟨fun _ => by omega, fun _ _ => congrArg _ (e.trans (s.raise_availBuf _ _)), fun _ _ => by omega,
      fun _ _ => by omega⟩
  · exact ⟨fun _ => by omega, fun _ _ => by omega, fun _ _ _ => congrArg _ (e.trans (s.raise_availBuf _ _)),
      fun _ _ _ => by omega⟩
  · exact ⟨fun _ => by omega, fun _ _ => by omega, fun _ _ _ => by omega,
      fun _ _ _ => ⟨_, bitsReplaced_putBits .., congrArg _ e⟩⟩

/-! ### The laws of the fields (spec/41_bitfield.md R171) -/

/-- A field read back after it was written holds the low n bits of the value. -/
theorem readField_writeField (o : BitOrder) (m : Memory) (p n : Nat) (v : Word) :
    readField o (m.writeField o p n v).read p n = v.toNat % 2 ^ n := by
  have written : ∀ j, j < n → bitGet o (m.writeField o p n v).read (p + j) = fieldBit o n v j := fun j hj => by
    rw [Memory.writeField, bitGet_putBits, if_pos (by omega), Nat.add_sub_cancel_left]
  refine Nat.eq_of_testBit_eq fun k => ?_
  rw [Nat.testBit_mod_two_pow]
  rcases Nat.lt_or_ge k n with hk | hk
  · cases o with
    | mostSignificant =>
      rw [readField_most_testBit, written _ (by omega), fieldBit, show n - 1 - (n - 1 - k) = k by omega]
      rfl
    | leastSignificant =>
      rw [readField_least_testBit, written _ hk]
      rfl
  · rw [Nat.testBit_lt_two_pow ((readField_lt o _ p n).trans_le (Nat.pow_le_pow_right (by decide) hk))]
    simp [Nat.not_lt.2 hk]

/-- WRBITS keeps every bit outside its field. -/
theorem bitGet_writeField_outside (o : BitOrder) (m : Memory) {p n q : Nat} (v : Word) (h : q < p ∨ p + n ≤ q) :
    bitGet o (m.writeField o p n v).read q = bitGet o m.read q := by
  rw [Memory.writeField, bitGet_putBits, if_neg (by omega)]

/-- Laws (a) and (b): RDBITS after WRBITS in the same order at the same place. -/
theorem field_roundTrip {wr rd : Instr} {n : Nat} (hw : exec wr s = .next (s.fieldWritten o n))
    (hr : exec rd (s.fieldWritten o n) = .next ((s.fieldWritten o n).completeWith
      (BitVec.ofNat 64 (readField o (s.buf.writeField o s.latchB.toNat n s.latchA).read s.latchB.toNat n)))) :
    ∃ t u, exec wr s = .next t ∧ exec rd t = .next u ∧ u.fcode = .ok ∧ u.res.toNat = s.latchA.toNat % 2 ^ n
      ∧ ∀ q, q < s.latchB.toNat ∨ s.latchB.toNat + n ≤ q → bitGet o t.buf.read q = bitGet o s.buf.read q := by
  refine ⟨_, _, hw, hr, rfl, ?_, fun q => bitGet_writeField_outside o s.buf s.latchA⟩
  rw [State.completeWith_res, readField_writeField]
  exact toNat_ofNat_of_lt ((Nat.mod_le _ _).trans_lt s.latchA.isLt)

/-- Law (c): the big-endian and the little-endian number of the same bytes are byte reversals of each other. -/
theorem swappedBytes_assemble (f : Nat → Byte) (a : Nat) {k : Nat} (hk : k ≤ 8) :
    SwappedBytes k (BitVec.ofNat 64 (assemble (fun i => f (intAddr false a k i)) k))
      (BitVec.ofNat 64 (assemble (fun i => f (intAddr true a k i)) k)) := by
  intro j
  rw [BitVec.getLsbD_ofNat, BitVec.getLsbD_ofNat, assemble_testBit, assemble_testBit]
  rcases Nat.lt_or_ge j (8 * k) with hj | hj
  · have hbyte : (8 * (k - 1 - j / 8) + j % 8) / 8 = k - 1 - j / 8 := by omega
    have hbit : (8 * (k - 1 - j / 8) + j % 8) % 8 = j % 8 := by omega
    have haddr : intAddr true a k (j / 8) = intAddr false a k (k - 1 - j / 8) := by
      simp only [intAddr, if_true, Bool.false_eq_true, if_false]
      omega
    simp [hbyte, hbit, haddr, hj, show j < 64 by omega, show 8 * (k - 1 - j / 8) + j % 8 < 64 by omega,
      show 8 * (k - 1 - j / 8) + j % 8 < 8 * k by omega]
  · simp [Nat.not_lt.2 hj]

/-- Law (d): one byte is the same number in both orders, the byte itself. -/
theorem ofNat_assemble_one (f : Nat → Byte) (rev : Bool) (a : Nat) :
    BitVec.ofNat 64 (assemble (fun i => f (intAddr rev a 1 i)) 1) = (f a).setWidth 64 := by
  have haddr : intAddr rev a 1 0 = a := by cases rev <;> rfl
  simp only [assemble, haddr, Nat.zero_or, Nat.mul_zero, Nat.shiftLeft_zero]
  exact BitVec.ofNat_toNat 64 (f a)

end Sys2Proof.Machine

namespace Sys2Proof.Proofs

open Sys2Proof.Machine

/-- Settles O18: the checks, then the bits of readField. -/
theorem fieldReads : Obligations.FieldReads := by
  unfold Obligations.FieldReads
  refine ⟨fun n => ⟨decode_opcode_cnt (i := .rdbitsM n) rfl rfl, decode_opcode_cnt (i := .rdbitsL n) rfl rfl⟩,
    fun c o hmem s n hc => ?_⟩
  have he : exec (c n) s = .next (s.unlessConfigFault (s.readBits o n.toNat)) := by
    simp only [List.mem_cons, Prod.mk.injEq, List.not_mem_nil, or_false] at hmem
    rcases hmem with ⟨rfl, rfl⟩ | ⟨rfl, rfl⟩
    · rfl
    · rfl
  obtain ⟨fault, empty, inside⟩ := fieldCommand_ends he hc (s.readBits_cases o n.toNat)
  exact ⟨fault, empty, fun h1 h64 hb => ⟨_, fieldValue_readField o s.buf.read s.latchB.toNat h64, inside h1 h64 hb⟩⟩

/-- Settles O19: the checks, then writeField as O14 has it. -/
theorem fieldWrites : Obligations.FieldWrites := by
  unfold Obligations.FieldWrites
  refine ⟨fun n => ⟨decode_opcode_cnt (i := .wrbitsM n) rfl rfl, decode_opcode_cnt (i := .wrbitsL n) rfl rfl⟩,
    fun c o hmem s n hc => ?_⟩
  have he : exec (c n) s = .next (s.unlessConfigFault (s.writeBits o n.toNat)) := by
    simp only [List.mem_cons, Prod.mk.injEq, List.not_mem_nil, or_false] at hmem
    rcases hmem with ⟨rfl, rfl⟩ | ⟨rfl, rfl⟩
    · rfl
    · rfl
  obtain ⟨fault, empty, inside⟩ := fieldCommand_ends he hc (s.writeBits_cases o n.toNat)
  refine ⟨fault, empty, fun h1 h64 hb => ?_⟩
  obtain ⟨-, written⟩ := fieldPrimitives o s.latchB.toNat n.toNat h64
  exact ⟨_, written s.buf s.latchA, inside h1 h64 hb⟩

/-- Settles O20: (a) and (b) from the bits written, (c) and (d) from the bytes of an aligned field. -/
theorem fieldLaws : Obligations.FieldLaws := by
  unfold Obligations.FieldLaws
  refine ⟨fun rd wr o hmem s n hc hn hb => ?_, fun s k hc hk ha hb => ?_⟩
  · obtain ⟨writeM, writeL⟩ := exec_wrbits_inside hc hn hb
    have read := fun o => exec_rdbits_inside (s := s.fieldWritten o n.toNat) hc hn hb
    simp only [List.mem_cons, Prod.mk.injEq, List.not_mem_nil, or_false] at hmem
    rcases hmem with ⟨rfl, rfl, rfl⟩ | ⟨rfl, rfl, rfl⟩
    · exact field_roundTrip writeM (read _).1
    · exact field_roundTrip writeL (read _).2
  · have hbits : (BitVec.ofNat 7 (8 * k)).toNat = 8 * k := toNat_ofNat_of_lt (by omega)
    have haddr : s.latchB.toNat = 8 * (s.latchB.toNat / 8) := by omega
    obtain ⟨most, least⟩ := exec_rdbits_inside (n := BitVec.ofNat 7 (8 * k)) hc (by omega) (by omega)
    rw [hbits, haddr, readField_most_aligned] at most
    rw [hbits, haddr, readField_least_aligned] at least
    refine ⟨_, _, most, least, rfl, swappedBytes_assemble s.buf.read _ hk, ?_⟩
    rintro rfl
    simp only [State.completeWith_res, ofNat_assemble_one, and_self]

/-- Settles O21: both orders are one copy of bits from BUF as it was. -/
theorem bitCopies : Obligations.BitCopies := by
  unfold Obligations.BitCopies
  refine ⟨⟨by decide, by decide⟩, fun c o hmem s hc => ?_⟩
  simp only [List.mem_cons, Prod.mk.injEq, List.not_mem_nil, or_false] at hmem
  rcases hmem with ⟨rfl, rfl⟩ | ⟨rfl, rfl⟩
  · exact copyBlock_ends rfl hc
  · exact copyBlock_ends rfl hc

end Sys2Proof.Proofs
end

section
/-! The integer, unit-conversion and no-operation commands: their words, how they end, and the laws of the integers
(spec/42_integer.md R201 to R208). -/

namespace Sys2Proof

/-! ### Words of the formats CR and CRS (spec/30_encoding.md R92, R103) -/

/-- The word with the fields of the format CRS alone. -/
theorem Fields.toWord_eq_or_crs (op : BitVec 8) (cnt : BitVec 7) (r g : Bool) :
    Fields.toWord { op := op, cnt := cnt, rev := r, sgn := g, ord := 0, own := false, reserved := 0 } =
      op.setWidth 32 ||| cnt.setWidth 32 <<< 8 ||| (BitVec.ofBool r).setWidth 32 <<< 15
        ||| (BitVec.ofBool g).setWidth 32 <<< 16 := by
  rw [Fields.toWord_eq_or]
  simp

theorem decode_toWord (f : Fields) : decode f.toWord = f.decode := by
  rw [decode, Fields.ofWord_toWord]

/-- A word given by its fields up to S. -/
theorem decode_word_crs (op : BitVec 8) (cnt : BitVec 7) (r g : Bool) :
    decode (op.setWidth 32 ||| cnt.setWidth 32 <<< 8 ||| (BitVec.ofBool r).setWidth 32 <<< 15
        ||| (BitVec.ofBool g).setWidth 32 <<< 16)
      = Fields.decode { op := op, cnt := cnt, rev := r, sgn := g, ord := 0, own := false, reserved := 0 } := by
  rw [← Fields.toWord_eq_or_crs, decode_toWord]

/-- A word given by its OP and S together, and by its CNT and R. -/
theorem decode_word_cr (op : BitVec 8) (cnt : BitVec 7) (r g : Bool) {w : CmdWord}
    (hw : w = op.setWidth 32 ||| (BitVec.ofBool g).setWidth 32 <<< 16) :
    decode (w ||| cnt.setWidth 32 <<< 8 ||| (BitVec.ofBool r).setWidth 32 <<< 15)
      = Fields.decode { op := op, cnt := cnt, rev := r, sgn := g, ord := 0, own := false, reserved := 0 } := by
  have hswap : ∀ a b c d : CmdWord, a ||| d ||| b ||| c = a ||| b ||| c ||| d := fun a b c d => by ac_rfl
  rw [← decode_word_crs, hw, hswap]

/-! ### The opcode of NOP (spec/42_integer.md R207) -/

theorem decode_eq_nop_iff {w : CmdWord} : decode w = .ok .nop ↔ w = 0 := by
  have hword : encode .nop = 0 := by decide
  rw [decode_eq_ok_iff, hword]
  exact ⟨fun ⟨_, h⟩ => h.symm, fun h => ⟨rfl, h.symm⟩⟩

/-- The branch of the opcode map for OP = 0 answers NOP or rejects an unused field. -/
theorem decode_opcode_zero {w : CmdWord} (hw : w ≠ 0) (hop : w.extractLsb' 0 8 = 0) :
    decode w = .error .unusedField := by
  have hbranch : decode w = Instr.nop.ifClean (Fields.ofWord w).onlyOp := by
    rw [decode, Fields.decode, show (Fields.ofWord w).op = 0 from hop]
    rfl
  cases hclean : (Fields.ofWord w).onlyOp with
  | false =>
    rw [hbranch, hclean]
    rfl
  | true =>
    rw [hclean] at hbranch
    exact absurd (decode_eq_nop_iff.1 hbranch) hw

namespace Machine

variable {s : State} {c : Instr}

/-! ### How RDINT and WRINT end -/

/-- RDINT and WRINT check alike: the three ways one of them ends (spec/42_integer.md R201, R202). -/
theorem intCommand_ends {n : Nat} {empty body : State}
    (he : exec c s = .next (s.unlessConfigFault (s.intCommand n empty body))) (hc : s.cfgf = false) :
    (8 < n ∨ (1 ≤ n ∧ s.params.bufBytes < s.latchB.toNat + n) →
      exec c s = .next (s.faulted .range (8 * s.latchB.toNat) (8 * n) (s.roomAt (8 * s.latchB.toNat))))
    ∧ (n = 0 → exec c s = .next empty)
    ∧ (1 ≤ n → n ≤ 8 → s.latchB.toNat + n ≤ s.params.bufBytes → exec c s = .next body) := by
  rw [he, State.unlessConfigFault_off hc]
  rcases s.intCommand_cases n empty body with ⟨h, e⟩ | ⟨h, e⟩ | ⟨h1, h8, hb, e⟩
  · exact ⟨fun _ => congrArg _ (e.trans (s.raise_availBuf _ _)), fun _ => by omega, fun _ _ _ => by omega⟩
  · exact ⟨fun _ => by omega, fun _ => congrArg _ e, fun _ => by omega⟩
  · exact ⟨fun _ => by omega, fun _ => by omega, fun _ _ _ => congrArg _ e⟩

/-! ### The number that RDINT reads -/

/-- The bits of the result of RDINT: those of the bytes combined, then zeros or copies of the top bit
(spec/42_integer.md R201). -/
theorem extendInt_assemble_bit (byte : Nat → Byte) (g : Bool) {n k : Nat} (hn : 1 ≤ n) (hn8 : n ≤ 8) (hk : k < 64) :
    (extendInt g n (assemble byte n)).getLsbD k =
      if k < 8 * n then (byte (k / 8)).getLsbD (k % 8) else (g && (byte (n - 1)).getLsbD 7) := by
  have hclear : ∀ j, 8 * n ≤ j → (assemble byte n).testBit j = false := fun j hj => by
    rw [assemble_testBit]
    simp [Nat.not_lt.2 hj]
  have htop : (assemble byte n).testBit (8 * n - 1) = (byte (n - 1)).getLsbD 7 := by
    rw [assemble_testBit, show (8 * n - 1) / 8 = n - 1 by omega, show (8 * n - 1) % 8 = 7 by omega]
    simp [show 8 * n - 1 < 8 * n by omega]
  rw [extendInt_bit g n _ k hn hn8 hclear hk, htop]
  split
  · rename_i h
    simp [assemble_testBit, h]
  · rfl

/-- Bytes combined that are those of a word give its low bytes. -/
theorem assemble_eq_mod {byte : Nat → Byte} {v : Word} {n : Nat} (h : ∀ i, i < n → byte i = byteOf v i) :
    assemble byte n = v.toNat % 2 ^ (8 * n) := by
  refine Nat.eq_of_testBit_eq fun k => ?_
  rw [assemble_testBit, Nat.testBit_mod_two_pow]
  by_cases hk : k < 8 * n
  · rw [h _ (by omega), byteOf_bit_lt _ _ _ (by omega), Nat.div_add_mod]
    rfl
  · simp [hk]

/-! ### The bytes that WRINT stores -/

theorem intAddr_inj {r : Bool} {a n i j : Nat} (hi : i < n) (hj : j < n) (h : intAddr r a n i = intAddr r a n j) :
    i = j := by
  unfold intAddr at h
  split at h <;> omega

/-- Byte i of the value, at the address of the i-th byte combined (spec/42_integer.md R202). -/
theorem read_storeBytes_intAddr (r : Bool) (a : Nat) (v : Word) {n i : Nat} (m : Memory) (hi : i < n) :
    (m.storeBytes (intAddr r a n) v n).read (intAddr r a n i) = byteOf v i :=
  (read_storeBytes _ v n m 0 fun _ _ => intAddr_inj).1 i hi

/-- Every byte of BUF after the loop of WRINT (spec/42_integer.md R202). -/
theorem read_storeBytes_int_eq_ite (r : Bool) (a : Nat) (v : Word) (n : Nat) (m : Memory) (x : Nat) :
    (m.storeBytes (intAddr r a n) v n).read x =
      if a ≤ x ∧ x < a + n then byteOf v (if r then a + n - 1 - x else x - a) else m.read x := by
  split
  · have haddr : intAddr r a n (if r then a + n - 1 - x else x - a) = x := by
      unfold intAddr
      split <;> omega
    have hlt : (if r then a + n - 1 - x else x - a) < n := by split <;> omega
    conv_lhs => rw [← haddr]
    exact read_storeBytes_intAddr r a v m hlt
  · refine (read_storeBytes _ v n m x fun _ _ => intAddr_inj).2 fun i hi => ?_
    unfold intAddr
    split <;> omega

/-! ### Reading back what was written (spec/42_integer.md R208) -/

/-- Reversing the bytes again gives the word back, if it has no others. -/
theorem SwappedBytes.symm {n : Nat} {v r : Word} (h : SwappedBytes n v r) (hv : v.toNat < 2 ^ (8 * n)) :
    SwappedBytes n r v := by
  intro k
  by_cases hk : k < 8 * n
  · have hlt : 8 * (n - 1 - k / 8) + k % 8 < 8 * n := by omega
    have hback : 8 * (n - 1 - (8 * (n - 1 - k / 8) + k % 8) / 8) + (8 * (n - 1 - k / 8) + k % 8) % 8 = k := by omega
    rw [h _, hback]
    simp [hk, hlt]
  · rw [toNat_lt_two_pow_iff.1 hv k (Nat.not_lt.1 hk)]
    simp [hk]

theorem SwappedBytes.unique {n : Nat} {v r r' : Word} (h : SwappedBytes n v r) (h' : SwappedBytes n v r') : r = r' :=
  BitVec.eq_of_getLsbD_eq fun k _ => (h k).trans (h' k).symm

theorem toNat_ofNat_lt_of_lt {w m n : Nat} (h : m < 2 ^ n) : (BitVec.ofNat w m).toNat < 2 ^ n := by
  rw [BitVec.toNat_ofNat]
  exact (Nat.mod_le _ _).trans_lt h

theorem assemble_lt (byte : Nat → Byte) (n : Nat) : assemble byte n < 2 ^ (8 * n) :=
  Nat.lt_pow_two_of_testBit _ fun k hk => by
    rw [assemble_testBit]
    simp [Nat.not_lt.2 hk]

/-- The numbers that RDINT reads with R and with the other R are byte reversals of each other. -/
theorem swappedBytes_assemble_not (f : Nat → Byte) (r : Bool) (a : Nat) {n : Nat} (hn : n ≤ 8) :
    SwappedBytes n (BitVec.ofNat 64 (assemble (fun i => f (intAddr r a n i)) n))
      (BitVec.ofNat 64 (assemble (fun i => f (intAddr (!r) a n i)) n)) := by
  cases r with
  | false => exact swappedBytes_assemble f a hn
  | true => exact (swappedBytes_assemble f a hn).symm (toNat_ofNat_lt_of_lt (assemble_lt _ n))

/-- `s` after WRINT of n bytes, the size 0 included (spec/42_integer.md R202). -/
def State.intWritten (s : State) (r : Bool) (n : Nat) : State :=
  (s.withBuf (s.buf.storeBytes (intAddr r s.latchB.toNat n) s.latchA n)).complete

/-- WRINT of bytes inside BUF, the size 0 included (spec/42_integer.md R202). -/
theorem exec_wrint_inside {n : BitVec 7} (r : Bool) (hc : s.cfgf = false) (hn : n.toNat ≤ 8)
    (hb : s.latchB.toNat + n.toNat ≤ s.params.bufBytes) : exec (.wrint n r) s = .next (s.intWritten r n.toNat) := by
  obtain ⟨-, empty, inside⟩ := intCommand_ends (c := .wrint n r) rfl hc
  rcases Nat.eq_zero_or_pos n.toNat with h0 | h1
  · rw [empty h0, h0]
    rfl
  · exact inside h1 hn hb

/-- WRINT, then RDINT with the same R and with the other R: the low bytes of the value, and their reversal. -/
theorem exec_wrint_rdint {n : BitVec 7} (r : Bool) (hc : s.cfgf = false) (hn : n.toNat ≤ 8)
    (hb : s.latchB.toNat + n.toNat ≤ s.params.bufBytes) :
    ∃ t v, exec (.wrint n r) s = .next t
      ∧ exec (.rdint n r false) t = .next (t.completeWith (BitVec.ofNat 64 (s.latchA.toNat % 2 ^ (8 * n.toNat))))
      ∧ exec (.rdint n (!r) false) t = .next (t.completeWith v)
      ∧ SwappedBytes n.toNat (BitVec.ofNat 64 (s.latchA.toNat % 2 ^ (8 * n.toNat))) v := by
  have read := fun r' => exec_rdint_inside (s := s.intWritten r n.toNat) r' hc hn hb
  have stored : assemble (fun i => (s.intWritten r n.toNat).buf.read (intAddr r s.latchB.toNat n.toNat i)) n.toNat
      = s.latchA.toNat % 2 ^ (8 * n.toNat) :=
    assemble_eq_mod fun i hi => read_storeBytes_intAddr r _ s.latchA s.buf hi
  rw [← stored]
  exact ⟨_, _, exec_wrint_inside r hc hn hb, read r, read (!r), swappedBytes_assemble_not _ r _ hn⟩

/-- A byte swap of the low n bytes of OPA is what RDINT reads back with the other R. -/
theorem exec_wrint_rdint_bswp {n : BitVec 7} (r : Bool) (hswap : Reverses c id n.toNat) (hc : s.cfgf = false)
    (hn : n.toNat ≤ 8) (hb : s.latchB.toNat + n.toNat ≤ s.params.bufBytes) :
    ∃ t v w, exec (.wrint n r) s = .next t ∧ exec (.rdint n (!r) false) t = .next v
      ∧ exec c { s with latchA := BitVec.ofNat 64 (s.latchA.toNat % 2 ^ (8 * n.toNat)) } = .next w
      ∧ w.fcode = .ok ∧ v.res = w.res := by
  obtain ⟨t, v, write, -, read, hv⟩ := exec_wrint_rdint r hc hn hb
  have hlow : (BitVec.ofNat 64 (s.latchA.toNat % 2 ^ (8 * n.toNat))).toNat < 2 ^ (8 * n.toNat) :=
    toNat_ofNat_lt_of_lt (Nat.mod_lt _ (Nat.two_pow_pos _))
  obtain ⟨w, hw, swap⟩ := hswap.exec_of_lt
    (s := { s with latchA := BitVec.ofNat 64 (s.latchA.toNat % 2 ^ (8 * n.toNat)) }) hc hlow
  exact ⟨t, _, _, write, read, swap, rfl, hv.unique hw.swappedBytes⟩

/-! ### The unit conversions (spec/42_integer.md R203 to R206) -/

/-- The ceiling is the one number whose multiple is less than one step above the dividend (spec/00_scope.md R14). -/
theorem ceilDiv_bounds (x : Nat) {k : Nat} (hk : 0 < k) : x ≤ k * ceilDiv x k ∧ k * ceilDiv x k < x + k := by
  have hdiv := Nat.div_add_mod (x + k - 1) k
  have hmod := Nat.mod_lt (x + k - 1) hk
  unfold ceilDiv
  omega

theorem ceilDiv_le (x : Nat) {k : Nat} (hk : 0 < k) : ceilDiv x k ≤ x := by
  refine Nat.le_of_lt_succ (Nat.lt_of_mul_lt_mul_left (a := k) ?_)
  calc k * ceilDiv x k < x + k := (ceilDiv_bounds x hk).2
    _ ≤ k * x + k := Nat.add_le_add_right (Nat.le_mul_of_pos_left x hk) k

/-- B2BY and BY2W: the ceiling, which fits in RES. -/
theorem exec_ceilDiv {k : Nat} (hk : 0 < k)
    (he : exec c s = .next (s.unlessConfigFault (s.completeWith (BitVec.ofNat 64 (ceilDiv s.latchA.toNat k)))))
    (hc : s.cfgf = false) :
    ∃ r : Word, s.latchA.toNat ≤ k * r.toNat ∧ k * r.toNat < s.latchA.toNat + k
      ∧ exec c s = .next (s.endedWith r) := by
  obtain ⟨hle, hlt⟩ := ceilDiv_bounds s.latchA.toNat hk
  have hfit : ceilDiv s.latchA.toNat k < 2 ^ 64 := (ceilDiv_le _ hk).trans_lt s.latchA.isLt
  refine ⟨BitVec.ofNat 64 (ceilDiv s.latchA.toNat k), ?_, ?_, ?_⟩
  · rwa [toNat_ofNat_of_lt hfit]
  · rwa [toNat_ofNat_of_lt hfit]
  · rw [he, State.unlessConfigFault_off hc]
    rfl

/-- BY2B and W2BY: the product, or RangeFault where it does not fit in RES. -/
theorem exec_scale_ends {k : Nat} (he : exec c s = .next (s.unlessConfigFault (s.scaleCommand k))) (hc : s.cfgf = false) :
    (2 ^ 64 - 1 < s.latchA.toNat * k → exec c s = .next (s.faulted .range 0 s.latchA.toNat ((2 ^ 64 - 1) / k)))
    ∧ (s.latchA.toNat * k ≤ 2 ^ 64 - 1 →
        ∃ r : Word, r.toNat = s.latchA.toNat * k ∧ exec c s = .next (s.endedWith r)) := by
  rw [he, State.unlessConfigFault_off hc]
  rcases s.scaleCommand_cases k with ⟨h, e⟩ | ⟨h, e⟩
  · exact ⟨fun _ => congrArg _ e, fun _ => by omega⟩
  · exact ⟨fun _ => by omega, fun _ => ⟨_, toNat_ofNat_of_lt (Nat.lt_of_le_pred (by decide) h), congrArg _ e⟩⟩

end Machine

end Sys2Proof

namespace Sys2Proof.Proofs

open Sys2Proof.Machine

/-- Settles O22: the checks, then the bits of the bytes combined and of their extension. -/
theorem integerReads : Obligations.IntegerReads := by
  unfold Obligations.IntegerReads
  refine ⟨decode_word_crs 0x30, fun s n r g hc => ?_⟩
  obtain ⟨fault, empty, inside⟩ := intCommand_ends (c := .rdint n r g) rfl hc
  refine ⟨fault, empty, fun h1 h8 hb => ⟨_, fun k hk => ?_, inside h1 h8 hb⟩⟩
  exact extendInt_assemble_bit (fun i => s.buf.read (intAddr r s.latchB.toNat n.toNat i)) g h1 h8 hk

/-- Settles O23: the checks, then the bytes that the loop stores. -/
theorem integerWrites : Obligations.IntegerWrites := by
  unfold Obligations.IntegerWrites
  refine ⟨fun n r => ⟨decode_word_cr 0x31 n r false (by decide), decode_word_cr 0x31 n r true (by decide)⟩,
    fun s n r hc => ?_⟩
  obtain ⟨fault, empty, inside⟩ := intCommand_ends (c := .wrint n r) rfl hc
  exact ⟨fault, empty, fun h1 h8 hb => ⟨_, read_storeBytes_int_eq_ite r _ s.latchA n.toNat s.buf, inside h1 h8 hb⟩⟩

/-- Settles O24: (a) and (b) by reading back what was written, (c) since a word has one byte reversal. -/
theorem integerLaws : Obligations.IntegerLaws := by
  unfold Obligations.IntegerLaws
  refine ⟨fun s n r hc hn hb => ?_, fun n c hmem s r hc hb => ?_⟩
  · obtain ⟨t, v, write, same, other, hv⟩ := exec_wrint_rdint r hc hn hb
    refine ⟨t, _, _, write, same, other, rfl, ?_, rfl, hv⟩
    exact toNat_ofNat_of_lt ((Nat.mod_le _ _).trans_lt s.latchA.isLt)
  · simp only [List.mem_cons, Prod.mk.injEq, List.not_mem_nil, or_false] at hmem
    rcases hmem with ⟨rfl, rfl⟩ | ⟨rfl, rfl⟩ | ⟨rfl, rfl⟩
    · exact exec_wrint_rdint_bswp r reverses_bswpS hc (by decide) hb
    · exact exec_wrint_rdint_bswp r reverses_bswpI hc (by decide) hb
    · exact exec_wrint_rdint_bswp r reverses_bswpL hc (by decide) hb

/-- Settles O26: two ceilings and two checked products. -/
theorem unitConversions : Obligations.UnitConversions := by
  unfold Obligations.UnitConversions
  refine ⟨⟨by decide, by decide, by decide, by decide⟩, fun s hc => ?_⟩
  have hpos : 0 < s.params.wordBytes.toNat := by cases s.params.wordBytes <;> decide
  obtain ⟨overB, fitB⟩ := exec_scale_ends (c := .by2b) (k := 8) rfl hc
  obtain ⟨overW, fitW⟩ := exec_scale_ends (c := .w2by) (k := s.params.wordBytes.toNat) rfl hc
  rw [Nat.mul_comm _ 8] at overB fitB
  exact ⟨exec_ceilDiv (by decide) rfl hc, exec_ceilDiv hpos rfl hc, overB, fitB, overW, fitW⟩

/-- Settles O27: the word 0 is NOP's encoding, and its opcode has no other clean word. -/
theorem nopResult : Obligations.NopResult := by
  unfold Obligations.NopResult
  exact ⟨decode_eq_nop_iff.2 rfl, fun _ hw => mt decode_eq_nop_iff.1 hw, fun _ => decode_opcode_zero, fun _ =>
    ⟨fun hc => congrArg Host.Outcome.next (State.unlessConfigFault_off hc),
      fun hc => congrArg Host.Outcome.next (State.unlessConfigFault_on hc)⟩⟩

end Sys2Proof.Proofs
end

section
/-! SYS_BYTE_ORDER, which no command looks at (spec/42_integer.md R200). -/

namespace Sys2Proof.Machine

/-- `s` with another SYS_BYTE_ORDER among its parameters, and all else the same. -/
def State.withByteOrder (b : Option ByteOrder) (s : State) : State :=
  { s with params := { s.params with sysByteOrder := b } }

/-- No command reads SYS_BYTE_ORDER, and none writes the parameters. -/
theorem neutral_withByteOrder (i : Instr) (b : Option ByteOrder) : Neutral i (State.withByteOrder b) := by
  constructor <;> (intros; rfl)

end Sys2Proof.Machine

namespace Sys2Proof.Proofs

open Sys2Proof.Machine

/-- Settles O51: a change that no command looks at commutes with every command. -/
theorem byteOrderIrrelevant : Obligations.ByteOrderIrrelevant := by
  unfold Obligations.ByteOrderIrrelevant
  exact fun _ _ i b h => exec_neutral (neutral_withByteOrder i b) h

end Sys2Proof.Proofs
end

section
/-! Every step keeps the cache a window of the source's bytes (spec/43_reader.md R236 (a)), turn by turn: the host's accesses and
reset do not touch the reader, and a step of a command keeps the law for an answer with the source's own bytes. -/

namespace Sys2Proof.Machine

variable {S : Nat → Byte} {s t : State}

/-- The window law is about the reader alone. -/
theorem State.windowOf.of_reader (w : s.windowOf S) (h : t.reader = s.reader) : t.windowOf S :=
  fun r hr => w r (h ▸ hr)

/-! ### What leaves the reader -/

theorem State.perform_reader {a : HostAccess} (h : s.perform a = .next t) : t.reader = s.reader := by
  rcases State.perform_cases h with ⟨v, -, rfl⟩ | ⟨k, v, -, -, -, rfl⟩ | ⟨k, v, -, -, rfl⟩ | ⟨x, b, -, -, rfl⟩
    | ⟨x, -, -, rfl⟩
  · rfl
  · unfold State.writeReg
    split <;> rfl
  · rfl
  · rfl
  · rfl

theorem State.race_reader {o : RaceOutcome} {a : HostAccess} (h : s.race o a = .next t) : t.reader = s.reader := by
  rcases State.race_cases h with ⟨x, -, rfl⟩ | ⟨d, -, rfl⟩ | ⟨m, -, h⟩
  · rfl
  · rfl
  · exact (State.perform_reader h :)

/-- The host has no access to the reader (spec/10_state.md R22). -/
theorem State.hostTurn_reader {a : HostAccess} (h : s.hostTurn a = .next t) : t.reader = s.reader := by
  unfold State.hostTurn at h
  split at h
  next v =>
    split at h
    next => injection h with h; subst h; rfl
    next => exact State.perform_reader h
  next =>
    split at h
    next => exact (State.race_reader h :)
    next => exact State.perform_reader h

theorem State.settle_reader (s : State) (w : Nat → Bool) : (s.settle w).reader = s.reader := by
  obtain ⟨m, out, e, -, -⟩ := s.settle_spec w
  rw [e]

/-! ### The step of the running command -/

/-- A step of a command keeps the window law, where the answer on the port fits into the cache and has the source's bytes. -/
theorem Leaves.windowOf {i : Instr} (h : Leaves i s t) (hp : s.params.legal) (ok : s.readerOk) (fits : s.answerFits)
    (w : s.windowOf S) (own : s.answerOf S) : t.windowOf S := by
  have left : ∀ {r}, ReaderLeft i s r → ∀ c, r = some c → c.window S := fun ⟨_, hr⟩ c hc => (hr hp ok fits c hc).2 S w own
  cases h with
  | fault => exact w.of_reader rfl
  | short => exact w.of_reader rfl
  | ends m v r out hm hr => exact left hr
  | asks m r done req hm hr => exact left hr
  | stays => exact w

theorem Inv.windowOf_commandStep {p : Port} (h : Inv s) (hp : s.RunsWith p) (w : s.windowOf S)
    (own : State.answerOf S { s with port := p }) (e : State.commandStep { s with port := p } = .next t) :
    t.windowOf S := by
  unfold State.commandStep at e
  split at e
  next => injection e with e; exact w.of_reader (e ▸ rfl)
  next =>
    split at e
    next => injection e with e; exact w.of_reader (e ▸ rfl)
    next i hi => exact (leaves_of_exec e).windowOf h.params h.reader (h.answerFits hp) w own

theorem Inv.windowOf_runCommand {p : Port} (h : Inv s) (hp : s.RunsWith p) (w : s.windowOf S)
    (own : State.answerOf S { s with port := p }) (e : State.runCommand { s with port := p } = .next t) :
    t.windowOf S := by
  obtain ⟨u, hu, hrun⟩ := State.runCommand_next { s with port := p }
  have wu := h.windowOf_commandStep hp w own hu
  rw [hrun] at e
  injection e with e
  subst e
  split
  next => exact wu
  next => exact wu.of_reader (u.settle_reader _)

/-! ### The turns -/

theorem Inv.windowOf_ownTurn (h : Inv s) (w : s.windowOf S) (e : s.ownTurn = .next t) : t.windowOf S := by
  unfold State.ownTurn at e
  split at e
  next =>
    unfold State.blockTurn at e
    split at e
    next => injection e with e; exact e ▸ w
    next hp =>
      refine h.windowOf_runCommand .start w nofun ?_
      rw [← hp]
      exact e
    next hp => exact absurd hp h.not_answered
  next =>
    split at e
    next => injection e with e; exact e ▸ w
    next => injection e with e; exact w.of_reader (e ▸ rfl)

/-- The turn of an answer that, where it is one of bytes, has the source's bytes at SRC_POS. -/
theorem Inv.windowOf_answerTurn {n : Nat} {a : SrcAnswer} (h : Inv s) (w : s.windowOf S)
    (own : ∀ bs, a = .bytes bs → ∀ r, s.reader = some r → ∀ j, j < bs.length → bs.getD j 0 = S (r.srcPos + j))
    (e : s.answerTurn n a = .next t) : t.windowOf S := by
  unfold State.answerTurn at e
  split at e
  next req hw =>
    split at e
    next => injection e with e; exact e ▸ w
    next =>
      split at e
      next ha => exact h.windowOf_runCommand (.answer hw ha) w (fun k mode bs hb => own bs (by injection hb)) e
      next => cases e
  next => injection e with e; exact e ▸ w
  next => injection e with e; exact e ▸ w

end Sys2Proof.Machine

namespace Sys2Proof.Proofs

open Sys2Proof.Machine

/-- Settles O42, by the turn that the step takes. -/
theorem windowKept : Obligations.WindowKept := by
  unfold Obligations.WindowKept
  intro S s t h w own e
  cases hin : s.inputs with
  | nil =>
    rw [step_unscheduled hin] at e
    exact h.windowOf_ownTurn w e
  | cons x rest =>
    have hpop : Inv { s with inputs := rest } := h.withHostSide s.opa s.opb s.opc s.held rest s.replies s.draws
    cases x with
    | run =>
      rw [step_run hin] at e
      exact hpop.windowOf_ownTurn w e
    | host a =>
      rw [step_host hin] at e
      exact w.of_reader (State.hostTurn_reader e :)
    | answer n a =>
      rw [step_answer hin] at e
      refine hpop.windowOf_answerTurn w (fun bs ha => ?_) e
      subst ha
      rw [State.answersFrom, hin] at own
      exact own
    | reset contents =>
      rw [step_reset hin] at e
      injection e with e
      subst e
      exact nofun

end Sys2Proof.Proofs
end

section
/-! The reader commands that ensure no bits: RD.OPEN, RD.CLOSE, RD.FILL, RD.AVAIL, RD.REMAIN and RD.SEEK, by their checks and by
what is on the port (spec/43_reader.md R240 to R244, R247). -/

namespace Sys2Proof

/-- The word with the fields of the format OW alone (spec/30_encoding.md R92, R96, R103). -/
theorem decode_word_ow (ord : BitVec 2) (own : Bool) :
    decode (0x80 ||| ord.setWidth 32 <<< 17 ||| (BitVec.ofBool own).setWidth 32 <<< 19)
      = Fields.decodeOpen { op := 0x80, cnt := 0, rev := false, sgn := false, ord := ord, own := own, reserved := 0 } := by
  have hword : Fields.toWord { op := 0x80, cnt := 0, rev := false, sgn := false, ord := ord, own := own, reserved := 0 }
      = 0x80 ||| ord.setWidth 32 <<< 17 ||| (BitVec.ofBool own).setWidth 32 <<< 19 := by
    rw [Fields.toWord_eq_or]
    simp
  rw [← hword, decode_toWord]
  rfl

namespace Machine

variable {c : Instr} {s : State} {r : Reader}

/-- A reader command with a reader open goes on to its own checks (spec/43_reader.md R239). -/
theorem exec_ifOpen {body : Reader → State} (he : exec c s = .next (s.unlessConfigFault (s.ifOpen body)))
    (hc : s.cfgf = false) (hr : s.reader = some r) : exec c s = .next (body r) := by
  rw [he, State.unlessConfigFault_off hc, State.ifOpen_some hr]

/-! ### RD.OPEN (spec/43_reader.md R240) -/

section Open

variable {ord : BitVec 2} {own : Bool} {o : BitOrder}

/-- The order that RD.OPEN gives the reader, where SYS_BIT_ORDER is known (spec/30_encoding.md R96). -/
theorem openOrder_known {p : Params} (ho : p.sysBitOrder = some o) (ord : BitVec 2) :
    openOrder p ord = some (if ord = 0 then o else if ord = 1 then .mostSignificant else .leastSignificant) := by
  unfold openOrder
  split
  · exact ho
  · split <;> rfl

theorem exec_rdOpen_opened (hc : s.cfgf = false) (hr : s.reader.isSome = true) :
    exec (.rdOpen ord own) s = .next s.raiseIllegal :=
  congrArg Host.Outcome.next ((State.unlessConfigFault_off hc).trans (if_pos (.inr hr)))

theorem not_illegal_of_closed (hord : ord ≠ 3) (hr : s.reader = none) : ¬(ord = 3 ∨ s.reader.isSome = true) := by
  rw [hr]
  exact not_or.2 ⟨hord, nofun⟩

theorem exec_rdOpen_above (hc : s.cfgf = false) (hord : ord ≠ 3) (hr : s.reader = none)
    (h : s.params.cacheMax < s.latchA.toNat) :
    exec (.rdOpen ord own) s = .next (s.raise .range 0 s.latchA.toNat s.params.cacheMax) :=
  congrArg Host.Outcome.next
    ((State.unlessConfigFault_off hc).trans ((if_neg (not_illegal_of_closed hord hr)).trans (if_pos h)))

theorem exec_rdOpen_idle (hc : s.cfgf = false) (hord : ord ≠ 3) (ho : s.params.sysBitOrder = some o) (hr : s.reader = none)
    (h : s.latchA.toNat ≤ s.params.cacheMax) (hp : s.port = .idle) :
    exec (.rdOpen ord own) s = .next (s.await .position) := by
  refine congrArg Host.Outcome.next ((State.unlessConfigFault_off hc).trans
    ((if_neg (not_illegal_of_closed hord hr)).trans ((if_neg (Nat.not_lt.2 h)).trans ?_)))
  rw [openOrder_known ho, hp]

theorem exec_rdOpen_answered {q : Option Nat} (hc : s.cfgf = false) (hord : ord ≠ 3) (ho : s.params.sysBitOrder = some o)
    (hr : s.reader = none) (h : s.latchA.toNat ≤ s.params.cacheMax) (hp : s.port = .answered .position (.position q)) :
    exec (.rdOpen ord own) s = .next (s.withReader (Reader.fresh own
      (if ord = 0 then o else if ord = 1 then .mostSignificant else .leastSignificant) s.latchA.toNat q)).complete := by
  refine congrArg Host.Outcome.next ((State.unlessConfigFault_off hc).trans
    ((if_neg (not_illegal_of_closed hord hr)).trans ((if_neg (Nat.not_lt.2 h)).trans ?_)))
  rw [openOrder_known ho, hp]
  rfl

end Open

/-! ### RD.CLOSE (spec/43_reader.md R241) -/

theorem exec_rdClose_closed (hc : s.cfgf = false) (hr : s.reader = none) : exec .rdClose s = .next s.complete := by
  refine congrArg Host.Outcome.next ((State.unlessConfigFault_off hc).trans ?_)
  rw [hr]

theorem exec_rdClose_opened (hc : s.cfgf = false) (hr : s.reader = some r) :
    exec .rdClose s
      = .next { s.complete with reader := none, sent := if r.own then .close :: s.sent else s.sent } := by
  refine congrArg Host.Outcome.next ((State.unlessConfigFault_off hc).trans ?_)
  rw [hr]

/-! ### RD.FILL (spec/43_reader.md R242) -/

/-- Recycling with the cursor in the first byte of the cache changes nothing. -/
theorem Reader.recycle_of_byteIdx_zero (h : r.byteIdx = 0) : r.recycle = r := by
  cases r
  cases h
  rfl

theorem exec_rdFill_idle (hc : s.cfgf = false) (hr : s.reader = some r) (hp : s.port = .idle) :
    exec .rdFill s = .next
      (if 0 < r.recycle.cap - r.recycle.clen then
        (s.withReader r.recycle).await (.read (r.recycle.cap - r.recycle.clen) .poll)
      else (s.withReader r.recycle).completeWith (BitVec.ofNat 64 r.recycle.avail)) := by
  have hrec : (if 0 < r.byteIdx then r.recycle else r) = r.recycle := by
    split
    next => rfl
    next h => exact (Reader.recycle_of_byteIdx_zero (Nat.eq_zero_of_not_pos h)).symm
  rw [exec_ifOpen rfl hc hr, hp]
  simp only [hrec]

theorem exec_rdFill_answered {n : Nat} {bs : List Byte} (hc : s.cfgf = false) (hr : s.reader = some r)
    (hp : s.port = .answered (.read n .poll) (.bytes bs)) :
    exec .rdFill s
      = .next ((s.withReader (r.absorb bs)).completeWith (BitVec.ofNat 64 (r.absorb bs).avail)) := by
  rw [exec_ifOpen rfl hc hr, hp]

/-! ### RD.AVAIL and RD.REMAIN (spec/43_reader.md R243, R244) -/

theorem exec_rdAvail_opened (hc : s.cfgf = false) (hr : s.reader = some r) :
    exec .rdAvail s = .next (s.completeWith (BitVec.ofNat 64 r.avail)) := by
  rw [exec_ifOpen rfl hc hr]

theorem exec_rdRemain_idle (hc : s.cfgf = false) (hr : s.reader = some r) (hp : s.port = .idle) :
    exec .rdRemain s = .next (s.await .length) := by
  rw [exec_ifOpen rfl hc hr, hp]

theorem exec_rdRemain_answered {l : Option Nat} (hc : s.cfgf = false) (hr : s.reader = some r)
    (hp : s.port = .answered .length (.length l)) : exec .rdRemain s = .next (s.completeWith (remaining r l)) := by
  rw [exec_ifOpen rfl hc hr, hp]

/-- The truncated difference is the difference, at least 0 (spec/43_reader.md R244). -/
theorem remaining_some (r : Reader) (l : Nat) :
    remaining r (some l) = BitVec.ofInt 64 (min (2 ^ 64 - 1) (max 0 (8 * (l : Int) - (r.abs : Int)))) := by
  have hcast : (min (2 ^ 64 - 1) (max 0 (8 * (l : Int) - (r.abs : Int))))
      = ((min (2 ^ 64 - 1) (8 * l - r.abs) : Nat) : Int) := by omega
  rw [hcast, BitVec.ofInt_natCast]
  rfl

/-! ### RD.SEEK (spec/43_reader.md R247) -/

theorem exec_rdSeek_range (hc : s.cfgf = false) (hr : s.reader = some r)
    (h : s.seekTarget r < 0 ∨ 2 ^ 64 - 1 < s.seekTarget r / 8) :
    exec .rdSeek s = .next (s.raise .range r.abs s.latchA.toNat r.avail) := by
  rw [exec_ifOpen rfl hc hr]
  exact congrArg Host.Outcome.next (if_pos h)

section Seek

variable {t : Nat}

theorem exec_rdSeek_within (hc : s.cfgf = false) (hr : s.reader = some r) (ht : s.seekTarget r = t) (h64 : t / 8 < 2 ^ 64)
    (h : r.inWindow t = true) : exec .rdSeek s = .next (s.withReader (r.moveTo t)).complete := by
  rw [exec_ifOpen rfl hc hr]
  have hrange : ¬((t : Int) < 0 ∨ 2 ^ 64 - 1 < (t : Int) / 8) := by omega
  simp only [ht, if_neg hrange, Int.toNat_natCast, h, if_true]

theorem exec_rdSeek_idle (hc : s.cfgf = false) (hr : s.reader = some r) (ht : s.seekTarget r = t) (h64 : t / 8 < 2 ^ 64)
    (h : r.inWindow t = false) (hp : s.port = .idle) : exec .rdSeek s = .next (s.await (.seek (t / 8))) := by
  rw [exec_ifOpen rfl hc hr]
  have hrange : ¬((t : Int) < 0 ∨ 2 ^ 64 - 1 < (t : Int) / 8) := by omega
  simp only [ht, if_neg hrange, Int.toNat_natCast, h, Bool.false_eq_true, if_false, hp]

theorem exec_rdSeek_answered {q : Nat} {ok : Bool} (hc : s.cfgf = false) (hr : s.reader = some r) (ht : s.seekTarget r = t)
    (h64 : t / 8 < 2 ^ 64) (h : r.inWindow t = false) (hp : s.port = .answered (.seek q) (.seek ok)) :
    exec .rdSeek s = .next
      (if ok then (s.withReader (r.jumpTo t)).complete else s.raise .range r.abs s.latchA.toNat r.avail) := by
  rw [exec_ifOpen rfl hc hr]
  have hrange : ¬((t : Int) < 0 ∨ 2 ^ 64 - 1 < (t : Int) / 8) := by omega
  simp only [ht, if_neg hrange, Int.toNat_natCast, h, Bool.false_eq_true, if_false, hp, State.uA]

end Seek

end Machine

end Sys2Proof

namespace Sys2Proof.Proofs

open Sys2Proof.Machine

/-- Settles O29: the word by its fields, the checks in order, then the request and its answer. -/
theorem openReader : Obligations.OpenReader := by
  unfold Obligations.OpenReader
  refine ⟨decode_word_ow, fun s ord own o hc hord ho => ⟨exec_rdOpen_opened hc, exec_rdOpen_above hc hord,
    exec_rdOpen_idle hc hord ho, fun q hr h hp => ?_⟩⟩
  rw [exec_rdOpen_answered hc hord ho hr h hp]
  cases q <;> rfl

/-- Settles O30: the registers of a reader that is not open read 0. -/
theorem closeReader : Obligations.CloseReader := by
  unfold Obligations.CloseReader
  exact ⟨decodeOfEncode .rdClose rfl, fun s hc => ⟨exec_rdClose_closed hc, fun r hr =>
    ⟨_, exec_rdClose_opened hc hr, rfl, rfl, rfl, rfl, rfl⟩⟩⟩

/-- Settles O31: recycling and the free space in the first step, the answer's bytes in the other. -/
theorem fillReader : Obligations.FillReader := by
  unfold Obligations.FillReader
  refine ⟨decodeOfEncode .rdFill rfl, fun s r hc hr ok => ⟨fun hp hlt => ?_, fun hp hfull => ?_,
    fun n bs hp => exec_rdFill_answered hc hr hp⟩⟩
  · rw [exec_rdFill_idle hc hr hp]
    exact congrArg Host.Outcome.next (if_pos (Nat.sub_pos_of_lt hlt))
  · rw [exec_rdFill_idle hc hr hp, Reader.avail_recycle ok]
    exact congrArg Host.Outcome.next (if_neg (Nat.not_lt.2 (Nat.sub_eq_zero_of_le hfull.ge).le))

/-- Settles O32: each request by its answer; the result of RD.REMAIN is a truncated difference. -/
theorem availAndRemain : Obligations.AvailAndRemain := by
  unfold Obligations.AvailAndRemain
  refine ⟨decodeOfEncode .rdAvail rfl, decodeOfEncode .rdRemain rfl, fun s r hc hr =>
    ⟨exec_rdAvail_opened hc hr, exec_rdRemain_idle hc hr, exec_rdRemain_answered hc hr, fun l hp => ?_⟩⟩
  rw [exec_rdRemain_answered hc hr hp, remaining_some]
  rfl

/-- Settles O38: the range of the target, then the window, then the request and its answer. -/
theorem seekReader : Obligations.SeekReader := by
  unfold Obligations.SeekReader
  refine ⟨decodeOfEncode .rdSeek rfl, fun s r hc hr => ⟨fun t ht h => ?_, fun t ht h64 => ⟨fun hlo hhi => ?_, fun h => ?_⟩⟩⟩
  · refine exec_rdSeek_range hc hr ?_
    rw [State.seekTarget, State.sA, ← ht]
    omega
  · exact exec_rdSeek_within hc hr ht.symm h64 (decide_eq_true ⟨hlo, hhi⟩)
  · have hout : r.inWindow t = false := decide_eq_false fun ⟨hlo, hhi⟩ => by
      unfold Reader.w0 Reader.clen at hlo
      omega
    exact ⟨exec_rdSeek_idle hc hr ht.symm h64 hout, fun q =>
      ⟨exec_rdSeek_answered hc hr ht.symm h64 hout, exec_rdSeek_answered hc hr ht.symm h64 hout⟩⟩

end Sys2Proof.Proofs
end

section
/-! The commands that ensure bits, RD.PEEK, RD.READ and RD.ALIGN: in their first step and at an answer, and that what they return is
the source's own (spec/43_reader.md R232 to R238, R245, R246, R248). -/

namespace Sys2Proof.Machine

variable {i c : Instr} {s t : State} {r : Reader} {n : Nat}

/-! ### What is common to the three commands -/

/-- What a command does once the n bits it has ensured are cached in `r` (spec/43_reader.md R245, R246, R248). -/
def State.withEnsured (i : Instr) (n : Nat) (s : State) (r : Reader) : State :=
  match i with
  | .rdPeek _ rv => (s.withReader r).completeWith (BitVec.ofNat 64 (r.field (effectiveOrder r.order rv) n))
  | .rdRead _ rv => (s.withReader (r.advance n)).completeWith (BitVec.ofNat 64 (r.field (effectiveOrder r.order rv) n))
  | _ => (s.withReader (r.advance n)).complete

/-- The commands that ensure bits, and how many (spec/43_reader.md R245, R246, R248). -/
theorem ensuredBits_cases (h : ensuredBits i r = some n) :
    (∃ m : BitVec 7, n = m.toNat ∧ 1 ≤ n ∧ n ≤ 64 ∧ ∃ rv, i = .rdPeek m rv ∨ i = .rdRead m rv)
    ∨ (i = .rdAlign ∧ r.bitIdx ≠ 0 ∧ n = 8 - r.bitIdx) := by
  unfold ensuredBits at h
  split at h
  case h_1 m rv =>
    obtain ⟨⟨h1, h64⟩, rfl⟩ := (Option.ite_none_right_eq_some.1 h).imp_right Option.some.inj
    exact .inl ⟨m, rfl, h1, h64, rv, .inl rfl⟩
  case h_2 m rv =>
    obtain ⟨⟨h1, h64⟩, rfl⟩ := (Option.ite_none_right_eq_some.1 h).imp_right Option.some.inj
    exact .inl ⟨m, rfl, h1, h64, rv, .inr rfl⟩
  case h_3 =>
    obtain ⟨h0, rfl⟩ := (Option.ite_none_left_eq_some.1 h).imp_right Option.some.inj
    exact .inr ⟨rfl, h0, rfl⟩
  case h_4 => cases h

theorem ensuredBits_le (h : ensuredBits i r = some n) : n ≤ 64 := by
  rcases ensuredBits_cases h with ⟨m, -, -, h64, -⟩ | ⟨-, -, rfl⟩
  · exact h64
  · omega

theorem ensuredBits_pos {p : Params} (ok : r.ok p) (h : ensuredBits i r = some n) : 1 ≤ n := by
  obtain ⟨hbit, -⟩ := ok
  rcases ensuredBits_cases h with ⟨m, -, h1, -, -⟩ | ⟨-, -, rfl⟩
  · exact h1
  · omega

theorem ensuredBits_rdPeek {m : BitVec 7} (rv : Bool) (h1 : 1 ≤ m.toNat) (h64 : m.toNat ≤ 64) :
    ensuredBits (.rdPeek m rv) r = some m.toNat := if_pos ⟨h1, h64⟩

theorem ensuredBits_rdRead {m : BitVec 7} (rv : Bool) (h1 : 1 ≤ m.toNat) (h64 : m.toNat ≤ 64) :
    ensuredBits (.rdRead m rv) r = some m.toNat := if_pos ⟨h1, h64⟩

theorem ensuredBits_rdAlign (h : r.bitIdx ≠ 0) : ensuredBits .rdAlign r = some (8 - r.bitIdx) := if_neg h

/-- RD.PEEK and RD.READ without a field to read: RangeFault, and the count 0 (spec/43_reader.md R245, R246). -/
theorem readerField_ends {rv : Bool} {move : Reader → Reader}
    (he : exec c s = .next (s.unlessConfigFault (s.readerField n rv move))) (hc : s.cfgf = false)
    (hr : s.reader = some r) :
    (64 < n → exec c s = .next (s.faulted .range r.abs n r.avail)) ∧ (n = 0 → exec c s = .next (s.endedWith 0)) := by
  rw [exec_ifOpen he hc hr]
  exact ⟨fun h => congrArg Host.Outcome.next (if_pos h),
    fun h => congrArg Host.Outcome.next ((if_neg (by omega)).trans (if_pos h))⟩

/-- RD.PEEK and RD.READ of a field (spec/43_reader.md R245, R246). -/
theorem exec_readerField {rv : Bool} {move : Reader → Reader}
    (he : exec c s = .next (s.unlessConfigFault (s.readerField n rv move))) (hc : s.cfgf = false)
    (hr : s.reader = some r) (h1 : 1 ≤ n) (h64 : n ≤ 64) :
    exec c s = .next (s.afterEnsure r n n fun c =>
      (s.withReader (move c)).completeWith (BitVec.ofNat 64 (c.field (effectiveOrder c.order rv) n))) := by
  rw [exec_ifOpen he hc hr]
  exact congrArg Host.Outcome.next ((if_neg (by omega)).trans (if_neg (by omega)))

/-- A command that ensures bits (spec/43_reader.md R232). -/
theorem exec_ensured (hc : s.cfgf = false) (hr : s.reader = some r) (h : ensuredBits i r = some n) :
    exec i s = .next (s.afterEnsure r n n (s.withEnsured i n)) := by
  rcases ensuredBits_cases h with ⟨m, rfl, h1, h64, rv, rfl | rfl⟩ | ⟨rfl, h0, rfl⟩
  · exact exec_readerField rfl hc hr h1 h64
  · exact exec_readerField rfl hc hr h1 h64
  · rw [exec_ifOpen rfl hc hr]
    exact congrArg Host.Outcome.next (if_neg h0)

/-- In the first step, with the bits cached: no request (spec/43_reader.md R232). -/
theorem exec_ensured_cached {p : Params} (hc : s.cfgf = false) (hr : s.reader = some r) (ok : r.ok p) (hp : s.port = .idle)
    (h : ensuredBits i r = some n) (ha : n ≤ r.avail) : exec i s = .next (s.withEnsured i n r) := by
  rw [exec_ensured hc hr h, State.afterEnsure_idle hp, Reader.ensure_cached ok (ensuredBits_pos ok h) ha]
  rfl

/-- What ensure(n) makes of a reader that does not hold the bits (spec/43_reader.md R232 to R236). -/
theorem Reader.ensure_asks {p : Params} (ok : r.ok p) (hp : p.legal) (h1 : 1 ≤ n) (h64 : n ≤ 64) (ha : r.avail < n) :
    ∃ c, r.ensure n = .request c (c.cap - c.clen) ∧ EnsuredFor p n r c := by
  rcases Reader.ensure_spec ok (.inr hp) h1 h64 with ⟨hle, -⟩
    | ⟨-, c, e, okc, -, room, habs, hav, hsrc, hbit, hown, hord, hcap, hfit, -⟩
  · omega
  · refine ⟨c, e, okc, hcap, room, ?_, hbit, hsrc, hown, hord, habs, hav⟩
    rcases hfit with ⟨hle, hcache, hidx⟩ | ⟨hlt, hcache, hidx⟩
    · exact (if_pos hle).mpr ⟨hcache, hidx⟩
    · exact (if_neg (Nat.not_le.2 hlt)).mpr ⟨hcache, hidx⟩

/-- In the first step, with bits missing: one request for the free space (spec/43_reader.md R232, R235). -/
theorem exec_ensured_asks (hc : s.cfgf = false) (hl : s.params.legal) (hr : s.reader = some r) (ok : r.ok s.params)
    (hp : s.port = .idle) (h : ensuredBits i r = some n) (ha : r.avail < n) :
    ∃ c, EnsuredFor s.params n r c
      ∧ exec i s = .next ((s.withReader c).await (.read (c.cap - c.clen) .blocking)) := by
  obtain ⟨c, e, hens⟩ := Reader.ensure_asks ok hl (ensuredBits_pos ok h) (ensuredBits_le h) ha
  refine ⟨c, hens, ?_⟩
  rw [exec_ensured hc hr h, State.afterEnsure_idle hp, e]
  rfl

/-- At the answer of the request (spec/43_reader.md R232, R235). -/
theorem exec_ensured_answered {k : Nat} {bs : List Byte} (hc : s.cfgf = false) (hr : s.reader = some r)
    (hp : s.port = .answered (.read k .blocking) (.bytes bs)) (hbs : bs ≠ []) (h : ensuredBits i r = some n) :
    exec i s = .next (if (r.absorb bs).holds n = true then s.withEnsured i n (r.absorb bs)
      else (s.withReader (r.absorb bs)).await (.read ((r.absorb bs).cap - (r.absorb bs).clen) .blocking)) := by
  rw [exec_ensured hc hr h, State.afterEnsure_answered hp, if_neg hbs]

/-- A field of the cache in RES (spec/43_reader.md R237). -/
theorem Reader.fieldValue_field (r : Reader) (o : BitOrder) (hn : n ≤ 64) :
    FieldValue o n (fun j => bitGet o r.byteAt (r.cursor + j)) (BitVec.ofNat 64 (r.field o n)) :=
  fieldValue_readField o r.byteAt r.cursor hn

/-! ### What is read is the source's own (spec/43_reader.md R236 (c)) -/

variable {S : Nat → Byte}

/-- A cached bit behind the cursor is the source's bit at the same distance from ABS. -/
theorem Reader.bitGet_window (w : r.window S) (o : BitOrder) {j : Nat} (h : r.bitIdx + j < 8 * (r.clen - r.byteIdx)) :
    bitGet o r.byteAt (r.cursor + j) = bitGet o S (r.abs + j) := by
  have habs : r.abs + j = 8 * r.w0 + (r.cursor + j) := by unfold Reader.abs Reader.cursor; omega
  refine bitGet_congr o (by omega) ?_
  rw [w _ (by unfold Reader.cursor; omega), habs, Nat.mul_add_div (by decide)]

/-- A field of the cache is the field of the source at ABS. -/
theorem Reader.fieldValue_field_window (w : r.window S) (o : BitOrder) (hn : n ≤ 64) (hh : r.holds n = true) :
    FieldValue o n (fun j => bitGet o S (r.abs + j)) (BitVec.ofNat 64 (r.field o n)) :=
  (r.fieldValue_field o hn).congr fun j hj => Reader.bitGet_window w o (by
    have := (r.holds_iff n).1 hh
    omega)

/-- What the statements say of the port: nothing on it, or an answer that fits into the cache and has the source's bytes. -/
theorem State.answer_of_port {first : Prop} (hr : s.reader = some r)
    (h : (s.port = .idle ∧ first) ∨ ∃ k bs, s.port = .answered (.read k .blocking) (.bytes bs)
      ∧ bs.length ≤ r.cap - r.cache.length ∧ ∀ j, j < bs.length → bs.getD j 0 = S (r.srcPos + j)) :
    s.answerFits ∧ s.answerOf S := by
  rcases h with ⟨hp, -⟩ | ⟨k, bs, hp, hlen, hbs⟩
  · exact ⟨fun n mode bs hb => by simp [hp] at hb, fun n mode bs hb => by simp [hp] at hb⟩
  · refine ⟨fun n mode bs' hb r' hr' => ?_, fun n mode bs' hb r' hr' => ?_⟩
    · cases hp.symm.trans hb
      cases hr.symm.trans hr'
      exact hlen
    · cases hp.symm.trans hb
      cases hr.symm.trans hr'
      exact hbs

/-- A command that ends OK has ensured its bits in a window of the source whose cursor is where it was in the stream. -/
theorem State.afterEnsure_ended {fcnt : Nat} {k : Reader → State} (hr : s.reader = some r) (ok : r.ok s.params)
    (w : r.window S) (own : s.answerOf S) (hs : s.busy = true)
    (e : s.afterEnsure r n fcnt k = t) (ht : t.busy = false) (hf : t.fcode = .ok) :
    ∃ c, c.window S ∧ c.abs = r.abs ∧ c.order = r.order ∧ c.holds n = true ∧ t = k c := by
  rcases s.afterEnsure_cases r n fcnt k with ⟨c, hc, hh, e'⟩ | ⟨c, m, e', -⟩ | ⟨m, -, e'⟩ | ⟨-, -, e'⟩
  · refine ⟨c, ?_, ?_, ?_, hh, e.symm.trans e'⟩
    all_goals rcases hc with ⟨-, rfl⟩ | ⟨m, bs, hp, -, rfl⟩
    · exact Reader.window_grow n w
    · exact Reader.window_absorb ok w (own m _ bs hp r hr)
    · exact r.abs_grow n
    · exact Reader.abs_absorb bs ok
    · exact r.grow_order n
    · rfl
  · rw [← e, e'] at ht
    cases hs.symm.trans ht
  · rw [← e, e'] at hf
    cases hf
  · rw [← e, e'] at ht
    cases hs.symm.trans ht

end Sys2Proof.Machine

namespace Sys2Proof.Proofs

open Sys2Proof.Machine

/-- Settles O33: the checks, then a field that needs no request. -/
theorem peekAndRead : Obligations.PeekAndRead := by
  unfold Obligations.PeekAndRead
  refine ⟨fun n rv => ⟨decode_word_cr 0x85 n rv false (by decide), decode_word_cr 0x86 n rv false (by decide)⟩,
    fun s r n rv hc hr ok => ?_⟩
  obtain ⟨peekAbove, peekZero⟩ := readerField_ends (c := .rdPeek n rv) rfl hc hr
  obtain ⟨readAbove, readZero⟩ := readerField_ends (c := .rdRead n rv) rfl hc hr
  refine ⟨fun h => ⟨peekAbove h, readAbove h⟩, fun h => ⟨peekZero h, readZero h⟩, fun h1 h64 ha hp =>
    ⟨_, r.fieldValue_field (effectiveOrder r.order rv) h64, ?_,
      exec_ensured_cached hc hr ok hp (ensuredBits_rdRead rv h1 h64) ha⟩⟩
  rw [exec_ensured_cached hc hr ok hp (ensuredBits_rdPeek rv h1 h64) ha, State.withEnsured, State.withReader_self hr]
  rfl

/-- Settles O39: the bits up to the next byte are cached where the cursor's byte is. -/
theorem alignReader : Obligations.AlignReader := by
  unfold Obligations.AlignReader
  refine ⟨decodeOfEncode .rdAlign rfl, fun s r hc hr ok => ⟨fun h0 => ?_, fun h1 hb hp => ?_⟩⟩
  · rw [exec_ifOpen rfl hc hr]
    exact congrArg Host.Outcome.next (if_pos h0)
  · obtain ⟨hbit, -⟩ := id ok
    have hav := Reader.avail_add_bitIdx ok hb
    have hmoved : r.advance (8 - r.bitIdx) = { r with byteIdx := r.byteIdx + 1, bitIdx := 0 } := by
      rw [Reader.advance, Nat.add_sub_cancel' (by omega)]
    unfold Reader.clen at hav
    rw [exec_ensured_cached hc hr ok hp (ensuredBits_rdAlign (by omega)) (by omega)]
    exact congrArg (fun c => Host.Outcome.next (s.withReader c).complete) hmoved

/-- Settles O35: the answer's bytes are appended, and the bits are then cached or not. -/
theorem answerGoesOn : Obligations.AnswerGoesOn := by
  unfold Obligations.AnswerGoesOn
  intro s r i n k bs hc hr hp hbs h
  have answered := exec_ensured_answered hc hr hp hbs h
  have hholds : (r.absorb bs).holds n = true ↔ r.bitIdx + n ≤ 8 * ((r.absorb bs).cache.length - r.byteIdx) :=
    Reader.holds_iff _ n
  refine ⟨fun hmiss => ?_, fun hcached => ?_⟩
  · rw [answered, if_neg (hholds.not.2 (Nat.not_le.2 hmiss))]
    rfl
  · rw [if_pos (hholds.2 hcached)] at answered
    refine ⟨fun m rv => ⟨_, (r.absorb bs).fieldValue_field (effectiveOrder r.order rv) (ensuredBits_le h), ?_, ?_⟩, ?_⟩
    all_goals rintro rfl; exact answered

/-- Settles O37: RangeFault is no OK ending, an empty field is 0, and any other is read in a window of the source. -/
theorem peekReadSource : Obligations.PeekReadSource := by
  unfold Obligations.PeekReadSource
  intro S s t r n rv i hc hs hl hr ok w hport hi e ht hf
  obtain ⟨-, own⟩ := State.answer_of_port hr (hport.imp_left fun hp => ⟨hp, trivial⟩)
  have ends : (64 < n.toNat → exec i s = .next (s.faulted .range r.abs n.toNat r.avail))
      ∧ (n.toNat = 0 → exec i s = .next (s.endedWith 0)) := by
    rcases hi with rfl | rfl
    · exact readerField_ends rfl hc hr
    · exact readerField_ends rfl hc hr
  obtain ⟨above, zero⟩ := ends
  rcases Nat.lt_or_ge 64 n.toNat with h | h64
  · cases e.symm.trans (above h)
    cases hf
  rcases Nat.eq_zero_or_pos n.toNat with h0 | h1
  · cases e.symm.trans (zero h0)
    rw [h0]
    exact ⟨fieldValue_readField _ S r.abs (Nat.zero_le 64), r, hr, by simp⟩
  · have hens : ensuredBits i r = some n.toNat := by
      rcases hi with rfl | rfl
      · exact ensuredBits_rdPeek rv h1 h64
      · exact ensuredBits_rdRead rv h1 h64
    rw [exec_ensured hc hr hens] at e
    injection e with e
    obtain ⟨c, wc, habs, hord, hh, rfl⟩ := State.afterEnsure_ended hr ok (w r hr) own hs e ht hf
    have field := Reader.fieldValue_field_window wc (effectiveOrder c.order rv) h64 hh
    rw [habs] at field
    dsimp only
    rw [← hord]
    rcases hi with rfl | rfl
    · exact ⟨field, c, rfl, (if_pos rfl).symm ▸ habs⟩
    · exact ⟨field, c.advance n.toNat, rfl, by rw [if_neg nofun, Reader.abs_advance, habs]⟩

end Sys2Proof.Proofs
end

section
/-! RD.COPYOUT: its checks, the loop over its chunks in the first step and at an answer, and that what it copies is the source's own
(spec/43_reader.md R249, R236, spec/60_exceptions.md R311). -/

namespace Sys2Proof.Machine

variable {s t : State} {r : Reader}

/-! ### The checks, and how a step of it begins -/

theorem exec_rdCopyout_zero (hc : s.cfgf = false) (hr : s.reader = some r) (h : s.latchA.toNat = 0) :
    exec .rdCopyout s = .next (s.endedWith 0) := by
  rw [exec_ifOpen rfl hc hr]
  exact congrArg Host.Outcome.next (if_pos h)

theorem exec_rdCopyout_outside (hc : s.cfgf = false) (hr : s.reader = some r) (h1 : 1 ≤ s.latchA.toNat)
    (hb : 8 * s.params.bufBytes < s.latchB.toNat + s.latchA.toNat) :
    exec .rdCopyout s = .next (s.faulted .range s.latchB.toNat s.latchA.toNat (s.roomAt s.latchB.toNat)) := by
  rw [exec_ifOpen rfl hc hr, ← s.raise_availBuf]
  exact congrArg Host.Outcome.next ((if_neg (Nat.ne_of_gt h1)).trans (State.ifInBuf_out hb))

/-- A count above 0 and a destination inside BUF pass the checks. -/
theorem State.copyout_checked {empty body : State} (h1 : 1 ≤ s.latchA.toNat)
    (hb : s.latchB.toNat + s.latchA.toNat ≤ 8 * s.params.bufBytes) :
    (if s.uA = 0 then empty else s.ifInBuf s.uB s.uA body) = body :=
  (if_neg (Nat.ne_of_gt h1)).trans (State.ifInBuf_in hb)

section Inside

variable (hc : s.cfgf = false) (hr : s.reader = some r) (h1 : 1 ≤ s.latchA.toNat)
  (hb : s.latchB.toNat + s.latchA.toNat ≤ 8 * s.params.bufBytes)

include hc hr h1 hb

/-- The first step: the loop over all chunks (spec/43_reader.md R249). -/
theorem exec_rdCopyout_idle (hp : s.port = .idle) :
    exec .rdCopyout s = .next (State.copyChunks s.latchA.toNat s.latchB.toNat ((s.latchA.toNat + 63) / 64) r
      { s with copied := 0 }) := by
  rw [exec_ifOpen rfl hc hr]
  refine congrArg Host.Outcome.next ((State.copyout_checked h1 hb).trans ?_)
  rw [hp]
  rfl

/-- The end of the source (spec/43_reader.md R249). -/
theorem exec_rdCopyout_endOfData {k : Nat} (hp : s.port = .answered (.read k .blocking) (.bytes [])) :
    exec .rdCopyout s = .next (State.raise { s with res := BitVec.ofNat 64 s.copied } .endOfData r.abs
      (s.latchA.toNat - s.copied) r.avail) := by
  rw [exec_ifOpen rfl hc hr]
  refine congrArg Host.Outcome.next ((State.copyout_checked h1 hb).trans ?_)
  rw [hp]
  rfl

/-- An answer after which bits of the next chunk are still missing (spec/43_reader.md R232, R249). -/
theorem exec_rdCopyout_missing {k : Nat} {bs : List Byte} (hp : s.port = .answered (.read k .blocking) (.bytes bs))
    (hbs : bs ≠ []) (hh : (r.absorb bs).holds (s.chunk s.latchA.toNat) = false) :
    exec .rdCopyout s
      = .next ((s.withReader (r.absorb bs)).await (.read ((r.absorb bs).cap - (r.absorb bs).clen) .blocking)) := by
  have htop : (r.absorb bs).topUp (s.chunk s.uA) = .request (r.absorb bs) ((r.absorb bs).cap - (r.absorb bs).clen) :=
    if_neg (Bool.eq_false_iff.1 hh)
  rw [exec_ifOpen rfl hc hr]
  refine congrArg Host.Outcome.next ((State.copyout_checked h1 hb).trans ?_)
  rw [hp]
  dsimp only
  rw [if_neg (by simpa using hbs), htop]
  rfl

/-- An answer after which the next chunk is cached goes on with the loop over the chunks that are left
(spec/43_reader.md R249). -/
theorem exec_rdCopyout_cached {k : Nat} {bs : List Byte} {p : Params}
    (hp : s.port = .answered (.read k .blocking) (.bytes bs)) (hbs : bs ≠ []) (ok : (r.absorb bs).ok p)
    (hlt : s.copied < s.latchA.toNat) (hh : (r.absorb bs).holds (s.chunk s.latchA.toNat) = true) :
    exec .rdCopyout s = .next (State.copyChunks s.latchA.toNat s.latchB.toNat ((s.latchA.toNat - s.copied + 63) / 64)
      (r.absorb bs) (s.withReader (r.absorb bs))) := by
  have hpos : 1 ≤ s.chunk s.latchA.toNat := by unfold State.chunk; omega
  have htop : (r.absorb bs).topUp (s.chunk s.uA) = .ready (r.absorb bs) := if_pos hh
  have hens : (r.absorb bs).ensure (s.chunk s.latchA.toNat) = .ready (r.absorb bs) :=
    Reader.ensure_cached ok hpos ((Reader.holds_iff_avail ok hpos).1 hh)
  have hcount : (s.latchA.toNat - s.copied + 63) / 64 = (s.latchA.toNat - s.copied - s.chunk s.latchA.toNat + 63) / 64 + 1 := by
    unfold State.chunk
    omega
  have hchunk : (s.withReader (r.absorb bs)).chunk s.latchA.toNat = s.chunk s.latchA.toNat := rfl
  rw [hcount, State.copyChunks, hchunk, hens, exec_ifOpen rfl hc hr]
  refine congrArg Host.Outcome.next ((State.copyout_checked h1 hb).trans ?_)
  rw [hp]
  dsimp only
  rw [if_neg (by simpa using hbs), htop]
  rfl

end Inside

/-! ### How much is cached -/

theorem Reader.avail_advance {p : Params} (ok : r.ok p) {n : Nat} (h : n ≤ r.avail) :
    (r.advance n).avail = r.avail - n := by
  obtain ⟨h1, h2, h3, h4, h5, h6⟩ := ok
  simp only [Reader.avail, Reader.clen_advance, Reader.advance_byteIdx, Reader.advance_bitIdx] at h ⊢
  split at h <;> split <;> omega

/-! ### What is copied is the source's own (spec/43_reader.md R236 (c)) -/

variable {S : Nat → Byte}

/-- The step from `s`, with the reader `r`, to `t` copies a run of the bits of `S` from ABS on to the next positions of BUF, and
then waits, having copied whole chunks, or ends, with the number of bits copied in RES (spec/43_reader.md R249). -/
def CopiesRun (S : Nat → Byte) (r : Reader) (s t : State) : Prop :=
  ∃ (c : Reader) (done : Nat), t.reader = some c ∧ s.copied ≤ done ∧ done ≤ s.latchA.toNat
    ∧ c.abs = r.abs + (done - s.copied)
    ∧ BitsReplaced r.order (s.latchB.toNat + s.copied) (done - s.copied) (fun j => bitGet r.order S (r.abs + j)) s.buf t.buf
    ∧ (t.busy = true → t.copied = done ∧ done < s.latchA.toNat ∧ done % 64 = 0
        ∧ t.port = .waiting (.read (c.cap - c.cache.length) .blocking))
    ∧ (t.busy = false → t.res = BitVec.ofNat 64 done
        ∧ (t.fcode = .ok ∧ done = s.latchA.toNat ∨ t.fcode = .endOfData ∧ done < s.latchA.toNat ∧ done % 64 = 0))

/-- The loop over the chunks that are left, with a reader `c` in the place of `r`. -/
theorem CopiesRun.copyChunks {c : Reader} (hs : s.busy = true) (hl : s.params.legal) (ok : c.ok s.params) (w : c.window S)
    (habs : c.abs = r.abs) (hord : c.order = r.order) (hlt : s.copied < s.latchA.toNat) (h64 : s.copied % 64 = 0) :
    CopiesRun S r s (State.copyChunks s.latchA.toNat s.latchB.toNat ((s.latchA.toNat - s.copied + 63) / 64) c
      (s.withReader c)) := by
  obtain ⟨m, x, done, hle, hn, hcached, hbits, -, hx, -, hend⟩ := State.copyChunks_spec (n := s.latchA.toNat)
    (d := s.latchB.toNat) (chunks := (s.latchA.toNat - s.copied + 63) / 64) (s := s.withReader c) ok (.inr hl) rfl hlt.le
    (.inr h64) rfl
  have source : BitsReplaced r.order (s.latchB.toNat + s.copied) (done - s.copied)
      (fun j => bitGet r.order S (r.abs + j)) s.buf m := by
    rw [← habs, ← hord]
    refine hbits.congr fun j hj => Reader.bitGet_window w c.order ?_
    rw [State.withReader_copied] at hj hcached
    have := hcached (by omega)
    omega
  rcases hend with ⟨rfl, -, e⟩ | ⟨hdn, hd64, -, -, -, e⟩
  · rw [e]
    exact ⟨x, _, rfl, hle, hn, habs ▸ hx, source, nofun, fun _ => ⟨rfl, .inl ⟨rfl, rfl⟩⟩⟩
  · rw [e]
    exact ⟨x, done, rfl, hle, hn, habs ▸ hx, source, fun _ => ⟨rfl, hdn, hd64, rfl⟩, fun ht => by cases hs.symm.trans ht⟩

/-- A step that copies nothing: it waits for more, or has met the end of the source. -/
theorem CopiesRun.none {c : Reader} (hbuf : t.buf = s.buf) (hc : t.reader = some c) (habs : c.abs = r.abs)
    (hlt : s.copied < s.latchA.toNat) (h64 : s.copied % 64 = 0)
    (hwait : t.busy = true → t.copied = s.copied ∧ t.port = .waiting (.read (c.cap - c.cache.length) .blocking))
    (hend : t.busy = false → t.res = BitVec.ofNat 64 s.copied ∧ t.fcode = .endOfData) : CopiesRun S r s t := by
  refine ⟨c, s.copied, hc, Nat.le_refl _, hlt.le, by omega, ?_, fun h => ?_, fun h => ?_⟩
  · rw [Nat.sub_self, hbuf]
    exact BitsReplaced.refl ..
  · obtain ⟨hcop, hport⟩ := hwait h
    exact ⟨hcop, hlt, h64, hport⟩
  · obtain ⟨hres, hf⟩ := hend h
    exact ⟨hres, .inr ⟨hf, hlt, h64⟩⟩

end Sys2Proof.Machine

namespace Sys2Proof.Proofs

open Sys2Proof.Machine

/-- Settles O40: with all bits cached, the loop over the chunks ends. -/
theorem copyoutCached : Obligations.CopyoutCached := by
  unfold Obligations.CopyoutCached
  refine ⟨decodeOfEncode .rdCopyout rfl, fun s r hc hr ok => ⟨exec_rdCopyout_zero hc hr, exec_rdCopyout_outside hc hr,
    fun h1 hb ha hp => ?_⟩⟩
  obtain ⟨m, c, done, -, -, -, hbits, -, -, -, hend⟩ := State.copyChunks_spec (n := s.latchA.toNat)
    (d := s.latchB.toNat) (s := { s with copied := 0 }) ok (.inl ha) hr (Nat.zero_le _) (.inr rfl) rfl
  rcases hend with ⟨rfl, rfl, e⟩ | ⟨-, -, hmiss, -⟩
  · exact ⟨m, hbits, (exec_rdCopyout_idle hc hr h1 hb hp).trans (congrArg Host.Outcome.next e)⟩
  · exact absurd ha (Nat.not_le.2 hmiss)

/-- Settles O34: what ensure asks for; and RD.COPYOUT, whose loop stops at the first chunk that is not cached. -/
theorem ensureAsks : Obligations.EnsureAsks := by
  unfold Obligations.EnsureAsks
  refine ⟨fun s r i n hc hl hr ok hp h ha => exec_ensured_asks hc hl hr ok hp h ha, fun s r hc hl hr ok hp => ?_⟩
  intro n d done hb ha
  obtain ⟨m, c, done', -, hn, hcached, hbits, -, -, -, hend⟩ := State.copyChunks_spec (n := n)
    (d := d) (s := { s with copied := 0 }) ok (.inr hl) hr (Nat.zero_le _) (.inr rfl) rfl
  have havail : done' ≤ r.avail := by
    rcases Nat.eq_zero_or_pos done' with h0 | hpos
    · omega
    · exact (Reader.le_avail_iff ok hpos).2 (hcached hpos)
  rcases hend with ⟨rfl, -, -⟩ | ⟨-, h64, -, hnext, hens, e⟩
  · omega
  · simp only [Nat.sub_zero] at hnext hens
    rw [Reader.avail_advance ok havail] at hnext
    obtain rfl : done' = done := by omega
    exact ⟨c, m, hens, hbits, (exec_rdCopyout_idle hc hr (by omega) hb hp).trans (congrArg Host.Outcome.next e)⟩

/-- Settles O41: the loop in the first step and after an answer that caches the next chunk; else nothing is copied. -/
theorem copyoutSource : Obligations.CopyoutSource := by
  unfold Obligations.CopyoutSource
  intro S s t r hc hl hs hr ok w n d h1 hb hlt h64 hport e
  change CopiesRun S r s t
  obtain ⟨fits, own⟩ := State.answer_of_port hr hport
  rcases hport with ⟨hp, h0⟩ | ⟨k, bs, hp, -, -⟩
  · have hself : { s with copied := 0 } = s.withReader r := by
      rw [State.withReader_self hr, ← h0]
    rw [exec_rdCopyout_idle hc hr h1 hb hp, hself] at e
    injection e with e
    have loop := CopiesRun.copyChunks hs hl ok (w r hr) rfl rfl hlt h64
    rw [h0] at loop
    exact e ▸ loop
  · by_cases hbs : bs = []
    · subst hbs
      rw [exec_rdCopyout_endOfData hc hr h1 hb hp] at e
      injection e with e
      subst e
      exact .none rfl hr rfl hlt h64 nofun fun _ => ⟨rfl, rfl⟩
    have oka := Reader.ok_absorb ok (fits k _ bs hp r hr)
    have habs := Reader.abs_absorb bs ok
    cases hh : (r.absorb bs).holds (s.chunk s.latchA.toNat) with
    | false =>
      rw [exec_rdCopyout_missing hc hr h1 hb hp hbs hh] at e
      injection e with e
      subst e
      exact .none rfl rfl habs hlt h64 (fun _ => ⟨rfl, rfl⟩) fun ht => by cases hs.symm.trans ht
    | true =>
      rw [exec_rdCopyout_cached hc hr h1 hb hp hbs oka hlt hh] at e
      injection e with e
      exact e ▸ CopiesRun.copyChunks hs hl oka (Reader.window_absorb ok (w r hr) (own k _ bs hp r hr)) habs rfl hlt h64

end Sys2Proof.Proofs
end

section
/-! Completion, faults and waiting: the block's turn at a command that faults before it runs or has no answer yet; and, from what a
step of a command can leave, how it ends or goes on (spec/60_exceptions.md R301 to R315, spec/70_reset_and_hazards.md R351, R357). -/

namespace Sys2Proof.Machine

variable {i c : Instr} {s t : State} {r : Reader}

/-! ### The turns of a command that has started (spec/60_exceptions.md R301, R305, R315) -/

/-- The block's turn at an accepted command, whatever its word (spec/70_reset_and_hazards.md R351). -/
theorem State.ownTurn_started (hb : s.busy = true) (hp : s.port = .idle) : s.ownTurn = s.runCommand := by
  unfold State.ownTurn State.blockTurn
  rw [if_pos hb, hp]

/-- The block makes no step while a request has no answer (spec/60_exceptions.md R315). -/
theorem State.ownTurn_waiting {req : SrcRequest} (hb : s.busy = true) (hp : s.port = .waiting req) :
    s.ownTurn = .next s := by
  unfold State.ownTurn State.blockTurn
  rw [if_pos hb, hp]

/-- An answer to another request than the outstanding one is ignored (spec/70_reset_and_hazards.md R340). -/
theorem State.answerTurn_ignores {req : SrcRequest} {n : Nat} (hp : s.port = .waiting req) (hn : n ≠ s.sent.length)
    (a : SrcAnswer) : s.answerTurn n a = .next s := by
  unfold State.answerTurn
  rw [hp]
  exact if_pos hn

/-- ConfigurationFault comes before any decoding (spec/60_exceptions.md R301, R312). -/
theorem State.commandStep_configuration (hc : s.cfgf = true) : s.commandStep = .next s.raiseConfiguration :=
  if_pos hc

/-- A word that is no command (spec/60_exceptions.md R305). -/
theorem State.commandStep_undecodable {e : DecodeError} (hc : s.cfgf = false) (he : decode s.cmd = .error e) :
    s.commandStep = .next s.raiseIllegal := by
  unfold State.commandStep
  rw [hc, he]
  rfl

/-- With no racing access left to its end, the turn of a command that faults is the fault and nothing more
(spec/60_exceptions.md R307). -/
theorem State.ownTurn_raises {f : FCode} {a b d : Nat} (hb : s.busy = true) (hp : s.port = .idle) (hr : s.raced = [])
    (h : s.commandStep = .next (s.raise f a b d)) : s.ownTurn = .next (s.raise f a b d) := by
  rw [State.ownTurn_started hb hp, State.runCommand, h, State.finish_ended rfl]
  exact congrArg Host.Outcome.next (State.settle_none _ hr)

/-! ### Reader commands without a reader (spec/43_reader.md R239) -/

theorem exec_ifOpen_closed {body : Reader → State} (he : exec c s = .next (s.unlessConfigFault (s.ifOpen body)))
    (hc : s.cfgf = false) (hr : s.reader = none) : exec c s = .next s.raiseIllegal := by
  rw [he, State.unlessConfigFault_off hc, State.ifOpen_none hr]

theorem exec_reader_closed (hc : s.cfgf = false) (hr : s.reader = none) (hi : isReaderCommand i = true)
    (hopen : ∀ ord own, i ≠ .rdOpen ord own) (hclose : i ≠ .rdClose) : exec i s = .next s.raiseIllegal := by
  cases i with
  | rdOpen ord own => exact absurd rfl (hopen ord own)
  | rdClose => exact absurd rfl hclose
  | rdFill | rdAvail | rdRemain | rdPeek | rdRead | rdSeek | rdAlign | rdCopyout => exact exec_ifOpen_closed rfl hc hr
  | _ => cases hi

/-! ### How a step of a command ends or goes on (spec/60_exceptions.md R307, R311) -/

theorem MayRaise.ne_ok {f : FCode} (h : MayRaise i s f) : f ≠ .ok := by
  rcases h with ⟨rfl, -⟩ | rfl | ⟨rfl, -⟩ | ⟨rfl, -⟩ <;> nofun

/-- EndOfDataFault comes of an empty answer to a command that reads (spec/60_exceptions.md R303). -/
theorem MayRaise.of_endOfData (h : MayRaise i s .endOfData) :
    (∃ k, s.port = .answered (.read k .blocking) (.bytes []))
      ∧ (i = .rdCopyout ∨ ∃ r n, s.reader = some r ∧ ensuredBits i r = some n) := by
  rcases h with ⟨h, -⟩ | h | ⟨h, -⟩ | ⟨-, h⟩
  · cases h
  · cases h
  · cases h
  · exact h

/-- The three ways a running command ends: OK, with a fault alone, and RD.COPYOUT at the end of the source, which writes RES
(spec/60_exceptions.md R307, R311, spec/43_reader.md R249). -/
theorem Leaves.ended_cases (h : Leaves i s t) (hs : s.busy = true) (ht : t.busy = false) :
    (t.fcode = .ok ∧ t.foff = s.foff ∧ t.fcnt = s.fcnt ∧ t.favail = s.favail)
    ∨ (∃ f a b d, MayRaise i s f ∧ t = s.raise f a b d)
    ∨ (i = .rdCopyout ∧ (∃ k, s.port = .answered (.read k .blocking) (.bytes []))
      ∧ ∃ v a b d, t = State.raise { s with res := v } .endOfData a b d) := by
  cases h with
  | fault f a b d hf => exact .inr (.inl ⟨f, a, b, d, hf, rfl⟩)
  | short a b d v hi hp => exact .inr (.inr ⟨hi, hp, v, a, b, d, rfl⟩)
  | ends => exact .inl ⟨rfl, rfl, rfl, rfl⟩
  | asks => cases hs.symm.trans ht
  | stays => cases hs.symm.trans ht

/-- In its first step a command ends, or it is a reader command that has sent one request of its own and waits for the answer
(spec/60_exceptions.md R307, spec/70_reset_and_hazards.md R351). -/
theorem Leaves.ends_or_waits (h : Leaves i s t) (hs : s.busy = true) (hp : s.port = .idle) :
    t.busy = false ∧ t.port = .idle
    ∨ t.busy = true ∧ isReaderCommand i = true ∧ t.fcode = s.fcode ∧ t.foff = s.foff ∧ t.fcnt = s.fcnt
      ∧ t.favail = s.favail ∧ t.res = s.res
      ∧ ∃ req, t.port = .waiting req ∧ awaits i req = true ∧ t.sent = req :: s.sent := by
  cases h with
  | fault => exact .inl ⟨rfl, rfl⟩
  | short => exact .inl ⟨rfl, rfl⟩
  | ends => exact .inl ⟨rfl, rfl⟩
  | asks m r done req hm hr hi ha => exact .inr ⟨hs, hi, rfl, rfl, rfl, rfl, rfl, req, rfl, ha, rfl⟩
  | stays hn => exact absurd hp hn

/-- The end of the source at a command that ensures bits (spec/60_exceptions.md R303). -/
theorem exec_ensured_endOfData {n k : Nat} (hc : s.cfgf = false) (hr : s.reader = some r)
    (hp : s.port = .answered (.read k .blocking) (.bytes [])) (h : ensuredBits i r = some n) :
    exec i s = .next (s.raise .endOfData r.abs n r.avail) := by
  rw [exec_ensured hc hr h, State.afterEnsure_answered hp, if_pos rfl]

end Sys2Proof.Machine

namespace Sys2Proof.Proofs

open Sys2Proof.Machine

/-- Settles O36: the empty answer at each command that reads; and, of the ways a command ends, the two with this fault. -/
theorem endOfData : Obligations.EndOfData := by
  unfold Obligations.EndOfData
  refine ⟨fun s r i n k => exec_ensured_endOfData, fun s r k hc hr hp h1 hb => exec_rdCopyout_endOfData hc hr h1 hb hp,
    fun s t i hs e ht hf => ?_⟩
  rcases (leaves_of_exec e).ended_cases hs ht with ⟨hok, -⟩ | ⟨f, a, b, d, hm, rfl⟩ | ⟨hi, hp, -⟩
  · cases hok.symm.trans hf
  · obtain rfl : f = .endOfData := hf
    exact hm.of_endOfData
  · exact ⟨hp, .inl hi⟩

/-- Settles O47, from what a step of a command can leave. -/
theorem commandEndsOrWaits : Obligations.CommandEndsOrWaits := by
  unfold Obligations.CommandEndsOrWaits
  intro s i hs hp
  obtain ⟨t, e, h⟩ := exec_leaves i s
  exact ⟨t, e, h.ends_or_waits hs hp⟩

/-- Settles O48, by the three ways a command ends. -/
theorem faultChangesNothingElse : Obligations.FaultChangesNothingElse := by
  unfold Obligations.FaultChangesNothingElse
  intro s t i hs e ht
  rcases (leaves_of_exec e).ended_cases hs ht with ⟨hok, context⟩ | ⟨f, a, b, d, hm, rfl⟩
    | ⟨hi, -, v, a, b, d, rfl⟩
  · exact ⟨fun _ => context, fun hf => absurd hok hf⟩
  · exact ⟨fun hf => absurd hf hm.ne_ok, fun _ => ⟨rfl, fun _ => rfl⟩⟩
  · exact ⟨nofun, fun _ => ⟨rfl, fun hn => absurd ⟨hi, rfl⟩ hn⟩⟩

/-- Settles O45: the fault comes before decoding, in the block's turn, scheduled or not. -/
theorem configurationFault : Obligations.ConfigurationFault := by
  unfold Obligations.ConfigurationFault
  refine ⟨fun s hc hb hp hr h => ?_, fun s rest hc hb hp hr h => ?_⟩
  · rw [step_unscheduled h]
    exact State.ownTurn_raises hb hp hr (State.commandStep_configuration hc)
  · rw [step_run h]
    exact State.ownTurn_raises (s := { s with inputs := rest }) hb hp hr (State.commandStep_configuration hc)

/-- Settles O46: a word that does not decode, in the block's turn; and the reader commands by whether a reader is open. -/
theorem illegalCommand : Obligations.IllegalCommand := by
  unfold Obligations.IllegalCommand
  refine ⟨fun s e hc hb hp hr he => ⟨fun h => ?_, fun rest h => ?_⟩, fun s i => exec_reader_closed,
    fun s ord own => exec_rdOpen_opened⟩
  · rw [step_unscheduled h]
    exact State.ownTurn_raises hb hp hr (State.commandStep_undecodable hc he)
  · rw [step_run h]
    exact State.ownTurn_raises (s := { s with inputs := rest }) hb hp hr (State.commandStep_undecodable hc he)

/-- Settles O58: the block's turn, scheduled or not, and an answer to another request. -/
theorem waitingStays : Obligations.WaitingStays := by
  unfold Obligations.WaitingStays
  refine fun s req hb hp => ⟨fun h => ?_, fun rest h => ?_, fun k a rest h hk => ?_⟩
  · rw [step_unscheduled h]
    exact State.ownTurn_waiting hb hp
  · rw [step_run h]
    exact State.ownTurn_waiting (s := { s with inputs := rest }) hb hp
  · rw [step_answer h]
    exact State.answerTurn_ignores (s := { s with inputs := rest }) hp hk a

end Sys2Proof.Proofs
end

section
/-! Reset (spec/70_reset_and_hazards.md R340 to R342): what its turn leaves in the state, what the host then reads, and that the
invariant holds of it. -/

namespace Sys2Proof.Machine

/-! ### The contents that a reset gives BUF -/

/-- Every byte of BUF is the first one that the cells list for its address, and 0 where they list none. -/
theorem Memory.read_ofCells_eq_find {size a : Nat} (ha : a < size) (cells : List Host.Cell) :
    (Memory.ofCells size cells).read a = ((cells.find? fun c => c.1 == a).map (·.2)).getD 0 := by
  induction cells with
  | nil => rfl
  | cons e cells ih =>
    obtain ⟨x, v⟩ := e
    rw [Memory.read_ofCells, ih]
    by_cases hx : x = a
    · subst hx; simp [ha]
    · simp [hx, Ne.symm hx]

/-! ### The state that the reset turn leaves -/

variable (s : State) (contents : List Host.Cell)

@[simp] theorem State.resetTurn_params : (s.resetTurn contents).params = s.params := rfl
@[simp] theorem State.resetTurn_busy : (s.resetTurn contents).busy = false := rfl
@[simp] theorem State.resetTurn_fcode : (s.resetTurn contents).fcode = .ok := rfl
@[simp] theorem State.resetTurn_cfgf : (s.resetTurn contents).cfgf = s.params.orderUnknown := rfl
@[simp] theorem State.resetTurn_buf : (s.resetTurn contents).buf = Memory.ofCells s.params.bufBytes contents := rfl
@[simp] theorem State.resetTurn_reader : (s.resetTurn contents).reader = none := rfl
@[simp] theorem State.resetTurn_port : (s.resetTurn contents).port = .idle := rfl
@[simp] theorem State.resetTurn_raced : (s.resetTurn contents).raced = [] := rfl
@[simp] theorem State.resetTurn_inputs : (s.resetTurn contents).inputs = s.inputs := rfl
@[simp] theorem State.resetTurn_sent : (s.resetTurn contents).sent = s.sent := rfl

/-- The held command words are dropped or kept, all of them (spec/70_reset_and_hazards.md R340, R350: no rule says which). -/
theorem State.resetTurn_held : (s.resetTurn contents).held = [] ∨ (s.resetTurn contents).held = s.held := by
  unfold State.resetTurn
  cases s.held with
  | nil => exact .inl rfl
  | cons w later =>
    dsimp only
    split
    · exact .inl rfl
    · exact .inr rfl

/-! ### What the host reads after it -/

/-- STATUS shows CFGF alone, in bit 1. -/
theorem State.resetTurn_status :
    (s.resetTurn contents).readReg 1 = some (if s.params.orderUnknown then 2 else 0) := by
  have hw : statusWord (s.resetTurn contents)
      = 0#56 ++ FCode.ok.code ++ 0#2 ++ BitVec.ofBool s.params.orderUnknown ++ BitVec.ofBool false := rfl
  rw [State.readReg, hw]
  cases s.params.orderUnknown <;> rfl

/-- CMD, OPA to FAVAIL and the reader registers are cleared. -/
theorem State.resetTurn_cleared :
    ∀ k ∈ [0, 2, 3, 4, 5, 6, 7, 8, 12, 13, 14, 15], (s.resetTurn contents).readReg k = some 0 := by
  simp only [List.forall_mem_cons]
  exact ⟨rfl, rfl, rfl, rfl, rfl, rfl, rfl, rfl, rfl, rfl, rfl, rfl, nofun⟩

/-- SYSORD, BUFSZ and CACHEMAX show the parameters, which a reset keeps. -/
theorem State.resetTurn_parameters : ∀ k ∈ [9, 10, 11], (s.resetTurn contents).readReg k = s.readReg k := by
  simp only [List.forall_mem_cons]
  exact ⟨rfl, rfl, rfl, nofun⟩

/-! ### Answers to requests that a reset has abandoned -/

/-- With no request outstanding an answer is ignored (spec/70_reset_and_hazards.md R340). -/
theorem step_answer_idle {u : State} {n : Nat} {a : SrcAnswer} {rest : List Input} (h : u.inputs = .answer n a :: rest)
    (hp : u.port = .idle) : step u = .next { u with inputs := rest } := by
  rw [step_answer h]
  simp only [State.answerTurn, hp]

end Sys2Proof.Machine

namespace Sys2Proof.Proofs

open Sys2Proof.Machine

/-- Settles O44; the test vectors' parameters are legal, and the empty memory is canonical and within any BUF. -/
theorem invariantAtReset : Obligations.InvariantAtReset := by
  unfold Obligations.InvariantAtReset
  have vectors_legal : Params.vectors.legal := by decide
  exact ⟨fun p m hp hwf hin => .resetWith hp hwf hin, .resetWith vectors_legal State.reset_buf_wf rfl⟩

/-- Settles O59: the step is the reset turn, which leaves the port idle for the answers that come later. -/
theorem resetState : Obligations.ResetState := by
  unfold Obligations.ResetState
  intro s rest cells h
  refine ⟨State.resetTurn { s with inputs := rest } cells, step_reset h, State.resetTurn_inputs .., State.resetTurn_params ..,
    State.resetTurn_sent .., State.resetTurn_busy .., State.resetTurn_fcode .., State.resetTurn_cfgf ..,
    State.resetTurn_status .., State.resetTurn_cleared _ _, State.resetTurn_parameters _ _, State.resetTurn_reader ..,
    State.resetTurn_port .., State.resetTurn_raced .., State.resetTurn_held .., fun a ha => ?_, fun k a more hrest => ?_⟩
  · rw [State.resetTurn_buf]
    exact Memory.read_ofCells_eq_find ha cells
  · exact step_answer_idle ((State.resetTurn_inputs ..).trans hrest) (State.resetTurn_port ..)

end Sys2Proof.Proofs
end

section
/-! The operands of an accepted command (spec/70_reset_and_hazards.md R352): no command looks at OPA, OPB and OPC as they stand,
nor at a latched operand that its opcode does not list (spec/30_encoding.md R98). -/

namespace Sys2Proof.Machine

variable {i : Instr} {s t : State}

/-- `s` with OPA, OPB and OPC as the host has written them since the acceptance. -/
def State.withOperands (x y z : Word) (s : State) : State := { s with opa := x, opb := y, opc := z }

/-- `s` with those latched operands replaced for which a value is given. -/
def State.withLatches (a b c : Option Word) (s : State) : State :=
  { s with latchA := a.getD s.latchA, latchB := b.getD s.latchB, latchC := c.getD s.latchC }

/-- No command reads or writes OPA, OPB and OPC: it runs on what was latched. -/
theorem neutral_withOperands (i : Instr) (x y z : Word) : Neutral i (State.withOperands x y z) := by
  constructor <;> (intros; rfl)

/-- No command reads a latched operand that its opcode does not list, and none writes a latched operand. -/
theorem neutral_withLatches {a b c : Option Word} (ha : a = none ∨ usesOpa i = false) (hb : b = none ∨ usesOpb i = false)
    (hc : c = none ∨ usesOpc i = false) : Neutral i (State.withLatches a b c) := by
  constructor
  case opA => intro hu s; rw [ha.resolve_right (by simp [hu])]; rfl
  case opB => intro hu s; rw [hb.resolve_right (by simp [hu])]; rfl
  case opC => intro hu s; rw [hc.resolve_right (by simp [hu])]; rfl
  all_goals (intros; rfl)

theorem exec_withLatches {a b c : Option Word} (h : exec i s = .next t) (ha : a = none ∨ usesOpa i = false)
    (hb : b = none ∨ usesOpb i = false) (hc : c = none ∨ usesOpc i = false) :
    exec i (s.withLatches a b c) = .next (t.withLatches a b c) :=
  exec_neutral (neutral_withLatches ha hb hc) h

end Sys2Proof.Machine

namespace Sys2Proof.Proofs

open Sys2Proof.Machine

/-- Settles O52: the changes are of what the command does not look at. -/
theorem operandsLatched : Obligations.OperandsLatched := by
  unfold Obligations.OperandsLatched
  intro s t i x y z h
  exact ⟨exec_neutral (neutral_withOperands i x y z) h,
    fun hA => exec_withLatches (a := some x) h (.inr hA) (.inl rfl) (.inl rfl),
    fun hB => exec_withLatches (b := some y) h (.inl rfl) (.inr hB) (.inl rfl),
    fun hC => exec_withLatches (c := some z) h (.inl rfl) (.inl rfl) (.inr hC)⟩

end Sys2Proof.Proofs
end
